-- ==== Sys2Proof/Word.lean ====
section
/-! DEFINITION. The word types: bytes, 7-bit addresses and the contents of the memory-mapped registers. -/

namespace Sys2Proof

/-- A byte: 8 bits, bit 7 most significant (spec/00_scope.md R11). -/
abbrev Byte := BitVec 8

/-- A 7-bit address: of a device on the two-wire bus (spec/20_memory.md R52) or of a location of the radio
register space (R53). -/
abbrev Addr7 := BitVec 7

/-- The contents of one register of the host register space. The widths of these registers are OPEN
(spec/00_scope.md R9), so the contents are the number the bits stand for; bit `i` is `Nat.testBit i`.
DESIGN CHOICE, log 2. -/
abbrev HostWord := Nat

end Sys2Proof
end

