-- ==== Sys2Proof/Config.lean ====
section
/-! DEFINITION. Configuration: the protocol constants the spec fixes, the parameters it leaves OPEN, the event
and answer types, and the free values (opaque constants without a body). -/

namespace Sys2Proof

/-! ### Events -/

/-- The registers the block writes (spec/20_memory.md R51, R62). -/
inductive WriteReg where
  | i2cW | spiCs | spiMosi | spiCtrl | radioRst
  deriving DecidableEq, Repr

/-- The registers the block reads (spec/20_memory.md R51, R62). -/
inductive ReadReg where
  | i2cR | spiStatus | spiMiso
  deriving DecidableEq, Repr

/-- The duration parameters, the labels of delay events (spec/00_scope.md R9, spec/70_reset_and_hazards.md R249). -/
inductive Duration where
  | settle        -- T_SETTLE
  | init          -- T_INIT
  | cs            -- T_CS
  | poll          -- T_POLL
  | sensorSettle  -- T_SENSOR_SETTLE
  | sensorConv    -- T_SENSOR_CONV
  | radioSettle   -- T_RADIO_SETTLE
  | rstLow        -- T_RST_LOW
  | rstWait       -- T_RST_WAIT
  deriving DecidableEq, Repr

/-- One event of a trace (spec/20_memory.md R62). -/
inductive Event where
  | memWrite (reg : WriteReg) (v : HostWord)
  | memRead (reg : ReadReg) (v : HostWord)
  | delay (t : Duration)
  deriving DecidableEq, Repr

/-! ### What the environment answers -/

/-- The environment's answer to one sample of the data line: whether a responder pulls it low
(`Responder.sda_low`, spec/20_memory.md R58), and the bits of I2C_R beside the input bit, which are any value
(spec/10_state.md R22). -/
structure ResponderAnswer where
  pull  : Bool
  other : HostWord
  deriving DecidableEq, Repr, Inhabited

/-- The environment's answer to one started transfer: the words SPI_STATUS shows at the successive reads of the
done-poll (`Device.done`), and the word SPI_MISO shows after it (`Device.exchange`); spec/20_memory.md R59. If no
listed status word has the done bit, the engine never completes this transfer (spec/70_reset_and_hazards.md R243). -/
structure EngineAnswer where
  status : List HostWord
  miso   : HostWord
  deriving DecidableEq, Repr, Inhabited

/-! ### Parameters -/

/-- The parameters of spec/00_scope.md R9 and spec/42_client_sequences.md R176 that the source does not fix, or
gives only a reference value for. They are an argument of the model: State carries them and no operation writes
them (log 1). Durations are in nanoseconds; no rule's result depends on one (R249). -/
structure Params where
  tSettle      : Nat
  tInit        : Nat
  tCs          : Nat
  tPoll        : Nat
  tRadioSettle : Nat
  tRstLow      : Nat
  tRstWait     : Nat
  /-- N_POLL, polls before RADIO_SEND's REG_POLL gives up (reference value 5000). -/
  nPoll        : Nat
  /-- W_WIDTH, the width of the line word and of I2C_W. -/
  wWidth       : Nat
  sclBit       : Nat
  sdaBit       : Nat
  oeBit        : Nat
  sdaInBit     : Nat
  csSelect     : HostWord
  csDeselect   : HostWord
  ctrlStartBit : Nat
  ctrlLenLsb   : Nat
  ctrlLenWidth : Nat
  statusDoneBit : Nat
  /-- SCAN_DIR, the direction bit of the scan's address byte (reference value 1, read; log 18). -/
  scanDir      : Bool
  hasReset     : Bool
  rstAssert    : HostWord
  rstRelease   : HostWord
  regVersion   : Addr7
  regOpMode    : Addr7
  regFrfMsb    : Addr7
  regFrfMid    : Addr7
  regFrfLsb    : Addr7
  regIrqFlags  : Addr7
  regFifoAddrPtr   : Addr7
  regFifo          : Addr7
  regPayloadLength : Addr7
  regDioMapping    : Addr7
  lrBit        : Byte
  modeSleep    : Byte
  modeStandby  : Byte
  modeTransmit : Byte
  configBlock  : List (Addr7 × Byte)
  irqClearAll  : Byte
  txDoneMask   : Byte
  irqClearTxDone : Byte
  txBase       : Byte
  dioTxDoneMap : Byte
  deriving DecidableEq, Repr, Inhabited

/-- The words the registers hold at power-on, before anything has been written (spec/70_reset_and_hazards.md R230). -/
structure PowerOn where
  lw        : HostWord
  i2cW      : HostWord
  i2cR      : HostWord
  spiCs     : HostWord
  spiMosi   : HostWord
  spiCtrl   : HostWord
  spiStatus : HostWord
  spiMiso   : HostWord
  radioRst  : HostWord
  deriving DecidableEq, Repr, Inhabited

namespace Config

/-! ### Protocol constants (spec/00_scope.md R9, R10) -/

/-- XFER_LEN: bits moved by one SPI_XFER. -/
def xferLen : Nat := 8

/-- DUMMY: the byte sent while a register value is clocked in (the spec's decision D15, log 19). -/
def dummy : Byte := 0x00#8

def scanFirst : Nat := 1
def scanLast : Nat := 127

/-- SENSOR_ADDR (spec/42_client_sequences.md R171). -/
def sensorAddr : Addr7 := 0x38#7

/-- The three command bytes of the sensor's initialization frame (spec/30_encoding.md R81). -/
def sensorInitCommand : List Byte := [0xE1#8, 0x08#8, 0x00#8]

/-- The three command bytes of the sensor's trigger frame (spec/30_encoding.md R81, spec/90_conflicts.md C8). -/
def sensorTriggerCommand : List Byte := [0xAC#8, 0x33#8, 0x00#8]

/-- RADIO_ID_EXPECTED. -/
def radioIdExpected : Byte := 0x12#8

/-- F_XOSC, in Hz. -/
def fXosc : Nat := 32000000

/-- FRF_SHIFT. -/
def frfShift : Nat := 19

/-- The largest frequency operand of RADIO_INIT (spec/42_client_sequences.md R180). -/
def frequencyMax : Nat := 1023999969

def lenMin : Nat := 1
def lenMax : Nat := 255

/-! ### Free values: opaque constants, nothing can be proved about what they are -/

/-- The machine's parameters: OPEN (spec/00_scope.md R9, spec/93_implementation_defined.md U11; log 1). -/
opaque params : Params

/-- The power-on words: unspecified (spec/70_reset_and_hazards.md R230, U1; log 3). -/
opaque powerOn : PowerOn

/-- The responder oracle, for a sample whose answer State does not list; its argument is the history
(spec/20_memory.md R58, D31; log 4). -/
opaque responder : List Event → ResponderAnswer

/-- The serial device oracle, for a transfer whose answer State does not list; its argument is the history
(spec/20_memory.md R59, D31; log 5). -/
opaque engine : List Event → EngineAnswer

/-- The level of the data line under contention (spec/10_state.md R23, U3; log 16). -/
opaque contendedLevel : List Event → Bool

/-- The bits beside the done bit of the status word read by a poll that never ends (U10; log 6). -/
opaque hungStatus : List Event → HostWord

end Config

namespace Params

/-- The length in nanoseconds of a duration label; T_SENSOR_SETTLE is 100 ms and T_SENSOR_CONV 80 ms (R9). -/
def nanoseconds (p : Params) : Duration → Nat
  | .settle => p.tSettle
  | .init => p.tInit
  | .cs => p.tCs
  | .poll => p.tPoll
  | .sensorSettle => 100000000
  | .sensorConv => 80000000
  | .radioSettle => p.tRadioSettle
  | .rstLow => p.tRstLow
  | .rstWait => p.tRstWait

end Params

end Sys2Proof
end

