-- ==== Sys2Proof/Syntax.lean ====
section
/-! DEFINITION. The operations as syntax: one constructor per row of spec/opcode_table.json, and the operation
word the caller issues. -/

namespace Sys2Proof

/-- The operating modes RADIO_SET_MODE can name (spec/42_client_sequences.md R178). -/
inductive RadioMode where
  | sleep | standby | transmit
  deriving DecidableEq, Repr

/-- The operations of the block and of its documented clients (spec/00_scope.md R3, spec/30_encoding.md R82).
A radio address operand is a byte, so that an operand with bit 7 set can be expressed; the bit is dropped
(spec/30_encoding.md R86, D16; log 14). `budget`, `targetFrequencyHz` and `length` are natural numbers
(spec/10_state.md R31, spec/42_client_sequences.md R179, R183; log 26). -/
inductive Instr where
  | i2cInit
  | i2cStart
  | i2cStop
  | i2cWriteByte (value : Byte)
  | i2cReadByte (sendAck : Bool)
  | i2cScan
  | spiSelect
  | spiDeselect
  | spiXfer (out : Byte)
  | regRead (address : Byte)
  | regWrite (address value : Byte)
  | regBurstWrite (startAddress : Byte) (bytes : List Byte)
  | regPoll (address mask : Byte) (budget : Nat)
  | sensorInit
  | sensorMeasure
  | radioSetMode (mode : RadioMode)
  | radioInit (targetFrequencyHz : Nat)
  | radioSend (payload : List Byte) (length : Nat)
  deriving DecidableEq, Repr

/-- An operation word OPW (spec/30_encoding.md R82): its bits, most significant (the first bit of `op`) first, and
the bytes that follow the word of a burst or a payload. -/
structure OpWord where
  bits     : List Bool
  trailing : List Byte
  deriving DecidableEq, Repr

end Sys2Proof
end

