-- ==== Sys2Proof/WellFormed.lean ====
section
/-! DEFINITION. Well-formedness: which operations an operation word can carry, and the constraints the spec puts
on the parameters. -/

namespace Sys2Proof

/-- A radio address operand that fits the 7 bits of its field (spec/30_encoding.md R82). -/
def addressFits (a : Byte) : Bool := a.toNat < 128

/-- The operation's operands fit the fields of its operation word (spec/30_encoding.md R82): 7-bit addresses,
16-bit counts and lengths, a 32-bit frequency, and as many trailing bytes as the length says. -/
def Instr.wf : Instr → Bool
  | .i2cInit => true
  | .i2cStart => true
  | .i2cStop => true
  | .i2cWriteByte _ => true
  | .i2cReadByte _ => true
  | .i2cScan => true
  | .spiSelect => true
  | .spiDeselect => true
  | .spiXfer _ => true
  | .regRead a => addressFits a
  | .regWrite a _ => addressFits a
  | .regBurstWrite a bytes => addressFits a && decide (bytes.length < 65536)
  | .regPoll a _ budget => addressFits a && decide (budget < 65536)
  | .sensorInit => true
  | .sensorMeasure => true
  | .radioSetMode _ => true
  | .radioInit f => decide (f < 4294967296)
  | .radioSend payload length => decide (length < 65536) && decide (payload.length = length)

namespace Params

/-- The line word has room for its three fields, at distinct positions (spec/00_scope.md R9, spec/30_encoding.md R71). -/
def layoutWf (p : Params) : Bool :=
  decide (3 ≤ p.wWidth) && decide (p.sclBit < p.wWidth) && decide (p.sdaBit < p.wWidth) &&
    decide (p.oeBit < p.wWidth) && decide (p.sclBit ≠ p.sdaBit) && decide (p.sclBit ≠ p.oeBit) &&
    decide (p.sdaBit ≠ p.oeBit)

/-- SDA_IN_BIT lies in I2C_R, which an access moves W_WIDTH bits of (spec/00_scope.md R9, R11; DEDUCED, log 2). -/
def inputWf (p : Params) : Bool := decide (p.sdaInBit < p.wWidth)

/-- The length field of SPI_CTRL can hold 8 and does not contain the start bit (spec/10_state.md R26). -/
def ctrlWf (p : Params) : Bool :=
  decide (Config.xferLen < 2 ^ p.ctrlLenWidth) &&
    (decide (p.ctrlStartBit < p.ctrlLenLsb) || decide (p.ctrlLenLsb + p.ctrlLenWidth ≤ p.ctrlStartBit))

/-- LR_BIT is a one-bit mask; the three mode codes are distinct and do not overlap it (spec/30_encoding.md R87). -/
def modesWf (p : Params) : Bool :=
  (List.range 8).any (fun i => decide (p.lrBit = 1#8 <<< i)) &&
    decide (p.modeSleep ≠ p.modeStandby) && decide (p.modeSleep ≠ p.modeTransmit) &&
    decide (p.modeStandby ≠ p.modeTransmit) && decide (p.modeSleep &&& p.lrBit = 0) &&
    decide (p.modeStandby &&& p.lrBit = 0) && decide (p.modeTransmit &&& p.lrBit = 0)

/-- The constraints the spec states on the parameters; CS_SELECT_VALUE and CS_DESELECT_VALUE are distinct
(spec/00_scope.md R9). The model does not enforce them: they are premises of statements (log 27). -/
def wf (p : Params) : Bool :=
  p.layoutWf && p.inputWf && p.ctrlWf && p.modesWf && decide (p.csSelect ≠ p.csDeselect)

end Params

end Sys2Proof
end

