-- ==== Sys2Proof/Decode.lean ====
section
/-! DEFINITION. The decoder of operation words, total, rejecting by name; then the encoder, written from the same
table (spec/30_encoding.md R82). The encoding is the spec's own index of operations and exists nowhere in the
hardware (D2; log 10). -/

namespace Sys2Proof

/-- Why an operation word names no operation (spec/30_encoding.md R82, R83, U6). -/
inductive DecodeError where
  /-- Fewer than the five bits of `op`. -/
  | truncated
  /-- `op` is 00110, 00111, 01111 or 10101 to 11111. -/
  | noSuchOperation (op : Nat)
  /-- The mode field is 11. -/
  | noSuchMode
  /-- The word does not have its row's width. -/
  | wrongWidth (op : Nat)
  /-- The number of bytes after the word is not the one the word says. -/
  | wrongTrailing (op : Nat)
  deriving DecidableEq, Repr

/-! ### Bit lists, most significant bit first -/

/-- The low `n` bits of `v`, most significant first. -/
def bitsOf : Nat → Nat → List Bool
  | 0, _ => []
  | n + 1, v => v.testBit n :: bitsOf n v

/-- The number a bit list stands for, most significant bit first. -/
def numOf (bits : List Bool) : Nat :=
  bits.foldl (fun acc b => 2 * acc + b.toNat) 0

/-- The field of `width` bits that starts `skip` bits after `op`. -/
def fieldAt (operands : List Bool) (skip width : Nat) : Nat :=
  numOf ((operands.drop skip).take width)

def byteAt (operands : List Bool) (skip : Nat) : Byte :=
  BitVec.ofNat 8 (fieldAt operands skip 8)

/-- The 7-bit address field; the operand's bit 7 is 0. -/
def addressAt (operands : List Bool) (skip : Nat) : Byte :=
  BitVec.ofNat 8 (fieldAt operands skip 7)

/-! ### The table: how many operand bits follow the five bits of `op` -/

/-- The operand widths of spec/30_encoding.md R82; `none` where `op` names no operation. -/
def operandWidth : Nat → Option Nat
  | 0 => some 0    -- I2C_INIT
  | 1 => some 0    -- I2C_START
  | 2 => some 0    -- I2C_STOP
  | 3 => some 8    -- I2C_WRITE_BYTE   vvvvvvvv
  | 4 => some 1    -- I2C_READ_BYTE    k
  | 5 => some 0    -- I2C_SCAN
  | 8 => some 0    -- SPI_SELECT
  | 9 => some 0    -- SPI_DESELECT
  | 10 => some 8   -- SPI_XFER         vvvvvvvv
  | 11 => some 7   -- REG_READ         aaaaaaa
  | 12 => some 15  -- REG_WRITE        aaaaaaa vvvvvvvv
  | 13 => some 23  -- REG_BURST_WRITE  aaaaaaa nnnnnnnnnnnnnnnn
  | 14 => some 31  -- REG_POLL         aaaaaaa mmmmmmmm nnnnnnnnnnnnnnnn
  | 16 => some 0   -- SENSOR_INIT
  | 17 => some 0   -- SENSOR_MEASURE
  | 18 => some 2   -- RADIO_SET_MODE   dd
  | 19 => some 32  -- RADIO_INIT       f x 32
  | 20 => some 16  -- RADIO_SEND       l x 16
  | _ => none

/-- The number of bytes that follow the word: `n` of a burst, `l` of a payload, else none (R82). -/
def trailingCount (op : Nat) (operands : List Bool) : Nat :=
  match op with
  | 13 => fieldAt operands 7 16
  | 20 => fieldAt operands 0 16
  | _ => 0

/-- The mode field `dd` (R82). -/
def modeOf : Nat → Option RadioMode
  | 0 => some .sleep
  | 1 => some .standby
  | 2 => some .transmit
  | _ => none

/-- The operation that `op` and its operand bits name, the lengths having been checked. -/
def decodeOperands (op : Nat) (operands : List Bool) (trailing : List Byte) : Except DecodeError Instr :=
  match op with
  | 0 => .ok .i2cInit
  | 1 => .ok .i2cStart
  | 2 => .ok .i2cStop
  | 3 => .ok (.i2cWriteByte (byteAt operands 0))
  | 4 => .ok (.i2cReadByte (fieldAt operands 0 1 == 1))
  | 5 => .ok .i2cScan
  | 8 => .ok .spiSelect
  | 9 => .ok .spiDeselect
  | 10 => .ok (.spiXfer (byteAt operands 0))
  | 11 => .ok (.regRead (addressAt operands 0))
  | 12 => .ok (.regWrite (addressAt operands 0) (byteAt operands 7))
  | 13 => .ok (.regBurstWrite (addressAt operands 0) trailing)
  | 14 => .ok (.regPoll (addressAt operands 0) (byteAt operands 7) (fieldAt operands 15 16))
  | 16 => .ok .sensorInit
  | 17 => .ok .sensorMeasure
  | 18 =>
    match modeOf (fieldAt operands 0 2) with
    | some m => .ok (.radioSetMode m)
    | none => .error .noSuchMode
  | 19 => .ok (.radioInit (fieldAt operands 0 32))
  | 20 => .ok (.radioSend trailing (fieldAt operands 0 16))
  | n => .error (.noSuchOperation n)

/-- Decoding an operation word: `op` first, which fixes the width (spec/30_encoding.md R82). -/
def decode (w : OpWord) : Except DecodeError Instr :=
  if w.bits.length < 5 then .error .truncated
  else
    let op := numOf (w.bits.take 5)
    let operands := w.bits.drop 5
    match operandWidth op with
    | none => .error (.noSuchOperation op)
    | some width =>
      if operands.length ≠ width then .error (.wrongWidth op)
      else if w.trailing.length ≠ trailingCount op operands then .error (.wrongTrailing op)
      else decodeOperands op operands w.trailing

/-! ### The encoder -/

/-- The five bits of `op` (R82). -/
def Instr.opIndex : Instr → Nat
  | .i2cInit => 0
  | .i2cStart => 1
  | .i2cStop => 2
  | .i2cWriteByte _ => 3
  | .i2cReadByte _ => 4
  | .i2cScan => 5
  | .spiSelect => 8
  | .spiDeselect => 9
  | .spiXfer _ => 10
  | .regRead _ => 11
  | .regWrite _ _ => 12
  | .regBurstWrite _ _ => 13
  | .regPoll _ _ _ => 14
  | .sensorInit => 16
  | .sensorMeasure => 17
  | .radioSetMode _ => 18
  | .radioInit _ => 19
  | .radioSend _ _ => 20

def modeField : RadioMode → Nat
  | .sleep => 0
  | .standby => 1
  | .transmit => 2

def byteBits (b : Byte) : List Bool := bitsOf 8 b.toNat

/-- The 7-bit address field of an operand. -/
def addressBits (a : Byte) : List Bool := bitsOf 7 a.toNat

/-- The operand bits after `op`, field by field (R82). -/
def Instr.operandBits : Instr → List Bool
  | .i2cInit => []
  | .i2cStart => []
  | .i2cStop => []
  | .i2cWriteByte v => byteBits v
  | .i2cReadByte k => [k]
  | .i2cScan => []
  | .spiSelect => []
  | .spiDeselect => []
  | .spiXfer v => byteBits v
  | .regRead a => addressBits a
  | .regWrite a v => addressBits a ++ byteBits v
  | .regBurstWrite a bytes => addressBits a ++ bitsOf 16 bytes.length
  | .regPoll a m n => addressBits a ++ byteBits m ++ bitsOf 16 n
  | .sensorInit => []
  | .sensorMeasure => []
  | .radioSetMode d => bitsOf 2 (modeField d)
  | .radioInit f => bitsOf 32 f
  | .radioSend _ l => bitsOf 16 l

/-- The bytes that follow the word (R82). -/
def Instr.trailingBytes : Instr → List Byte
  | .regBurstWrite _ bytes => bytes
  | .radioSend payload _ => payload
  | _ => []

/-- The operation word of an operation. -/
def encode (i : Instr) : OpWord :=
  { bits := bitsOf 5 i.opIndex ++ i.operandBits, trailing := i.trailingBytes }

/-! ### The opcode table's numbering of a word -/

/-- The widths of the rows of spec/opcode_table.json. -/
def tableWidths : List Nat := [5, 6, 7, 12, 13, 20, 21, 28, 36, 37]

/-- The operation word of `width` bits whose number is `w` (most significant bits `op`, as the table numbers
them), followed by as many zero bytes as it asks for. -/
def wordOfWidth (width w : Nat) : OpWord :=
  let bits := bitsOf width w
  { bits := bits
    trailing := List.replicate (trailingCount (numOf (bits.take 5)) (bits.drop 5)) 0#8 }

/-- The widths a word of `nbits` bits can have: `nbits` where it is a row's width, and no other; else, `nbits` being
a row's width in whole bytes, the widths that round up to it. The number must fit (DESIGN CHOICE, log 10). -/
def candidateWidths (nbits w : Nat) : List Nat :=
  (if nbits ∈ tableWidths then [nbits]
    else tableWidths.filter (fun k => decide (k < nbits) && decide (nbits < k + 8))).filter
      (fun k => decide (w < 2 ^ k))

def decodes (w : OpWord) : Bool :=
  match decode w with
  | .ok _ => true
  | .error _ => false

/-- The operation word a number of the opcode table stands for, one that does not decode where it stands for none.
Where `nbits` is a whole number of bytes and so
does not say the row's width, the first width is taken at which the number decodes (log 10). -/
def tableOpWord (nbits w : Nat) : OpWord :=
  match (candidateWidths nbits w).find? (fun k => decodes (wordOfWidth k w)) with
  | some k => wordOfWidth k w
  | none => if w < 2 ^ nbits then wordOfWidth nbits w else ⟨[], []⟩

/-- The operation the decoder reads from a word numbered as spec/opcode_table.json numbers it. -/
def decodeTableWord (nbits w : Nat) : Option Instr :=
  match decode (tableOpWord nbits w) with
  | .ok i => some i
  | .error _ => none

end Sys2Proof
end

