-- ==== Sys2Proof/Machine/State.lean ====
section
/-! DEFINITION. The state of the machine, its reset, the failure reasons, the results, and the reasons a step can
stop. -/

namespace Sys2Proof.Machine

/-- Where the I2C master stands in a transaction, the bookkeeping that the succession table of
spec/40_i2c_master.md R111 needs (log 11). -/
inductive I2cPhase where
  /-- Power-on: I2C_INIT has not run. -/
  | powerOn
  /-- After I2C_INIT, I2C_STOP or I2C_SCAN: the bus is idle. -/
  | idle
  /-- After I2C_START. -/
  | started
  /-- After the address byte; `read` is its direction bit (spec/30_encoding.md R75). -/
  | addressed (read : Bool)
  /-- After a later written byte. -/
  | written
  /-- After I2C_READ_BYTE(1). -/
  | readAcked
  /-- After I2C_READ_BYTE(0). -/
  | readNacked
  deriving DecidableEq, Repr

/-- The failure reasons of spec/60_exceptions.md R201. A failure is a result, handed to the caller in a next state. -/
inductive Failure where
  | ackFail | sensorBusy | idMismatch | txTimeout | invalidLength
  deriving DecidableEq, Repr

/-- The numeric codes of spec/60_exceptions.md R201 (the spec's own, D19). -/
def Failure.code : Failure → Nat
  | .ackFail => 1
  | .sensorBusy => 2
  | .idMismatch => 3
  | .txTimeout => 4
  | .invalidLength => 5

/-- What an operation hands to the caller (spec/10_state.md R31, spec/60_exceptions.md R200; log 8). -/
inductive Result where
  /-- Nothing: the operation returns nothing, or none has returned. -/
  | none
  | acknowledged (ack : Bool)
  | byte (value : Byte)
  | found (addresses : List Addr7)
  | polled (found : Bool) (flags : Byte)
  /-- Two 16-bit signed values (spec/42_client_sequences.md R173). -/
  | reading (temperature humidity : BitVec 16)
  | success
  | failed (reason : Failure)
  deriving DecidableEq, Repr

/-- The I2C master's half of the state (spec/10_state.md R20, R21, R22, R38). -/
@[ext]
structure I2cMaster where
  lw    : HostWord
  i2cW  : HostWord
  /-- The word of the last read of I2C_R (log 22). -/
  i2cR  : HostWord
  ready : Bool
  phase : I2cPhase
  deriving DecidableEq, Repr

/-- The SPI layer's half of the state (spec/10_state.md R24 to R26, R28 to R30, R38). `cs`, `mosi`, `ctrl` and
`radioRst` are the words last written (log 28). -/
@[ext]
structure SpiLayer where
  cs       : HostWord
  mosi     : HostWord
  ctrl     : HostWord
  /-- The word of the last read of SPI_STATUS (log 22). -/
  status   : HostWord
  /-- The word of the last read of SPI_MISO (log 22). -/
  miso     : HostWord
  radioRst : HostWord
  inFrame  : Bool
  deriving DecidableEq, Repr

/-- The state of the machine; INVENTORY.md lists the rule of each field. -/
@[ext]
structure State where
  /-- The OPEN parameters, fixed for a run (log 1). -/
  params    : Params
  i2c       : I2cMaster
  spi       : SpiLayer
  /-- The micro-step index: events of the running or last operation (spec/10_state.md R27; log 7). -/
  ustep     : Nat
  /-- REG_POLL's counter, `none` while no REG_POLL runs (spec/10_state.md R33). -/
  remaining : Option Nat
  /-- A transfer is in progress whose done bit never sets (spec/70_reset_and_hazards.md R243; log 6). -/
  hung      : Bool
  result    : Result
  /-- The events performed so far, oldest first (spec/20_memory.md R62). -/
  trace     : List Event
  /-- The environment's listed answers to the next samples, next first (log 4). -/
  responder : List ResponderAnswer
  /-- The environment's listed answers to the next transfers, next first (log 5). -/
  engine    : List EngineAnswer
  /-- The operation words the caller has issued and the block has not started, next first (log 9). -/
  queue     : List OpWord
  deriving DecidableEq, Repr

/-- No step ends in a fault: the hardware has no trap, and its failures are results (spec/60_exceptions.md R200,
R209). The type has no constructor, so "no step faults" holds by its form: safe. -/
inductive Fault where
  deriving DecidableEq, Repr

/-- Why the model gives an operation no next state. Every reason is safe: nothing can be proved about what the
hardware does there. -/
inductive Refusal where
  /-- Raised by an arm of exec whose operation has no meaning yet: safe. -/
  | notModelled (mnemonic : String)
  /-- Raised by step when the next operation word names no operation (spec/30_encoding.md R83, U6): safe. -/
  | undecodable (e : DecodeError)
  /-- Raised by an I2C operation other than I2C_INIT before I2C_INIT (spec/70_reset_and_hazards.md R252): safe. -/
  | i2cNotReady
  /-- Raised by an I2C operation in a succession that spec/40_i2c_master.md R111 refuses (R215, U5; log 11): safe. -/
  | i2cSuccession
  /-- Raised by SPI_SELECT and by the compound SPI operations inside a frame (spec/41_spi_register_access.md R147): safe. -/
  | frameOpen
  /-- Raised by SPI_DESELECT and SPI_XFER outside a frame (spec/41_spi_register_access.md R147): safe. -/
  | frameClosed
  /-- Raised by RADIO_INIT for a frequency above 1 023 999 969 (spec/42_client_sequences.md R180, U6): safe. -/
  | frequencyOutOfRange
  /-- Raised by RADIO_SEND for a payload of fewer than `length` bytes (spec/42_client_sequences.md R183, U6): safe. -/
  | payloadTooShort
  deriving DecidableEq, Repr

/-- The outcome of a step of this machine. -/
abbrev Outcome := Host.Outcome State Fault Refusal

/-- The machine right after reset, that is at power-on: the bookkeeping of spec/10_state.md R41 at the values given
there, the registers at the power-on words nobody knows (R230; log 3), nothing performed, nothing issued. -/
def State.reset : State where
  params := Config.params
  i2c :=
    { lw := Config.powerOn.lw % 2 ^ Config.params.wWidth
      i2cW := Config.powerOn.i2cW % 2 ^ Config.params.wWidth
      i2cR := Config.powerOn.i2cR % 2 ^ Config.params.wWidth
      ready := false
      phase := .powerOn }
  spi :=
    { cs := Config.powerOn.spiCs
      mosi := Config.powerOn.spiMosi
      ctrl := Config.powerOn.spiCtrl
      status := Config.powerOn.spiStatus
      miso := Config.powerOn.spiMiso
      radioRst := Config.powerOn.radioRst
      inFrame := false }
  ustep := 0
  remaining := none
  hung := false
  result := .none
  trace := []
  responder := []
  engine := []
  queue := []

end Sys2Proof.Machine
end

