-- ==== Sys2Proof/Machine/Operands.lean ====
section
/-! DEFINITION. Operand and word assembly: the line word, the address and command bytes, the control word, the
frequency value and its bytes, the operating-mode byte, the sensor's fields (spec/30_encoding.md, R86 the summary). -/

namespace Sys2Proof.Machine

/-! ### Fields of a register word -/

/-- `w` with bit `pos` set to `b`, every other bit kept (spec/00_scope.md R11). -/
def setBit (w : HostWord) (pos : Nat) (b : Bool) : HostWord :=
  if w.testBit pos = b then w else w ^^^ 2 ^ pos

/-- The three fields of the line word (spec/10_state.md R20). -/
inductive LineField where
  | scl | sda | oe
  deriving DecidableEq, Repr

/-- SCL_BIT, SDA_BIT, OE_BIT (spec/00_scope.md R9). -/
def linePos (p : Params) : LineField → Nat
  | .scl => p.sclBit
  | .sda => p.sdaBit
  | .oe => p.oeBit

/-- The level of a field of a line word. -/
def lineField (p : Params) (f : LineField) (w : HostWord) : Bool := w.testBit (linePos p f)

/-- The low W_WIDTH bits of a word: what an access of I2C_W or I2C_R moves (spec/00_scope.md R11). -/
def cutToWidth (p : Params) (w : HostWord) : HostWord := w % 2 ^ p.wWidth

/-- LWF(scl, sda, oe), at W_WIDTH bits (spec/30_encoding.md R71). -/
def lwf (p : Params) (scl sda oe : Bool) : HostWord :=
  ((scl.toNat <<< p.sclBit) ||| (sda.toNat <<< p.sdaBit) ||| (oe.toNat <<< p.oeBit)) % 2 ^ p.wWidth

/-- CTRLW: start = 1, length = 8 (spec/30_encoding.md R79). -/
def ctrlw (p : Params) : HostWord :=
  (1 <<< p.ctrlStartBit) ||| (Config.xferLen <<< p.ctrlLenLsb)

/-- `zext(out)`, the byte in bits 7:0 of the data-out register (spec/10_state.md R25, D13). -/
def byteToWord (b : Byte) : HostWord := b.toNat

/-- `[7:0]` of the data-in register (spec/10_state.md R29, D13). -/
def wordToByte (w : HostWord) : Byte := BitVec.ofNat 8 w

/-! ### Bytes on the two links -/

/-- ADDRB(a, dir), dir = 1 for read (spec/30_encoding.md R75; PRESUMED, GK1, log 20). -/
def addrb (a : Addr7) (dir : Bool) : Byte := a ++ BitVec.ofBool dir

/-- CMDB(w, addr), w = 1 for write (spec/30_encoding.md R77). -/
def cmdb (write : Bool) (a : Addr7) : Byte := BitVec.ofBool write ++ a

/-- A radio address operand: bits above 6 are dropped (spec/30_encoding.md R86, D16; log 14). -/
def radioAddress (operand : Byte) : Addr7 := operand.setWidth 7

/-- The mode code MODE_m (spec/42_client_sequences.md R176). -/
def modeCode (p : Params) : RadioMode → Byte
  | .sleep => p.modeSleep
  | .standby => p.modeStandby
  | .transmit => p.modeTransmit

/-- OPMODE(m) = LR_BIT | MODE_m (spec/30_encoding.md R87). -/
def opmode (p : Params) (m : RadioMode) : Byte := p.lrBit ||| modeCode p m

/-- The two-wire addresses I2C_SCAN visits: SCAN_FIRST to SCAN_LAST, ascending (spec/40_i2c_master.md R107). -/
def scanAddresses : List Addr7 :=
  (List.range' Config.scanFirst (Config.scanLast + 1 - Config.scanFirst)).map (BitVec.ofNat 7)

/-! ### The frequency value -/

/-- Frf(f), round to nearest in unbounded integers (spec/42_client_sequences.md R180, D27). -/
def frf (f : Nat) : Nat := (f * 2 ^ Config.frfShift + Config.fXosc / 2) / Config.fXosc

/-- FRF3: bits 23:16, 15:8, 7:0 (spec/30_encoding.md R80). -/
def frfMsb (v : Nat) : Byte := BitVec.ofNat 8 (v >>> 16)
def frfMid (v : Nat) : Byte := BitVec.ofNat 8 (v >>> 8)
def frfLsb (v : Nat) : Byte := BitVec.ofNat 8 v

/-! ### The sensor's two fields -/

/-- hum_raw = b[1] ++ b[2] ++ b[3][7:4] (spec/42_client_sequences.md R174; PRESUMED, GK5, log 20). -/
def humRaw (b1 b2 b3 : Byte) : BitVec 20 := (b1 ++ b2 : BitVec 16) ++ b3.extractLsb' 4 4

/-- temp_raw = b[3][3:0] ++ b[4] ++ b[5] (spec/42_client_sequences.md R174; PRESUMED, GK5, log 20). -/
def tempRaw (b3 b4 b5 : Byte) : BitVec 20 := (b3.extractLsb' 0 4 ++ b4 : BitVec 12) ++ b5

/-- floor(raw * 10000 / 2^20), in unbounded integers (spec/42_client_sequences.md R174). -/
def humidityScale (raw : Nat) : Int := (raw * 10000 / 2 ^ 20 : Nat)

/-- floor(raw * 20000 / 2^20) - 5000, in unbounded integers (spec/42_client_sequences.md R174). -/
def temperatureScale (raw : Nat) : Int := (raw * 20000 / 2 ^ 20 : Nat) - 5000

/-- trunc16: the low 16 bits, read as a signed value (spec/42_client_sequences.md R174). -/
def trunc16 (v : Int) : BitVec 16 := BitVec.ofInt 16 v

end Sys2Proof.Machine
end

