-- ==== Sys2Proof/Machine/Flags.lean ====
section
/-! DEFINITION. The block has no flag register; these are the four one-bit conditions that decide control flow, each
sampled at one place and not stored (spec/10_state.md R32), and the level of the data line a sample sees (R23). -/

namespace Sys2Proof.Machine

/-- The level of the data line (spec/10_state.md R23): `oe` and `sda` are the fields of I2C_W, `pull` says whether
a responder pulls low, `contended` is the unspecified level when the master drives high against it (U3, log 16). -/
def sdaLevel (oe sda pull contended : Bool) : Bool :=
  match oe, sda with
  | false, _ => !pull
  | true, false => false
  | true, true => if pull then contended else true

/-- `acknowledged`: true iff the line reads low (spec/40_i2c_master.md R105). -/
def acknowledgedOf (sample : Bool) : Bool := !sample

/-- `done`: bit STATUS_DONE_BIT of SPI_STATUS (spec/10_state.md R28). -/
def doneOf (p : Params) (status : HostWord) : Bool := status.testBit p.statusDoneBit

/-- The polled condition, transmit-done in RADIO_SEND: `(flags & mask) != 0` (spec/41_spi_register_access.md R146, D18). -/
def maskedNonzero (flags mask : Byte) : Bool := flags &&& mask != 0#8

/-- The sensor's busy condition: the first response byte's high bit (spec/42_client_sequences.md R173). -/
def busyOf (b0 : Byte) : Bool := b0.getLsbD 7

end Sys2Proof.Machine
end

