-- ==== Sys2Proof/Machine/Ops.lean ====
section
/-! DEFINITION. The named operations over registers, the trace and the environment: MemWrite, MemRead, Delay, the line
change, the sample, the done-poll; how an operation starts, returns, fails and is refused; how the next operation
word is fetched. -/

namespace Sys2Proof.Machine

/-! ### Events -/

/-- One event is performed: it enters the trace and advances the micro-step index (spec/20_memory.md R62,
spec/10_state.md R27). -/
def emit (e : Event) (s : State) : State :=
  { s with trace := s.trace ++ [e], ustep := s.ustep + 1 }

/-- `Delay(t)`: an event that changes no other state (spec/00_scope.md R11, spec/70_reset_and_hazards.md R249). -/
def delay (t : Duration) (s : State) : State := emit (.delay t) s

/-- The register a write goes to takes the value. The field is the word last written: the block reads none of these
registers, and whether the host changes one afterwards, SPI_CTRL's `start` clearing itself (spec/10_state.md R26, N3),
the spec leaves open and the model does not show (DESIGN CHOICE, log 28). -/
def putReg (reg : WriteReg) (v : HostWord) (s : State) : State :=
  match reg with
  | .i2cW => { s with i2c := { s.i2c with i2cW := v } }
  | .spiCs => { s with spi := { s.spi with cs := v } }
  | .spiMosi => { s with spi := { s.spi with mosi := v } }
  | .spiCtrl => { s with spi := { s.spi with ctrl := v } }
  | .radioRst => { s with spi := { s.spi with radioRst := v } }

/-- `MemWrite(REG, v)` (spec/00_scope.md R11, spec/20_memory.md R57). -/
def memWrite (reg : WriteReg) (v : HostWord) (s : State) : State :=
  emit (.memWrite reg v) (putReg reg v s)

/-- The register that is read shows the value. -/
def putRead (reg : ReadReg) (v : HostWord) (s : State) : State :=
  match reg with
  | .i2cR => { s with i2c := { s.i2c with i2cR := v } }
  | .spiStatus => { s with spi := { s.spi with status := v } }
  | .spiMiso => { s with spi := { s.spi with miso := v } }

/-- `MemRead(REG)` that returns `v`, the environment's value at this moment (spec/20_memory.md R57, R63). -/
def memRead (reg : ReadReg) (v : HostWord) (s : State) : State :=
  emit (.memRead reg v) (putRead reg v s)

/-! ### The two-wire lines -/

/-- The line-change primitive `set_scl`, `set_sda`, `set_oe`: update one field of the shadow line word, flush the
whole word, wait the settle delay (spec/40_i2c_master.md R100), also when nothing changes (R108). -/
def setLine (f : LineField) (b : Bool) (s : State) : State :=
  let w := setBit s.i2c.lw (linePos s.params f) b
  delay .settle (memWrite .i2cW w { s with i2c := { s.i2c with lw := w } })

/-- SCL_line: what I2C_W drives (spec/10_state.md R23). -/
def sclLine (s : State) : Bool := lineField s.params .scl s.i2c.i2cW

/-- SDA_line, given whether a responder pulls low (spec/10_state.md R23). -/
def sdaLine (s : State) (pull : Bool) : Bool :=
  sdaLevel (lineField s.params .oe s.i2c.i2cW) (lineField s.params .sda s.i2c.i2cW) pull
    (Config.contendedLevel s.trace)

/-- The responder's answer to the sample taken now: the next listed one, else the oracle's (spec/20_memory.md R58; log 4). -/
def responderAnswer (s : State) : ResponderAnswer :=
  s.responder.headD (Config.responder s.trace)

/-- The word I2C_R shows now, W_WIDTH bits of it (spec/00_scope.md R11, spec/20_memory.md R56): the line's level at
SDA_IN_BIT, the other bits any value (spec/10_state.md R22). -/
def i2cRWord (s : State) : HostWord :=
  setBit (cutToWidth s.params (responderAnswer s).other) s.params.sdaInBit (sdaLine s (responderAnswer s).pull)

/-- `Sample()`: MemRead(I2C_R)[SDA_IN_BIT]; no delay follows (spec/40_i2c_master.md R101). -/
def sample (s : State) : Bool × State :=
  ((i2cRWord s).testBit s.params.sdaInBit,
    { memRead .i2cR (i2cRWord s) s with responder := s.responder.tail })

/-! ### The serial engine -/

/-- How a sequence of SPI micro-steps ends: it returns a value, or it hangs in a done-poll
(spec/70_reset_and_hazards.md R243). -/
inductive Ran (α : Type) where
  | returned (a : α) (s : State)
  | hung (s : State)

/-- Sequencing: what follows a micro-sequence runs if it returns (spec/20_memory.md R62). -/
def Ran.bind {α β : Type} (r : Ran α) (k : α → State → Ran β) : Ran β :=
  match r with
  | .returned a s => k a s
  | .hung s => .hung s

/-- The engine's answer to the transfer started now: the next listed one, else the oracle's (spec/20_memory.md R59; log 5). -/
def engineAnswer (s : State) : EngineAnswer :=
  s.engine.headD (Config.engine s.trace)

/-- The done-poll over the words SPI_STATUS shows: read until the done bit is 1. The words having run out without
it, the engine never completes (spec/41_spi_register_access.md R142, spec/70_reset_and_hazards.md R243). -/
def pollDone : List HostWord → State → Ran Unit
  | [], s => .hung s
  | w :: ws, s =>
    let s := memRead .spiStatus w s
    if doneOf s.params w then .returned () s else pollDone ws s

/-- One more status read of a poll that never ends; its done bit is 0 (spec/70_reset_and_hazards.md R243; log 6). -/
def hungRead (s : State) : State :=
  memRead .spiStatus (setBit (Config.hungStatus s.trace) s.params.statusDoneBit false) s

/-! ### Start and end of an operation -/

/-- An operation starts: the micro-step index is 0 and no result is there (spec/10_state.md R27). -/
def startOp (s : State) : State := { s with ustep := 0, result := .none }

/-- `return r`: the operation ends and hands its result to the caller (spec/00_scope.md R11). -/
def returnOp (r : Result) (s : State) : State := { s with result := r }

/-- `return fail <Reason>`: the operation ends with a failure result; nothing is saved, no other state changes
(spec/60_exceptions.md R200, R209). This is all the "exception entry" this hardware has, and there is no return
from one (R210). -/
def failOp (f : Failure) (s : State) : State := returnOp (.failed f) s

/-- The state an SPI operation leaves: its result, or the unfinished poll (spec/70_reset_and_hazards.md R243). -/
def Ran.settle (r : Ran Result) : State :=
  match r with
  | .returned res s => returnOp res s
  | .hung s => { s with hung := true }

/-! ### Refused uses -/

/-- An I2C operation other than I2C_INIT: refused before I2C_INIT (spec/70_reset_and_hazards.md R252) and in a
succession that is not allowed (spec/40_i2c_master.md R111). -/
def issueI2c (allowed : I2cPhase → Bool) (run : State → State) (s : State) : Outcome :=
  if s.i2c.ready = false then .refused .i2cNotReady
  else if allowed s.i2c.phase = false then .refused .i2cSuccession
  else .next (run (startOp s))

/-- An SPI operation that opens its own frame: refused inside one (spec/41_spi_register_access.md R147). -/
def issueOutsideFrame (run : State → State) (s : State) : Outcome :=
  if s.spi.inFrame = true then .refused .frameOpen
  else .next (run (startOp s))

/-- An SPI operation that needs an open frame: refused outside one (spec/41_spi_register_access.md R147). -/
def issueInsideFrame (run : State → State) (s : State) : Outcome :=
  if s.spi.inFrame = false then .refused .frameClosed
  else .next (run (startOp s))

/-! ### Fetch -/

/-- The next operation word the caller has issued, and the state with it taken off the queue (spec/60_exceptions.md
R214; log 9). -/
def fetchOp (s : State) : Option (OpWord × State) :=
  match s.queue with
  | [] => none
  | w :: rest => some (w, { s with queue := rest })

end Sys2Proof.Machine
end

