-- ==== Sys2Proof/Machine/I2cMaster.lean ====
section
/-! DEFINITION. The operations of the I2C master (spec/40_i2c_master.md). -/

namespace Sys2Proof.Machine

/-! ### Successions (spec/40_i2c_master.md R111; log 11) -/

/-- I2C_INIT: from power-on and from idle; in mid-transaction it is an ill-formed succession (R111, U5,
spec/70_reset_and_hazards.md R240). -/
def initAllowed : I2cPhase → Bool
  | .powerOn => true
  | .idle => true
  | .started => false
  | .addressed _ => false
  | .written => false
  | .readAcked => false
  | .readNacked => false

/-- I2C_START: from idle, and, as a repeated start, after a written byte and after I2C_READ_BYTE(0); not after
I2C_READ_BYTE(1), which the table lets only a further read follow (R103, R111). -/
def startAllowed : I2cPhase → Bool
  | .powerOn => false
  | .idle => true
  | .started => false
  | .addressed _ => true
  | .written => true
  | .readAcked => false
  | .readNacked => true

/-- I2C_STOP: after a byte operation (R111), also after I2C_READ_BYTE(1) ("performed as written", R111). Not from
idle, where the table has no I2C_STOP: the words of that empty transaction are `stopCondition`'s (R104, V7), the use
is refused. -/
def stopAllowed : I2cPhase → Bool
  | .powerOn => false
  | .idle => false
  | .started => false
  | .addressed _ => true
  | .written => true
  | .readAcked => true
  | .readNacked => true

/-- I2C_WRITE_BYTE: after I2C_START and after I2C_WRITE_BYTE (R111); `LW.scl = 0` there (R105). -/
def writeAllowed : I2cPhase → Bool
  | .powerOn => false
  | .idle => false
  | .started => true
  | .addressed _ => true
  | .written => true
  | .readAcked => false
  | .readNacked => false

/-- I2C_READ_BYTE: after a read-address byte and after I2C_READ_BYTE(1) (R111); `LW.scl = 0` there (R106). -/
def readAllowed : I2cPhase → Bool
  | .powerOn => false
  | .idle => false
  | .started => false
  | .addressed read => read
  | .written => false
  | .readAcked => true
  | .readNacked => false

/-- I2C_SCAN and the sensor sequences: from idle (R107, R111; spec/42_client_sequences.md R172, R173). -/
def idleOnly : I2cPhase → Bool
  | .powerOn => false
  | .idle => true
  | .started => false
  | .addressed _ => false
  | .written => false
  | .readAcked => false
  | .readNacked => false

/-- The phase after a written byte: the first after I2C_START is the address byte (spec/30_encoding.md R76). -/
def phaseAfterWrite (before : I2cPhase) (value : Byte) : I2cPhase :=
  match before with
  | .started => .addressed (value.getLsbD 0)
  | _ => .written

/-- The phase after a read byte. -/
def phaseAfterRead (sendAck : Bool) : I2cPhase :=
  if sendAck then .readAcked else .readNacked

def setPhase (ph : I2cPhase) (s : State) : State := { s with i2c := { s.i2c with phase := ph } }

/-! ### Micro-sequences -/

/-- The pseudocode of I2C_INIT: the whole word in one write, then the initialization delay (R102). -/
def initLines (s : State) : State :=
  let w := lwf s.params true true true
  let s := delay .init (memWrite .i2cW w { s with i2c := { s.i2c with lw := w } })
  { s with i2c := { s.i2c with ready := true } }

/-- The pseudocode of I2C_START (R103). -/
def startCondition (s : State) : State :=
  let s := setLine .sda true s
  let s := setLine .oe true s
  let s := setLine .scl true s
  let s := setLine .sda false s
  setLine .scl false s

/-- The pseudocode of I2C_STOP (R104). -/
def stopCondition (s : State) : State :=
  let s := setLine .sda false s
  let s := setLine .oe true s
  let s := setLine .scl true s
  setLine .sda true s

/-- One data bit of a written byte: set the data line, pulse the clock high then low (R105). -/
def sendBit (b : Bool) (s : State) : State :=
  let s := setLine .sda b s
  let s := setLine .scl true s
  setLine .scl false s

/-- `for i = 7 downto 0`. -/
def bitOrder : List Nat := [7, 6, 5, 4, 3, 2, 1, 0]

/-- The data bits of a written byte, in the given order (R105). -/
def sendBits (value : Byte) : List Nat → State → State
  | [], s => s
  | i :: is, s => sendBits value is (sendBit (value.getLsbD i) s)

/-- The pseudocode of I2C_WRITE_BYTE (R105). -/
def writeByte (value : Byte) (s : State) : Bool × State :=
  let s := setLine .oe true s
  let s := sendBits value bitOrder s
  let s := setLine .oe false s
  let s := setLine .scl true s
  let a := sample s
  let s := setLine .scl false a.2
  (acknowledgedOf a.1, s)

/-- One data bit of a read byte: pulse the clock high, sample, pulse it low (R106). -/
def readBit (s : State) : Bool × State :=
  let s := setLine .scl true s
  let a := sample s
  (a.1, setLine .scl false a.2)

/-- `value[i] <- b`. -/
def putByteBit (value : Byte) (i : Nat) (b : Bool) : Byte :=
  (value &&& ~~~(1#8 <<< i)) ||| (BitVec.setWidth 8 (BitVec.ofBool b) <<< i)

/-- The data bits of a read byte, in the given order (R106). -/
def readBits : List Nat → Byte → State → Byte × State
  | [], value, s => (value, s)
  | i :: is, value, s =>
    let r := readBit s
    readBits is (putByteBit value i r.1) r.2

/-- The acknowledge level after a read: low and driven, or high and released (R106). -/
def driveAck (sendAck : Bool) (s : State) : State :=
  if sendAck then setLine .oe true (setLine .sda false s)
  else setLine .sda true s

/-- The pseudocode of I2C_READ_BYTE (R106). -/
def readByte (sendAck : Bool) (s : State) : Byte × State :=
  let s := setLine .oe false s
  let r := readBits bitOrder 0#8 s
  let s := driveAck sendAck r.2
  let s := setLine .scl true s
  let s := setLine .scl false s
  (r.1, s)

/-- I2C_PROBE, one step of the scan (spec/30_encoding.md R85, R107). -/
def probe (a : Addr7) (s : State) : Bool × State :=
  let s := startCondition s
  let r := writeByte (addrb a s.params.scanDir) s
  (r.1, stopCondition r.2)

/-- The pseudocode of I2C_SCAN over the given addresses (R107). -/
def scanFrom : List Addr7 → State → List Addr7 × State
  | [], s => ([], s)
  | a :: as, s =>
    let r := probe a s
    let rest := scanFrom as r.2
    (if r.1 then a :: rest.1 else rest.1, rest.2)

/-! ### Meanings -/

/-- I2C_INIT (R102): while i2c_ready is false it always runs (R252); after that on an idle bus, any number of times
(R102, R214); in mid-transaction it is refused (R111, R240, U5; log 11). -/
def execI2cInit (s : State) : Outcome :=
  if s.i2c.ready && !initAllowed s.i2c.phase then .refused .i2cSuccession
  else .next (setPhase .idle (initLines (startOp s)))

/-- I2C_START (R103). -/
def execI2cStart (s : State) : Outcome :=
  issueI2c startAllowed (fun s => setPhase .started (startCondition s)) s

/-- I2C_STOP (R104). -/
def execI2cStop (s : State) : Outcome :=
  issueI2c stopAllowed (fun s => setPhase .idle (stopCondition s)) s

/-- I2C_WRITE_BYTE (R105). -/
def execI2cWriteByte (value : Byte) (s : State) : Outcome :=
  issueI2c writeAllowed (fun s =>
    let r := writeByte value s
    returnOp (.acknowledged r.1) (setPhase (phaseAfterWrite s.i2c.phase value) r.2)) s

/-- I2C_READ_BYTE (R106). -/
def execI2cReadByte (sendAck : Bool) (s : State) : Outcome :=
  issueI2c readAllowed (fun s =>
    let r := readByte sendAck s
    returnOp (.byte r.1) (setPhase (phaseAfterRead sendAck) r.2)) s

/-- I2C_SCAN (R107). -/
def execI2cScan (s : State) : Outcome :=
  issueI2c idleOnly (fun s =>
    let r := scanFrom scanAddresses s
    returnOp (.found r.1) r.2) s

end Sys2Proof.Machine
end

