-- ==== Sys2Proof/Machine/SpiAccess.lean ====
section
/-! DEFINITION. The operations of the SPI register-access layer (spec/41_spi_register_access.md). -/

namespace Sys2Proof.Machine

/-! ### Micro-sequences -/

/-- The pseudocode of SPI_SELECT (R140). -/
def selectDevice (s : State) : State :=
  let s := delay .cs (memWrite .spiCs s.params.csSelect s)
  { s with spi := { s.spi with inFrame := true } }

/-- The pseudocode of SPI_DESELECT (R141). -/
def deselectDevice (s : State) : State :=
  let s := delay .cs (memWrite .spiCs s.params.csDeselect s)
  { s with spi := { s.spi with inFrame := false } }

/-- The pseudocode of SPI_XFER (R142): load the byte, start the engine, poll for done, fetch the answer. -/
def transferByte (out : Byte) (s : State) : Ran Byte :=
  let s := memWrite .spiMosi (byteToWord out) s
  let s := memWrite .spiCtrl (ctrlw s.params) s
  let answer := engineAnswer s
  let s := { s with engine := s.engine.tail }
  (pollDone answer.status s).bind fun _ s =>
    .returned (wordToByte answer.miso) (memRead .spiMiso answer.miso s)

/-- The pseudocode of REG_READ: FRAME-R, the byte of the second exchange is the value (R143, R151). -/
def regRead (a : Addr7) (s : State) : Ran Byte :=
  (transferByte (cmdb false a) (selectDevice s)).bind fun _ s =>
    (transferByte Config.dummy s).bind fun value s =>
      .returned value (deselectDevice s)

/-- The pseudocode of REG_WRITE: FRAME-W, both received bytes dropped (R144, R151). -/
def regWrite (a : Addr7) (value : Byte) (s : State) : Ran Unit :=
  (transferByte (cmdb true a) (selectDevice s)).bind fun _ s =>
    (transferByte value s).bind fun _ s =>
      .returned () (deselectDevice s)

/-- The data bytes of a burst, in sequence, every received byte dropped (R145, R151). -/
def transferAll : List Byte → State → Ran Unit
  | [], s => .returned () s
  | b :: bs, s => (transferByte b s).bind fun _ s => transferAll bs s

/-- The pseudocode of REG_BURST_WRITE: FRAME-B, one select, one deselect (R145). -/
def burstWrite (a : Addr7) (bytes : List Byte) (s : State) : Ran Unit :=
  (transferByte (cmdb true a) (selectDevice s)).bind fun _ s =>
    (transferAll bytes s).bind fun _ s =>
      .returned () (deselectDevice s)

/-- The loop of REG_POLL: `remaining` polls are left, `flags` is the last byte read (R146). -/
def pollLoop (a : Addr7) (mask : Byte) : Nat → Byte → State → Ran (Bool × Byte)
  | 0, flags, s => .returned (false, flags) s
  | remaining + 1, _, s =>
    (regRead a s).bind fun flags s =>
      if maskedNonzero flags mask then .returned (true, flags) s
      else
        let s := delay .poll s
        pollLoop a mask remaining flags { s with remaining := some remaining }

/-- The pseudocode of REG_POLL (R146); `remaining` exists only while it runs (spec/10_state.md R33). -/
def regPoll (a : Addr7) (mask : Byte) (budget : Nat) (s : State) : Ran (Bool × Byte) :=
  (pollLoop a mask budget 0x00#8 { s with remaining := some budget }).bind fun r s =>
    .returned r { s with remaining := none }

/-! ### Meanings -/

/-- SPI_SELECT (R140). -/
def execSpiSelect (s : State) : Outcome := issueOutsideFrame selectDevice s

/-- SPI_DESELECT (R141). -/
def execSpiDeselect (s : State) : Outcome := issueInsideFrame deselectDevice s

/-- SPI_XFER (R142). -/
def execSpiXfer (out : Byte) (s : State) : Outcome :=
  issueInsideFrame (fun s =>
    ((transferByte out s).bind fun v s => .returned (.byte v) s).settle) s

/-- REG_READ (R143). -/
def execRegRead (address : Byte) (s : State) : Outcome :=
  issueOutsideFrame (fun s =>
    ((regRead (radioAddress address) s).bind fun v s => .returned (.byte v) s).settle) s

/-- REG_WRITE (R144). -/
def execRegWrite (address value : Byte) (s : State) : Outcome :=
  issueOutsideFrame (fun s =>
    ((regWrite (radioAddress address) value s).bind fun _ s => .returned .none s).settle) s

/-- REG_BURST_WRITE (R145). -/
def execRegBurstWrite (startAddress : Byte) (bytes : List Byte) (s : State) : Outcome :=
  issueOutsideFrame (fun s =>
    ((burstWrite (radioAddress startAddress) bytes s).bind fun _ s => .returned .none s).settle) s

/-- REG_POLL (R146). -/
def execRegPoll (address mask : Byte) (budget : Nat) (s : State) : Outcome :=
  issueOutsideFrame (fun s =>
    ((regPoll (radioAddress address) mask budget s).bind fun r s =>
      .returned (.polled r.1 r.2) s).settle) s

end Sys2Proof.Machine
end

