-- ==== Sys2Proof/Machine/Radio.lean ====
section
/-! DEFINITION. The radio driver, a documented client of the SPI register-access layer (spec/42_client_sequences.md
R176 to R183, R186). -/

namespace Sys2Proof.Machine

/-- The pseudocode of RADIO_SET_MODE (R177). -/
def setMode (m : RadioMode) (s : State) : Ran Unit :=
  regWrite s.params.regOpMode (opmode s.params m) s

/-- RadioResetPulse (R186, D29). -/
def radioResetPulse (s : State) : State :=
  let s := delay .rstLow (memWrite .radioRst s.params.rstAssert s)
  delay .rstWait (memWrite .radioRst s.params.rstRelease s)

/-- A list of register writes, in order: CONFIG_BLOCK, the frequency bytes (R179). -/
def regWrites : List (Addr7 × Byte) → State → Ran Unit
  | [], s => .returned () s
  | w :: ws, s => (regWrite w.1 w.2 s).bind fun _ s => regWrites ws s

/-- The three frequency registers, MSB, middle, LSB (R179, R180). -/
def frequencyWrites (p : Params) (f : Nat) : List (Addr7 × Byte) :=
  [(p.regFrfMsb, frfMsb (frf f)), (p.regFrfMid, frfMid (frf f)), (p.regFrfLsb, frfLsb (frf f))]

/-- The configuration that follows a matching identification (R179). -/
def radioConfigure (f : Nat) (s : State) : Ran Result :=
  (setMode .sleep s).bind fun _ s =>
    (regWrites (frequencyWrites s.params f) s).bind fun _ s =>
      (regWrites s.params.configBlock s).bind fun _ s =>
        (regWrite s.params.regIrqFlags s.params.irqClearAll s).bind fun _ s =>
          (setMode .standby s).bind fun _ s =>
            .returned .success (delay .radioSettle s)

/-- The pseudocode of RADIO_INIT (R179). -/
def radioInit (f : Nat) (s : State) : Ran Result :=
  let s := if s.params.hasReset then radioResetPulse s else s
  (regRead s.params.regVersion s).bind fun id s =>
    if id = Config.radioIdExpected then radioConfigure f s
    else .returned (.failed .idMismatch) s

/-- The set-up of RADIO_SEND, up to and with Transmit mode (R181, R251). -/
def sendSetup (payload : List Byte) (s : State) : Ran Unit :=
  (setMode .standby s).bind fun _ s =>
    (regWrite s.params.regFifoAddrPtr s.params.txBase s).bind fun _ s =>
      (burstWrite s.params.regFifo payload s).bind fun _ s =>
        (regWrite s.params.regPayloadLength (BitVec.ofNat 8 payload.length) s).bind fun _ s =>
          (regWrite s.params.regIrqFlags s.params.irqClearAll s).bind fun _ s =>
            (regWrite s.params.regDioMapping s.params.dioTxDoneMap s).bind fun _ s =>
              setMode .transmit s

/-- The end of RADIO_SEND, after the poll (R181, R205). -/
def sendFinish (found : Bool) (s : State) : Ran Result :=
  if found then
    (regWrite s.params.regIrqFlags s.params.irqClearTxDone s).bind fun _ s =>
      (setMode .standby s).bind fun _ s => .returned .success s
  else
    (setMode .standby s).bind fun _ s => .returned (.failed .txTimeout) s

/-- The pseudocode of RADIO_SEND after the length check (R181); `payload` is the `length` bytes to send. -/
def radioSend (payload : List Byte) (s : State) : Ran Result :=
  (sendSetup payload s).bind fun _ s =>
    (regPoll s.params.regIrqFlags s.params.txDoneMask s.params.nPoll s).bind fun r s =>
      sendFinish r.1 s

/-- The legal payload lengths, LEN_MIN to LEN_MAX (R181, R183). -/
def lengthLegal (length : Nat) : Bool :=
  decide (Config.lenMin ≤ length) && decide (length ≤ Config.lenMax)

/-! ### Meanings -/

/-- RADIO_SET_MODE (R177). -/
def execRadioSetMode (mode : RadioMode) (s : State) : Outcome :=
  issueOutsideFrame (fun s =>
    ((setMode mode s).bind fun _ s => .returned .none s).settle) s

/-- RADIO_INIT (R179): a frequency whose value does not fit 24 bits is refused (R180; log 13). -/
def execRadioInit (targetFrequencyHz : Nat) (s : State) : Outcome :=
  if Config.frequencyMax < targetFrequencyHz then .refused .frequencyOutOfRange
  else issueOutsideFrame (fun s => (radioInit targetFrequencyHz s).settle) s

/-- RADIO_SEND (R181): an illegal length fails before everything (R206, R208); a payload of fewer than `length`
bytes is refused (R183; log 13). -/
def execRadioSend (payload : List Byte) (length : Nat) (s : State) : Outcome :=
  if lengthLegal length = false then .next (failOp .invalidLength (startOp s))
  else if payload.length < length then .refused .payloadTooShort
  else issueOutsideFrame (fun s => (radioSend (payload.take length) s).settle) s

end Sys2Proof.Machine
end

