-- ==== Sys2Proof/Machine/Sensor.lean ====
section
/-! DEFINITION. The sensor protocol driver, a documented client of the I2C master (spec/42_client_sequences.md R171
to R175, R184). -/

namespace Sys2Proof.Machine

/-- The sensor's write-address and read-address bytes (R171). -/
def sensorWriteAddress : Byte := addrb Config.sensorAddr false
def sensorReadAddress : Byte := addrb Config.sensorAddr true

/-- Write the bytes one after another until one is not acknowledged; true iff all were (R172). -/
def sendAll : List Byte → State → Bool × State
  | [], s => (true, s)
  | b :: bs, s =>
    let r := writeByte b s
    if r.1 then sendAll bs r.2 else (false, r.2)

/-- A written transaction: start, the bytes until one is not acknowledged, stop (R172, R173, D22; R202). -/
def writeTransaction (bytes : List Byte) (s : State) : Bool × State :=
  let r := sendAll bytes (startCondition s)
  (r.1, stopCondition r.2)

/-- The pseudocode of SENSOR_INIT (R172). -/
def sensorInit (s : State) : State :=
  let r := writeTransaction (sensorWriteAddress :: Config.sensorInitCommand) s
  if r.1 then returnOp .success (delay .sensorSettle r.2)
  else failOp .ackFail r.2

/-- Convert (R174). -/
def convert (b1 b2 b3 b4 b5 : Byte) : Result :=
  .reading (trunc16 (temperatureScale (tempRaw b3 b4 b5).toNat))
    (trunc16 (humidityScale (humRaw b1 b2 b3).toNat))

/-- The response frame after the read address: five bytes acknowledged, the sixth not, then the stop; then the busy
bit is tested (R173). -/
def readResponse (s : State) : State :=
  let r0 := readByte true s
  let r1 := readByte true r0.2
  let r2 := readByte true r1.2
  let r3 := readByte true r2.2
  let r4 := readByte true r3.2
  let r5 := readByte false r4.2
  let s := stopCondition r5.2
  if busyOf r0.1 then failOp .sensorBusy s
  else returnOp (convert r1.1 r2.1 r3.1 r4.1 r5.1) s

/-- The pseudocode of SENSOR_MEASURE (R173). -/
def sensorMeasure (s : State) : State :=
  let r := writeTransaction (sensorWriteAddress :: Config.sensorTriggerCommand) s
  if r.1 then
    let s := startCondition (delay .sensorConv r.2)
    let a := writeByte sensorReadAddress s
    if a.1 then readResponse a.2
    else failOp .ackFail (stopCondition a.2)
  else failOp .ackFail r.2

/-! ### Meanings -/

/-- SENSOR_INIT (R172): the bus must be idle. -/
def execSensorInit (s : State) : Outcome := issueI2c idleOnly sensorInit s

/-- SENSOR_MEASURE (R173): the bus must be idle. -/
def execSensorMeasure (s : State) : Outcome := issueI2c idleOnly sensorMeasure s

end Sys2Proof.Machine
end

