-- ==== Sys2Proof/Machine/Dispatch.lean ====
section
/-! DEFINITION. Which meaning each operation has. -/

namespace Sys2Proof.Machine

def exec (i : Instr) (s : State) : Host.Outcome State Fault Refusal :=
  match i with
  | .i2cInit => Sys2Proof.Machine.execI2cInit s
  | .i2cStart => Sys2Proof.Machine.execI2cStart s
  | .i2cStop => Sys2Proof.Machine.execI2cStop s
  | .i2cWriteByte value => Sys2Proof.Machine.execI2cWriteByte value s
  | .i2cReadByte sendAck => Sys2Proof.Machine.execI2cReadByte sendAck s
  | .i2cScan => Sys2Proof.Machine.execI2cScan s
  | .spiSelect => Sys2Proof.Machine.execSpiSelect s
  | .spiDeselect => Sys2Proof.Machine.execSpiDeselect s
  | .spiXfer out => Sys2Proof.Machine.execSpiXfer out s
  | .regRead address => Sys2Proof.Machine.execRegRead address s
  | .regWrite address value => Sys2Proof.Machine.execRegWrite address value s
  | .regBurstWrite startAddress bytes => Sys2Proof.Machine.execRegBurstWrite startAddress bytes s
  | .regPoll address mask budget => Sys2Proof.Machine.execRegPoll address mask budget s
  | .sensorInit => Sys2Proof.Machine.execSensorInit s
  | .sensorMeasure => Sys2Proof.Machine.execSensorMeasure s
  | .radioSetMode mode => Sys2Proof.Machine.execRadioSetMode mode s
  | .radioInit targetFrequencyHz => Sys2Proof.Machine.execRadioInit targetFrequencyHz s
  | .radioSend payload length => Sys2Proof.Machine.execRadioSend payload length s

end Sys2Proof.Machine
end

