-- ==== Sys2Proof/Machine/Step.lean ====
section
/-! DEFINITION. One step of the machine, and where it fetches its next operation. -/

namespace Sys2Proof.Machine

/-- One step: a poll that never ends reads the status once more (spec/70_reset_and_hazards.md R243); else the next
operation the caller has issued runs from start to end (spec/10_state.md R27); else the block waits for the caller
(spec/60_exceptions.md R220). -/
def step (s : State) : Host.Outcome State Fault Refusal :=
  if s.hung then .next (hungRead s)
  else
    match fetchOp s with
    | none => .next s
    | some (w, s') =>
      match decode w with
      | .ok i => exec i s'
      | .error e => .refused (.undecodable e)

/-- The caller has issued the operation whose word the opcode table numbers `w` (nbits bits), as the next one, and
no poll is unfinished, so the next step runs it (log 9). -/
def State.withFetchWord (s : State) (nbits w : Nat) : State :=
  { s with queue := tableOpWord nbits w :: s.queue, hung := false }

end Sys2Proof.Machine
end

