-- ==== Sys2Proof/Safety.lean ====
section
/-! DEFINITION. The terms in which claims are made: levels of the two-wire lines and the words they make, the events
of a line sequence and of a frame, the invariant of the machine, and the wire rules of a trace. -/

namespace Sys2Proof.Machine

/-! ### The two-wire side -/

/-- The three fields of a line word, written `scl sda oe` in spec/95_test_vectors.md. -/
structure Levels where
  scl : Bool
  sda : Bool
  oe  : Bool
  deriving DecidableEq, Repr

/-- LWF of the three levels (spec/30_encoding.md R71). -/
def Levels.word (p : Params) (l : Levels) : HostWord := lwf p l.scl l.sda l.oe

/-- The idle state, clock high, data high, line driven (spec/40_i2c_master.md R102). -/
def Levels.idle : Levels := ⟨true, true, true⟩

/-- The events of a list of line changes: each writes its word and waits (spec/40_i2c_master.md R100, R108). -/
def lineEvents (p : Params) (ls : List Levels) : List Event :=
  ls.flatMap fun l => [.memWrite .i2cW (l.word p), .delay .settle]

/-- The word a sample of a released line reads under an answer (spec/10_state.md R22, R23). -/
def releasedWord (p : Params) (a : ResponderAnswer) : HostWord :=
  setBit (cutToWidth p a.other) p.sdaInBit (!a.pull)

/-- The words of I2C_START, from a previous `scl` and `oe` (spec/40_i2c_master.md R110). -/
def startLevels (scl oe : Bool) : List Levels :=
  [⟨scl, true, oe⟩, ⟨scl, true, true⟩, ⟨true, true, true⟩, ⟨true, false, true⟩, ⟨false, false, true⟩]

/-- The words of I2C_STOP, from a previous `scl` and `oe` (spec/40_i2c_master.md R110). -/
def stopLevels (scl oe : Bool) : List Levels :=
  [⟨scl, false, oe⟩, ⟨scl, false, true⟩, ⟨true, false, true⟩, ⟨true, true, true⟩]

/-- The words of one data bit of a written byte (spec/40_i2c_master.md R110). -/
def sentBitLevels (b : Bool) : List Levels :=
  [⟨false, b, true⟩, ⟨true, b, true⟩, ⟨false, b, true⟩]

/-- The words of I2C_WRITE_BYTE before its sample, from a previous data bit (spec/40_i2c_master.md R110). -/
def writeLevels (sda : Bool) (value : Byte) : List Levels :=
  [⟨false, sda, true⟩] ++
    [7, 6, 5, 4, 3, 2, 1, 0].flatMap (fun i => sentBitLevels (value.getLsbD i)) ++
    [⟨false, value.getLsbD 0, false⟩, ⟨true, value.getLsbD 0, false⟩]

/-- The events of I2C_WRITE_BYTE when the environment answers `a` (spec/40_i2c_master.md R105, R110). -/
def writeEvents (p : Params) (sda : Bool) (value : Byte) (a : ResponderAnswer) : List Event :=
  lineEvents p (writeLevels sda value) ++ [.memRead .i2cR (releasedWord p a)] ++
    lineEvents p [⟨false, value.getLsbD 0, false⟩]

/-- The events of one data bit of a read byte (spec/40_i2c_master.md R106, R110). -/
def readBitEvents (p : Params) (sda : Bool) (a : ResponderAnswer) : List Event :=
  lineEvents p [⟨true, sda, false⟩] ++ [.memRead .i2cR (releasedWord p a)] ++
    lineEvents p [⟨false, sda, false⟩]

/-- The words of the acknowledge period of a read byte (spec/40_i2c_master.md R106, R110). -/
def ackLevels (sendAck : Bool) : List Levels :=
  if sendAck then
    [⟨false, false, false⟩, ⟨false, false, true⟩, ⟨true, false, true⟩, ⟨false, false, true⟩]
  else [⟨false, true, false⟩, ⟨true, true, false⟩, ⟨false, true, false⟩]

/-- The levels I2C_READ_BYTE leaves (spec/40_i2c_master.md R106, R110). -/
def readPost (sendAck : Bool) : Levels :=
  if sendAck then ⟨false, false, true⟩ else ⟨false, true, false⟩

/-- The events of I2C_READ_BYTE when the environment answers `as` to its samples, from a previous data bit
(spec/40_i2c_master.md R106, R110). -/
def readEvents (p : Params) (sda sendAck : Bool) (as : List ResponderAnswer) : List Event :=
  lineEvents p [⟨false, sda, false⟩] ++ as.flatMap (readBitEvents p sda) ++
    lineEvents p (ackLevels sendAck)

/-- The events of written bytes, each with its answer, from a previous data bit. -/
def writtenEvents (p : Params) : Bool → List (Byte × ResponderAnswer) → List Event
  | _, [] => []
  | sda, w :: ws => writeEvents p sda w.1 w.2 ++ writtenEvents p (w.1.getLsbD 0) ws

/-- The events of a written transaction from the idle bus: start, bytes, stop (spec/30_encoding.md R76). -/
def transactionEvents (p : Params) (ws : List (Byte × ResponderAnswer)) : List Event :=
  lineEvents p (startLevels true true) ++ writtenEvents p false ws ++ lineEvents p (stopLevels false false)

/-- `as` are answers to the first bytes of `bytes`, up to and including the first that is not acknowledged, or to
all of them (spec/42_client_sequences.md R172). -/
def answersUpToNack : List Byte → List ResponderAnswer → Bool
  | [], [] => true
  | _ :: bs, a :: as => if a.pull then answersUpToNack bs as else as.isEmpty
  | _, _ => false

/-! ### The serial side -/

/-- The words a done-poll reads: up to and including the first with the done bit (spec/41_spi_register_access.md R142). -/
def polledWords (p : Params) : List HostWord → List HostWord
  | [] => []
  | w :: ws => if doneOf p w then [w] else w :: polledWords p ws

/-- The engine completes the transfer it answers so: some status read sees the done bit
(spec/70_reset_and_hazards.md R243). -/
def completes (p : Params) (a : EngineAnswer) : Bool := a.status.any (doneOf p)

/-- The events of one exchange: load, start, poll (spec/41_spi_register_access.md R142). -/
def startedEvents (p : Params) (out : Byte) (a : EngineAnswer) : List Event :=
  [.memWrite .spiMosi out.toNat, .memWrite .spiCtrl (ctrlw p)] ++
    (polledWords p a.status).map (.memRead .spiStatus)

/-- The events of one completed exchange (spec/41_spi_register_access.md R142). -/
def exchangeEvents (p : Params) (out : Byte) (a : EngineAnswer) : List Event :=
  startedEvents p out a ++ [.memRead .spiMiso a.miso]

/-- The events of one frame, each byte sent with the engine's answer (spec/30_encoding.md R78). -/
def frameEvents (p : Params) (sent : List (Byte × EngineAnswer)) : List Event :=
  [.memWrite .spiCs p.csSelect, .delay .cs] ++ sent.flatMap (fun x => exchangeEvents p x.1 x.2) ++
    [.memWrite .spiCs p.csDeselect, .delay .cs]

/-- The bytes of several frames, each with its answer, the answers taken in order. -/
def dealt : List (List Byte) → List EngineAnswer → List (List (Byte × EngineAnswer))
  | [], _ => []
  | f :: fs, as => f.zip as :: dealt fs (as.drop f.length)

/-- The events of frames, one after another. -/
def framesEvents (p : Params) (fs : List (List (Byte × EngineAnswer))) : List Event :=
  fs.flatMap (frameEvents p)

/-- The events of REG_POLL's unsuccessful polls: each a FRAME-R and then the poll delay
(spec/41_spi_register_access.md R146). -/
def missedEvents (p : Params) (fs : List (List (Byte × EngineAnswer))) : List Event :=
  fs.flatMap fun f => frameEvents p f ++ [.delay .poll]

/-- The bytes of FRAME-R and FRAME-W (spec/30_encoding.md R78). -/
def readFrame (a : Addr7) : List Byte := [cmdb false a, 0x00#8]
def writeFrame (a : Addr7) (v : Byte) : List Byte := [cmdb true a, v]

/-- The SPI half after a completed exchange of `out`. -/
def SpiLayer.exchanged (p : Params) (out : Byte) (a : EngineAnswer) (l : SpiLayer) : SpiLayer :=
  { l with
    mosi := out.toNat
    ctrl := ctrlw p
    status := (polledWords p a.status).getLastD l.status
    miso := a.miso }

/-- The SPI half after a completed frame. -/
def SpiLayer.framed (p : Params) (sent : List (Byte × EngineAnswer)) (l : SpiLayer) : SpiLayer :=
  { sent.foldl (fun l x => l.exchanged p x.1 x.2) l with cs := p.csDeselect, inFrame := false }

/-- The SPI half after completed frames. -/
def SpiLayer.framedAll (p : Params) (fs : List (List (Byte × EngineAnswer))) (l : SpiLayer) : SpiLayer :=
  fs.foldl (fun l f => l.framed p f) l

/-- `as` are answers the engine gives a run from a state that lists `listed`: the listed ones, as far as either list
goes (spec/20_memory.md R59; log 5). -/
def answersListed (as listed : List EngineAnswer) : Prop :=
  as.take listed.length = listed.take as.length

/-- The operation never returns: it leaves a transfer whose poll does not end, and after every number of further steps
the machine is still there, without a result (spec/70_reset_and_hazards.md R243). -/
def NeverReturns (i : Instr) (s : State) : Prop :=
  ∃ t, exec i s = .next t ∧ t.hung = true ∧ t.result = .none ∧
    ∀ k, ∃ u, core.run k t = .next u ∧ u.hung = true ∧ u.result = .none ∧ u.queue = t.queue

/-- One poll of REG_POLL as the environment answers it: the header's and the flags' exchange. -/
abbrev PollAnswer := EngineAnswer × EngineAnswer

/-- The flags byte a poll reads. -/
def PollAnswer.flags (a : PollAnswer) : Byte := wordToByte a.2.miso

/-- Both exchanges of a poll complete. -/
def PollAnswer.complete (p : Params) (a : PollAnswer) : Bool := completes p a.1 && completes p a.2

/-- The engine's answers of polls, in order. -/
def pollAnswers (polls : List PollAnswer) : List EngineAnswer := polls.flatMap fun a => [a.1, a.2]

/-- The frames of polls of one register. -/
def pollFrames (addr : Addr7) (polls : List PollAnswer) : List (List (Byte × EngineAnswer)) :=
  polls.map fun a => (readFrame addr).zip [a.1, a.2]

/-! ### The frames of the radio driver -/

/-- The frames of RADIO_INIT after a matching identification, its own included (spec/42_client_sequences.md R179). -/
def radioInitFrames (p : Params) (f : Nat) : List (List Byte) :=
  [readFrame p.regVersion, writeFrame p.regOpMode (p.lrBit ||| p.modeSleep),
    writeFrame p.regFrfMsb (frfMsb (frf f)), writeFrame p.regFrfMid (frfMid (frf f)),
    writeFrame p.regFrfLsb (frfLsb (frf f))] ++
    p.configBlock.map (fun w => writeFrame w.1 w.2) ++
    [writeFrame p.regIrqFlags p.irqClearAll, writeFrame p.regOpMode (p.lrBit ||| p.modeStandby)]

/-- The events of the reset pulse, if there is a reset line (spec/42_client_sequences.md R186). -/
def resetPulseEvents (p : Params) : List Event :=
  if p.hasReset then
    [.memWrite .radioRst p.rstAssert, .delay .rstLow, .memWrite .radioRst p.rstRelease, .delay .rstWait]
  else []

/-- RADIO_RST after the reset pulse, if there is a reset line. -/
def SpiLayer.pulsed (p : Params) (l : SpiLayer) : SpiLayer :=
  if p.hasReset then { l with radioRst := p.rstRelease } else l

/-- The set-up frames of RADIO_SEND (spec/42_client_sequences.md R181). -/
def sendSetupFrames (p : Params) (payload : List Byte) : List (List Byte) :=
  [writeFrame p.regOpMode (p.lrBit ||| p.modeStandby), writeFrame p.regFifoAddrPtr p.txBase,
    cmdb true p.regFifo :: payload, writeFrame p.regPayloadLength (BitVec.ofNat 8 payload.length),
    writeFrame p.regIrqFlags p.irqClearAll, writeFrame p.regDioMapping p.dioTxDoneMap,
    writeFrame p.regOpMode (p.lrBit ||| p.modeTransmit)]

/-- The frames that end RADIO_SEND: on success the flag clear and Standby, on timeout Standby (R181). -/
def sendFinishFrames (p : Params) (found : Bool) : List (List Byte) :=
  (if found then [writeFrame p.regIrqFlags p.irqClearTxDone] else []) ++
    [writeFrame p.regOpMode (p.lrBit ||| p.modeStandby)]

/-! ### The invariant -/

/-- The line word of each phase: the post-states of spec/40_i2c_master.md R110. -/
def phaseLine (p : Params) (lw : HostWord) : I2cPhase → Prop
  | .powerOn => True
  | .idle => lw = Levels.idle.word p
  | .started => lw = (⟨false, false, true⟩ : Levels).word p
  | .addressed read => lw = (⟨false, read, false⟩ : Levels).word p
  | .written => ∃ b, lw = (⟨false, b, false⟩ : Levels).word p
  | .readAcked => lw = (⟨false, false, true⟩ : Levels).word p
  | .readNacked => lw = (⟨false, true, false⟩ : Levels).word p

/-- The line invariant: the bookkeeping agrees with i2c_ready, the line word is the post-state of the last
operation (so its other bits are 0, spec/10_state.md R20), and I2C_W equals it (R21). -/
structure LineInv (s : State) : Prop where
  readyIff  : s.i2c.ready = true ↔ s.i2c.phase ≠ .powerOn
  line      : phaseLine s.params s.i2c.lw s.i2c.phase
  flushed   : s.i2c.ready = true → s.i2c.i2cW = s.i2c.lw

/-- The frame invariant: SPI_CS holds the select value while a frame is open (spec/10_state.md R24, R38), a poll
that never ends is inside a frame, and REG_POLL's counter is live only inside one that hangs (R33). -/
structure FrameInv (s : State) : Prop where
  selected  : s.spi.inFrame = true → s.spi.cs = s.params.csSelect
  hungOpen  : s.hung = true → s.spi.inFrame = true
  notPolling : s.hung = false → s.remaining = none

/-- Outside a frame SPI_CS holds the deselect value: one of the launch premises of R236, which the operations keep. -/
def ChipSelectReleased (s : State) : Prop := s.spi.inFrame = false → s.spi.cs = s.params.csDeselect

/-- The duties of the host before the first operation (spec/70_reset_and_hazards.md R236), as far as a register shows
them; log 23 lists them all. State.reset does not promise them: a statement that needs one takes it as a hypothesis. -/
structure LaunchPremises (s : State) : Prop where
  /-- The eight registers exist, laid out as the parameters say. -/
  registers : s.params.wf = true
  /-- The two-wire bus has pull-ups: a line released and not pulled is high. -/
  pullUps : ∀ (sda : Bool) (history : List Event),
    sdaLevel false sda false (Config.contendedLevel history) = true
  /-- The serial engine is idle: no transfer has been started that has not ended. -/
  engineIdle : s.hung = false ∧ s.remaining = none
  /-- No frame is open and chip-select is released. -/
  released : s.spi.inFrame = false ∧ s.spi.cs = s.params.csDeselect

/-- The value of a register the block writes. -/
def writtenReg (s : State) : WriteReg → HostWord
  | .i2cW => s.i2c.i2cW
  | .spiCs => s.spi.cs
  | .spiMosi => s.spi.mosi
  | .spiCtrl => s.spi.ctrl
  | .radioRst => s.spi.radioRst

/-- The last value the trace writes to a register. -/
def lastWrite (r : WriteReg) (tr : List Event) : Option HostWord :=
  tr.foldl (fun acc e =>
    match e with
    | .memWrite r' v => if r' = r then some v else acc
    | _ => acc) none

/-- Every register the block writes holds the last value written to it (spec/20_memory.md R63). For SPI_CTRL this is
the word the block wrote; whether its `start` clears itself is not in the source (spec/10_state.md R26; log 28). -/
def RegistersFollowTrace (s : State) : Prop :=
  ∀ r v, lastWrite r s.trace = some v → writtenReg s r = v

/-! ### The wire rules of a trace -/

/-- How many of the three fields of two line words differ. -/
def fieldsChanged (p : Params) (v w : HostWord) : Nat :=
  [LineField.scl, .sda, .oe].countP (fun f => lineField p f v != lineField p f w)

/-- The master's changes of the data line (its driven level or its enable) while the clock is high: the number of the
line change, counted on from `n`, and the levels after it; `w` is the word in I2C_W before the events
(spec/40_i2c_master.md R112 item 1). -/
def changesWhileHigh (p : Params) : Nat → HostWord → List Event → List (Nat × Levels)
  | _, _, [] => []
  | n, w, .memWrite .i2cW v :: es =>
    let rest := changesWhileHigh p (n + 1) v es
    if lineField p .scl w && lineField p .scl v &&
        (lineField p .sda w != lineField p .sda v || lineField p .oe w != lineField p .oe v)
    then (n + 1, ⟨true, lineField p .sda v, lineField p .oe v⟩) :: rest
    else rest
  | n, w, _ :: es => changesWhileHigh p n w es

/-- Every sample is taken with the clock high and the line released (spec/40_i2c_master.md R112 item 2). -/
def samplesReleasedHigh (p : Params) : HostWord → List Event → Bool
  | _, [] => true
  | _, .memWrite .i2cW v :: es => samplesReleasedHigh p v es
  | w, .memRead .i2cR _ :: es =>
    lineField p .scl w && !lineField p .oe w && samplesReleasedHigh p w es
  | w, _ :: es => samplesReleasedHigh p w es

/-- Between two successive writes to I2C_W at most one field differs (spec/40_i2c_master.md R112 item 3). -/
def oneFieldAtATime (p : Params) : HostWord → List Event → Bool
  | _, [] => true
  | w, .memWrite .i2cW v :: es => decide (fieldsChanged p w v ≤ 1) && oneFieldAtATime p v es
  | w, _ :: es => oneFieldAtATime p w es

/-! ### Counting -/

/-- Line changes of a trace: the writes to I2C_W that are followed by the settle delay
(spec/70_reset_and_hazards.md R250). -/
def lineChanges (es : List Event) : Nat := es.countP (· == .delay .settle)

/-- Samples of a trace. -/
def samples (es : List Event) : Nat :=
  es.countP fun e => match e with
    | .memRead .i2cR _ => true
    | _ => false

/-- The delay total of a trace, in nanoseconds (spec/70_reset_and_hazards.md R250). -/
def delayTotal (p : Params) (es : List Event) : Nat :=
  (es.map fun e => match e with
    | .delay t => p.nanoseconds t
    | _ => 0).sum

end Sys2Proof.Machine
end

