-- ==== Sys2Proof/Certificates/Slice0/Obligations.lean ====
section
/-! DEFINITION. The statements for the provers, from the numbered rules of spec/. The power-on values, the oracles and
the parameters are never fixed: every statement holds for every value of them. -/

open Sys2Proof Sys2Proof.Machine

/-! ### Encoding (spec/30_encoding.md) -/

/-- R82: no bit of an operation word is dropped: every well-formed operation decodes from its word. -/
def Obligations.DecodeOfEncodeIsIdentity : Prop :=
  ∀ i : Instr, i.wf = true → decode (encode i) = .ok i

/-- R82: every word has one meaning: a word that decodes is the word of the operation it decodes to, and that
operation is well formed. -/
def Obligations.EncodeOfDecodeIsIdentity : Prop :=
  ∀ (w : OpWord) (i : Instr), decode w = .ok i → i.wf = true ∧ encode i = w

/-- R82: operation words written out bit by bit from the table decode to the operations they stand for
(spec/95_test_vectors.md V28). -/
def Obligations.WrittenOutWordsDecode : Prop :=
  decode ⟨[false, false, false, false, false], []⟩ = .ok .i2cInit ∧
  decode ⟨[false, false, false, true, true, false, true, true, true, false, false, false, false], []⟩ =
    .ok (.i2cWriteByte 0x70#8) ∧
  decode ⟨[false, false, true, false, false, true], []⟩ = .ok (.i2cReadByte true) ∧
  decode ⟨[false, true, true, false, false, false, false, false, false, false, false, true, true, false, false,
    false, false, false, false, true], []⟩ = .ok (.regWrite 0x01#8 0x81#8) ∧
  decode ⟨[false, true, true, false, true, false, false, false, false, false, false, false, false, false, false,
    false, false, false, false, false, false, false, false, false, false, false, true, false], [0x48#8, 0x69#8]⟩ =
    .ok (.regBurstWrite 0x00#8 [0x48#8, 0x69#8]) ∧
  decode ⟨[true, false, false, false, false], []⟩ = .ok .sensorInit ∧
  decode ⟨[true, false, false, true, false, false, true], []⟩ = .ok (.radioSetMode .standby) ∧
  decode ⟨[true, false, false, true, false, true, true], []⟩ = .error .noSuchMode

/-- R82, R83 item 4: a word whose `op` is 00110, 00111, 01111 or 10101 to 11111, or whose mode field is 11, names no
operation, and the step that meets it is refused by name. -/
def Obligations.UnassignedWordsAreRefused : Prop :=
  ∀ (s : State) (w : OpWord) (rest : List OpWord), s.hung = false → s.queue = w :: rest →
    (∀ op, 5 ≤ w.bits.length → numOf (w.bits.take 5) = op →
      (op = 6 ∨ op = 7 ∨ op = 15 ∨ 21 ≤ op) →
      step s = .refused (.undecodable (.noSuchOperation op))) ∧
    (w = ⟨[true, false, false, true, false, true, true], []⟩ →
      step s = .refused (.undecodable .noSuchMode))

/-- The opcode table's numbering: the number of an operation word whose trailing bytes are zero, at its row's
width, is read back as the operation. -/
def Obligations.TableNumbersDecode : Prop :=
  ∀ i : Instr, i.wf = true → i.trailingBytes = List.replicate i.trailingBytes.length 0#8 →
    decodeTableWord (encode i).bits.length (numOf (encode i).bits) = some i

/-! ### Formats (spec/30_encoding.md, spec/10_state.md) -/

/-- R71: LWF is three one-bit fields at their positions in a word of W_WIDTH bits, every other bit 0. -/
def Obligations.LineWordFormat : Prop :=
  ∀ (p : Params) (a b c : Bool), p.layoutWf = true →
    lwf p a b c = ((a.toNat <<< p.sclBit) ||| (b.toNat <<< p.sdaBit) ||| (c.toNat <<< p.oeBit)) ∧
    lwf p a b c < 2 ^ p.wWidth ∧
    (lwf p a b c).testBit p.sclBit = a ∧ (lwf p a b c).testBit p.sdaBit = b ∧
    (lwf p a b c).testBit p.oeBit = c ∧
    ∀ i, i ≠ p.sclBit → i ≠ p.sdaBit → i ≠ p.oeBit → (lwf p a b c).testBit i = false

/-- R77: bit 7 of the command byte is the direction, bits 6:0 the address; the rule's two examples. That an operand's
bit 7 is dropped is the spec's decision D16 (R86; log 14), not the source's. -/
def Obligations.CommandByteFormat : Prop :=
  (∀ (w : Bool) (a : Addr7), (cmdb w a).getLsbD 7 = w ∧ (cmdb w a).setWidth 7 = a) ∧
  (∀ operand : Byte, cmdb false (radioAddress operand) = operand &&& 0x7F#8 ∧
    cmdb true (radioAddress operand) = operand ||| 0x80#8) ∧
  cmdb false 0x42#7 = 0x42#8 ∧ cmdb true 0x01#7 = 0x81#8

/-- R79: CTRLW has start = 1 and length = 8. -/
def Obligations.ControlWordFormat : Prop :=
  ∀ p : Params, p.ctrlWf = true →
    ctrlw p = ((1 <<< p.ctrlStartBit) ||| (8 <<< p.ctrlLenLsb)) ∧
    (ctrlw p).testBit p.ctrlStartBit = true ∧
    (ctrlw p >>> p.ctrlLenLsb) % 2 ^ p.ctrlLenWidth = 8

/-- R180: the frequency value is the nearest integer to `f * 2^19 / 32 000 000`, there is never a tie, and it fits
24 bits exactly up to 1 023 999 969 Hz; RADIO_INIT of a larger frequency is refused; the source's example. -/
def Obligations.FrequencyValueRoundsToNearest : Prop :=
  (∀ f : Nat, frf f = (f * 2 ^ 19 + 16000000) / 32000000 ∧
    f * 2 ^ 19 < frf f * 32000000 + 16000000 ∧ frf f * 32000000 < f * 2 ^ 19 + 16000000 ∧
    (frf f < 2 ^ 24 ↔ f ≤ 1023999969)) ∧
  (∀ (s : State) (f : Nat), 1023999969 < f → exec (.radioInit f) s = .refused .frequencyOutOfRange) ∧
  frf 1023999970 = 0x1000000 ∧
  frf 915000000 = 14991360 ∧ 14991360 = 0xE4C000 ∧ 915000000 * 2 ^ 19 % 32000000 = 0

/-- R80: the three bytes of the frequency value, MSB, middle, LSB. -/
def Obligations.FrequencyTripleFormat : Prop :=
  (∀ v : Nat, v < 2 ^ 24 → ((frfMsb v ++ frfMid v : BitVec 16) ++ frfLsb v : BitVec 24).toNat = v) ∧
  (frfMsb (frf 915000000), frfMid (frf 915000000), frfLsb (frf 915000000)) = (0xE4#8, 0xC0#8, 0x00#8)

/-- R87: the operating-mode byte is LR_BIT | MODE_m. Derived from R87's constraints on the parameters: it keeps the
fixed high bit, the mode code beside it, and tells the three modes apart. -/
def Obligations.OperatingModeByte : Prop :=
  ∀ p : Params,
    opmode p .sleep = p.lrBit ||| p.modeSleep ∧ opmode p .standby = p.lrBit ||| p.modeStandby ∧
    opmode p .transmit = p.lrBit ||| p.modeTransmit ∧
    (p.modesWf = true → ∀ m m' : RadioMode,
      opmode p m &&& p.lrBit = p.lrBit ∧ opmode p m &&& ~~~p.lrBit = modeCode p m ∧
      (opmode p m = opmode p m' → m = m'))

/-- R174, with the field packing of log 20 (GK5, from general knowledge): the scaled values are exact, taken in
unbounded integers, always in the device's range, and unchanged by the truncation to 16 bits; the scaling of the
out-of-range raw value 0x100000 is 10000. -/
def Obligations.SensorConversion : Prop :=
  (∀ b1 b2 b3 b4 b5 : Byte, ∃ t h : BitVec 16, convert b1 b2 b3 b4 b5 = .reading t h ∧
    t.toInt = (((b3.toNat % 16) * 65536 + b4.toNat * 256 + b5.toNat) * 20000 / 1048576 : Nat) - 5000 ∧
    h.toInt = ((b1.toNat * 4096 + b2.toNat * 16 + b3.toNat / 16) * 10000 / 1048576 : Nat) ∧
    -5000 ≤ t.toInt ∧ t.toInt ≤ 14999 ∧ 0 ≤ h.toInt ∧ h.toInt ≤ 9999) ∧
  humidityScale 0x100000 = 10000 ∧ temperatureScale 0 = -5000 ∧ humidityScale 0 = 0

/-- R23: the line levels. The clock line is what I2C_W drives; the data line is driven, or released and pulled low or
floating high; the contended level is the free value Config.contendedLevel. -/
def Obligations.LineLevels : Prop :=
  ∀ (s : State) (pull : Bool),
    sclLine s = s.i2c.i2cW.testBit s.params.sclBit ∧
    (s.i2c.i2cW.testBit s.params.oeBit = true → pull = false →
      sdaLine s pull = s.i2c.i2cW.testBit s.params.sdaBit) ∧
    (s.i2c.i2cW.testBit s.params.oeBit = false → sdaLine s pull = if pull then false else true) ∧
    (s.i2c.i2cW.testBit s.params.oeBit = true → s.i2c.i2cW.testBit s.params.sdaBit = true → pull = true →
      sdaLine s pull = Config.contendedLevel s.trace) ∧
    (s.i2c.i2cW.testBit s.params.oeBit = true → s.i2c.i2cW.testBit s.params.sdaBit = false →
      sdaLine s pull = false)

/-! ### I2C primitives (spec/40_i2c_master.md) -/

/-- R100, R108: a line change sets exactly its field of the line word, flushes the whole word and waits the settle
delay, two events, also when the field already has the value; nothing else changes. -/
def Obligations.LineChange : Prop :=
  ∀ (s : State) (f : LineField) (b : Bool), s.params.layoutWf = true →
    ∃ w : HostWord,
      setLine f b s =
        { s with
          i2c := { s.i2c with lw := w, i2cW := w }
          trace := s.trace ++ [.memWrite .i2cW w, .delay .settle]
          ustep := s.ustep + 2 } ∧
      lineField s.params f w = b ∧
      (∀ g, g ≠ f → lineField s.params g w = lineField s.params g s.i2c.lw) ∧
      (∀ i, i ≠ linePos s.params f → w.testBit i = s.i2c.lw.testBit i)

/-- R72, R101, R58: a sample is one read of I2C_R, its value bit SDA_IN_BIT of the word read, no delay follows; on a
released line it is 0 exactly if the responder pulls low. That the word has W_WIDTH bits with SDA_IN_BIT among them is
the model's choice (log 2, deduced from R11; R22 calls the width of I2C_R OPEN). -/
def Obligations.SampleReadsTheLine : Prop :=
  ∀ s : State, ∃ w : HostWord,
    sample s =
      (w.testBit s.params.sdaInBit,
        { s with
          i2c := { s.i2c with i2cR := w }
          trace := s.trace ++ [.memRead .i2cR w]
          ustep := s.ustep + 1
          responder := s.responder.tail }) ∧
    (lineField s.params .oe s.i2c.i2cW = false →
      (w.testBit s.params.sdaInBit = false ↔ (responderAnswer s).pull = true)) ∧
    (s.params.inputWf = true → w < 2 ^ s.params.wWidth)

/-! ### I2C operations (spec/40_i2c_master.md) -/

/-- R231, R102, R214: before readiness, from power-on and on an idle bus (the phases are log 11's) I2C_INIT leaves the
idle line word with every other bit 0, in LW and in I2C_W, by one write and the initialization delay; on a bus nobody
pulls, both wires are then high and I2C_R reads 1. Its micro-sequence has these events and this line word from any
state whatever (V1); in mid-transaction the use is refused (R240, U5: `IllFormedSuccessionsAreRefused`). -/
def Obligations.I2cInitResetsTheMaster : Prop :=
  (∀ s : State, initLines s = { s with
      i2c := { s.i2c with
        lw := Levels.idle.word s.params
        i2cW := Levels.idle.word s.params
        ready := true }
      ustep := s.ustep + 2
      trace := s.trace ++ [.memWrite .i2cW (Levels.idle.word s.params), .delay .init] }) ∧
  ∀ s : State, (s.i2c.ready = false ∨ s.i2c.phase = .powerOn ∨ s.i2c.phase = .idle) →
    ∃ t : State, exec .i2cInit s = .next t ∧
    t = { s with
      i2c := { s.i2c with
        lw := Levels.idle.word s.params
        i2cW := Levels.idle.word s.params
        ready := true
        phase := .idle }
      ustep := 2
      result := .none
      trace := s.trace ++ [.memWrite .i2cW (Levels.idle.word s.params), .delay .init] } ∧
    (s.params.layoutWf = true →
      lineField s.params .scl t.i2c.lw = true ∧ lineField s.params .sda t.i2c.lw = true ∧
      lineField s.params .oe t.i2c.lw = true ∧
      (∀ i, i ≠ s.params.sclBit → i ≠ s.params.sdaBit → i ≠ s.params.oeBit → t.i2c.lw.testBit i = false) ∧
      sclLine t = true ∧ sdaLine t false = true ∧
      ((responderAnswer t).pull = false → (i2cRWord t).testBit s.params.sdaInBit = true))

/-- R103, R110: I2C_START, wherever the succession bookkeeping (log 11) lets it run, writes its five words, each
followed by the settle delay, and leaves `0 0 1`; nothing else changes. -/
def Obligations.I2cStartWords : Prop :=
  ∀ (s : State) (l : Levels), s.params.layoutWf = true → s.i2c.ready = true →
    s.i2c.phase ≠ .powerOn → s.i2c.phase ≠ .started → s.i2c.phase ≠ .readAcked → s.i2c.lw = l.word s.params →
    exec .i2cStart s = .next
      { s with
        i2c := { s.i2c with
          lw := (⟨false, false, true⟩ : Levels).word s.params
          i2cW := (⟨false, false, true⟩ : Levels).word s.params
          phase := .started }
        ustep := 10
        result := .none
        trace := s.trace ++ lineEvents s.params
          [⟨l.scl, true, l.oe⟩, ⟨l.scl, true, true⟩, ⟨true, true, true⟩, ⟨true, false, true⟩,
            ⟨false, false, true⟩] }

/-- R104, R110: I2C_STOP, wherever the succession bookkeeping (log 11) lets it run, writes its four words, each
followed by the settle delay, and leaves the idle state; nothing else changes. Its micro-sequence writes these words
from any levels, the idle ones of V7 included. -/
def Obligations.I2cStopWords : Prop :=
  (∀ (s : State) (l : Levels), s.params.layoutWf = true → s.i2c.lw = l.word s.params →
    stopCondition s = { s with
      i2c := { s.i2c with
        lw := (⟨true, true, true⟩ : Levels).word s.params
        i2cW := (⟨true, true, true⟩ : Levels).word s.params }
      ustep := s.ustep + 8
      trace := s.trace ++ lineEvents s.params
        [⟨l.scl, false, l.oe⟩, ⟨l.scl, false, true⟩, ⟨true, false, true⟩, ⟨true, true, true⟩] }) ∧
  ∀ (s : State) (l : Levels), s.params.layoutWf = true → s.i2c.ready = true →
    s.i2c.phase ≠ .powerOn → s.i2c.phase ≠ .idle → s.i2c.phase ≠ .started → s.i2c.lw = l.word s.params →
    exec .i2cStop s = .next
      { s with
        i2c := { s.i2c with
          lw := (⟨true, true, true⟩ : Levels).word s.params
          i2cW := (⟨true, true, true⟩ : Levels).word s.params
          phase := .idle }
        ustep := 8
        result := .none
        trace := s.trace ++ lineEvents s.params
          [⟨l.scl, false, l.oe⟩, ⟨l.scl, false, true⟩, ⟨true, false, true⟩, ⟨true, true, true⟩] }

/-- R105, R110, E1: I2C_WRITE_BYTE writes its 28 words and takes its one sample; `acknowledged` is true exactly if the
responder pulls low at that sample, whatever the byte; nothing else changes. The phases are log 11's. -/
def Obligations.I2cWriteByteWordsAndAcknowledge : Prop :=
  ∀ (s : State) (value : Byte) (sda oe : Bool), s.params.layoutWf = true → s.i2c.ready = true →
    (s.i2c.phase = .started ∨ (∃ r, s.i2c.phase = .addressed r) ∨ s.i2c.phase = .written) →
    s.i2c.lw = (⟨false, sda, oe⟩ : Levels).word s.params →
    ∃ a : ResponderAnswer,
      a = s.responder.headD
        (Config.responder (s.trace ++ lineEvents s.params (writeLevels sda value))) ∧
      exec (.i2cWriteByte value) s = .next
        { s with
          i2c := { s.i2c with
            lw := (⟨false, value.getLsbD 0, false⟩ : Levels).word s.params
            i2cW := (⟨false, value.getLsbD 0, false⟩ : Levels).word s.params
            i2cR := releasedWord s.params a
            phase := if s.i2c.phase = .started then .addressed (value.getLsbD 0) else .written }
          ustep := 57
          result := .acknowledged a.pull
          responder := s.responder.tail
          trace := s.trace ++ lineEvents s.params (writeLevels sda value) ++
            [.memRead .i2cR (releasedWord s.params a)] ++
            lineEvents s.params [⟨false, value.getLsbD 0, false⟩] }

/-- R106, R110, R54: I2C_READ_BYTE takes eight samples, the first is bit 7 of the value, drives the acknowledge level
and its clock pulse, and leaves `0 0 1` or `0 1 0`; nothing else changes. The listed answers of the environment are
the ones used. The phases are log 11's. -/
def Obligations.I2cReadByteValueAndAcknowledge : Prop :=
  ∀ (s : State) (sendAck sda oe : Bool), s.params.layoutWf = true → s.i2c.ready = true →
    (s.i2c.phase = .addressed true ∨ s.i2c.phase = .readAcked) →
    s.i2c.lw = (⟨false, sda, oe⟩ : Levels).word s.params →
    ∃ (as : List ResponderAnswer) (value : Byte),
      as.length = 8 ∧ as.take s.responder.length = s.responder.take 8 ∧
      (∀ i, i < 8 → value.getMsbD i = !((as[i]?.map (·.pull)).getD true)) ∧
      exec (.i2cReadByte sendAck) s = .next
        { s with
          i2c := { s.i2c with
            lw := (if sendAck then (⟨false, false, true⟩ : Levels) else ⟨false, true, false⟩).word s.params
            i2cW := (if sendAck then (⟨false, false, true⟩ : Levels) else ⟨false, true, false⟩).word s.params
            i2cR := (as.getLast?.map (releasedWord s.params)).getD s.i2c.i2cR
            phase := if sendAck then .readAcked else .readNacked }
          ustep := if sendAck then 50 else 48
          result := .byte value
          responder := s.responder.drop 8
          trace := s.trace ++ lineEvents s.params [⟨false, sda, false⟩] ++
            as.flatMap (fun a => lineEvents s.params [⟨true, sda, false⟩] ++
              [.memRead .i2cR (releasedWord s.params a)] ++ lineEvents s.params [⟨false, sda, false⟩]) ++
            lineEvents s.params
              (if sendAck then
                [⟨false, false, false⟩, ⟨false, false, true⟩, ⟨true, false, true⟩, ⟨false, false, true⟩]
              else [⟨false, true, false⟩, ⟨true, true, false⟩, ⟨false, true, false⟩]) }

/-- R107: I2C_SCAN probes the addresses 1 to 127, ascending, each by start, address byte, stop, and returns exactly
those whose sample read low; it leaves the bus idle; nothing else changes. The listed answers of the environment are
the ones used. The address byte's layout is GK1's (log 20). -/
def Obligations.I2cScanFindsTheAcknowledging : Prop :=
  ∀ s : State, s.params.layoutWf = true → s.i2c.ready = true → s.i2c.phase = .idle →
    s.i2c.lw = Levels.idle.word s.params →
    ∃ as : List ResponderAnswer,
      as.length = 127 ∧ as.take s.responder.length = s.responder.take 127 ∧
      exec .i2cScan s = .next
        { s with
          i2c := { s.i2c with
            i2cW := Levels.idle.word s.params
            i2cR := (as.getLast?.map (releasedWord s.params)).getD s.i2c.i2cR }
          ustep := 9525
          result := .found
            ((((List.range 127).map fun k => BitVec.ofNat 7 (k + 1)).zip as).filterMap fun x =>
              if x.2.pull then some x.1 else none)
          responder := s.responder.drop 127
          trace := s.trace ++
            (((List.range 127).map fun k => BitVec.ofNat 7 (k + 1)).zip as).flatMap fun x =>
              lineEvents s.params (startLevels true true) ++
              writeEvents s.params false (addrb x.1 s.params.scanDir) x.2 ++
              lineEvents s.params (stopLevels false false) }

/-! ### Refused I2C uses -/

/-- R252: any I2C operation other than I2C_INIT issued while i2c_ready is false is refused, and I2C_INIT is not. -/
def Obligations.I2cBeforeInitIsRefused : Prop :=
  ∀ s : State, s.i2c.ready = false →
    (∀ i : Instr, (i = .i2cStart ∨ i = .i2cStop ∨ (∃ v, i = .i2cWriteByte v) ∨ (∃ k, i = .i2cReadByte k) ∨
        i = .i2cScan ∨ i = .sensorInit ∨ i = .sensorMeasure) →
      exec i s = .refused .i2cNotReady) ∧
    ∃ t, exec .i2cInit s = .next t

/-- R111, R240, U5 with the readings of log 11: once I2C_INIT has run, these successions are refused: a byte operation
or a stop on an idle bus, anything but a written byte after I2C_START, a read after a written byte that was no
read-address byte, and after a read byte a write, a start after one that was acknowledged, a further read after one
that was not; a scan, a sensor sequence or I2C_INIT on a bus that is not idle. -/
def Obligations.IllFormedSuccessionsAreRefused : Prop :=
  ∀ s : State, s.i2c.ready = true →
    (s.i2c.phase = .idle → ∀ v k,
      exec (.i2cWriteByte v) s = .refused .i2cSuccession ∧
      exec (.i2cReadByte k) s = .refused .i2cSuccession ∧ exec .i2cStop s = .refused .i2cSuccession) ∧
    (s.i2c.phase ≠ .powerOn → s.i2c.phase ≠ .idle → exec .i2cInit s = .refused .i2cSuccession) ∧
    (s.i2c.phase = .started → ∀ k,
      exec (.i2cReadByte k) s = .refused .i2cSuccession ∧ exec .i2cStart s = .refused .i2cSuccession ∧
      exec .i2cStop s = .refused .i2cSuccession) ∧
    ((s.i2c.phase = .addressed false ∨ s.i2c.phase = .written) → ∀ k,
      exec (.i2cReadByte k) s = .refused .i2cSuccession) ∧
    (s.i2c.phase = .readAcked → ∀ v,
      exec (.i2cWriteByte v) s = .refused .i2cSuccession ∧ exec .i2cStart s = .refused .i2cSuccession) ∧
    (s.i2c.phase = .readNacked → ∀ v k,
      exec (.i2cWriteByte v) s = .refused .i2cSuccession ∧
      exec (.i2cReadByte k) s = .refused .i2cSuccession) ∧
    (s.i2c.phase ≠ .idle →
      exec .i2cScan s = .refused .i2cSuccession ∧ exec .sensorInit s = .refused .i2cSuccession ∧
      exec .sensorMeasure s = .refused .i2cSuccession)

/-! ### The I2C master as a whole -/

/-- R214, R113: no operation of the I2C side touches the SPI half, the parameters, the engine's answers, the caller's
queue or REG_POLL's counter, and none hangs. -/
def Obligations.I2cSideLeavesTheSpiSideAlone : Prop :=
  ∀ (i : Instr) (s t : State),
    (i = .i2cInit ∨ i = .i2cStart ∨ i = .i2cStop ∨ (∃ v, i = .i2cWriteByte v) ∨ (∃ k, i = .i2cReadByte k) ∨
      i = .i2cScan ∨ i = .sensorInit ∨ i = .sensorMeasure) →
    exec i s = .next t →
    t.spi = s.spi ∧ t.params = s.params ∧ t.engine = s.engine ∧ t.queue = s.queue ∧
      t.remaining = s.remaining ∧ t.hung = s.hung

/-- R20, R21, R110: the line word is always the post-state of the last I2C operation, so its other bits are 0, and I2C_W
equals it; every step keeps this. -/
def Obligations.StepKeepsLineInvariant : Prop :=
  ∀ s t : State, s.params.layoutWf = true → LineInv s → step s = .next t → LineInv t

/-- The line invariant holds at reset, where I2C_INIT has not run. -/
def Obligations.ResetHasLineInvariant : Prop := LineInv State.reset

/-- R112: for every operation of the I2C master in a well-formed succession: the data line changes while the clock is
high only at the fourth line change of I2C_START (to low, driven) and of I2C_STOP (to high, driven), in a scan at those
of each probe; every sample is taken with the clock high and the line released; between two writes at most one field
differs, I2C_INIT excepted; the line is low by the master's doing only while it is driven; and every operation but
I2C_INIT, I2C_STOP and I2C_SCAN ends with the clock low. -/
def Obligations.WireRules : Prop :=
  (∀ u : State, sdaLine u false = false → lineField u.params .oe u.i2c.i2cW = true) ∧
  ∀ (i : Instr) (s t : State), s.params.layoutWf = true → LineInv s → exec i s = .next t →
    (i = .i2cInit ∧ s.i2c.phase = .idle ∨ i = .i2cStart ∨ i = .i2cStop ∨
      (∃ v, i = .i2cWriteByte v) ∨ (∃ k, i = .i2cReadByte k) ∨ i = .i2cScan) →
    ∃ es, t.trace = s.trace ++ es ∧
      changesWhileHigh s.params 0 s.i2c.i2cW es =
        (match i with
          | .i2cStart => [(4, ⟨true, false, true⟩)]
          | .i2cStop => [(4, ⟨true, true, true⟩)]
          | .i2cScan => (List.range 127).flatMap fun k =>
              [(37 * k + 4, ⟨true, false, true⟩), (37 * k + 33 + 4, ⟨true, true, true⟩)]
          | _ => []) ∧
      samplesReleasedHigh s.params s.i2c.i2cW es = true ∧
      (i ≠ .i2cInit → oneFieldAtATime s.params s.i2c.i2cW es = true) ∧
      (i ≠ .i2cInit → i ≠ .i2cStop → i ≠ .i2cScan → sclLine t = false)

/-- R250 (with T_SETTLE = 5 us): line changes, samples and delay totals of the I2C operations and of the successful
sensor sequences. -/
def Obligations.I2cEventCounts : Prop :=
  ∀ (i : Instr) (s t : State), s.params.layoutWf = true → LineInv s → s.params.tSettle = 5000 →
    exec i s = .next t →
    ∃ es, t.trace = s.trace ++ es ∧ t.ustep = es.length ∧
      (i = .i2cInit → lineChanges es = 0 ∧ samples es = 0 ∧ delayTotal s.params es = s.params.tInit) ∧
      (i = .i2cStart → lineChanges es = 5 ∧ samples es = 0 ∧ delayTotal s.params es = 25000) ∧
      (i = .i2cStop → lineChanges es = 4 ∧ samples es = 0 ∧ delayTotal s.params es = 20000) ∧
      (∀ v, i = .i2cWriteByte v → lineChanges es = 28 ∧ samples es = 1 ∧ delayTotal s.params es = 140000) ∧
      (i = .i2cReadByte true → lineChanges es = 21 ∧ samples es = 8 ∧ delayTotal s.params es = 105000) ∧
      (i = .i2cReadByte false → lineChanges es = 20 ∧ samples es = 8 ∧ delayTotal s.params es = 100000) ∧
      (i = .i2cScan → lineChanges es = 4699 ∧ samples es = 127 ∧ delayTotal s.params es = 23495000) ∧
      (i = .sensorInit → t.result = .success →
        lineChanges es = 121 ∧ samples es = 4 ∧ delayTotal s.params es = 605000 + 100000000) ∧
      (i = .sensorMeasure → (∃ a b, t.result = .reading a b) →
        lineChanges es = 283 ∧ samples es = 53 ∧ delayTotal s.params es = 1415000 + 80000000)

/-! ### SPI operations (spec/41_spi_register_access.md) -/

/-- R140: SPI_SELECT is the word 01000; outside a frame it writes CS_SELECT_VALUE to SPI_CS, waits T_CS and opens the
frame, nothing else changes; inside a frame it is refused. -/
def Obligations.SpiSelectOpensTheFrame : Prop :=
  decode ⟨[false, true, false, false, false], []⟩ = .ok .spiSelect ∧
  ∀ s : State,
    (s.spi.inFrame = false → exec .spiSelect s = .next
      { s with
        spi := { s.spi with cs := s.params.csSelect, inFrame := true }
        ustep := 2
        result := .none
        trace := s.trace ++ [.memWrite .spiCs s.params.csSelect, .delay .cs] }) ∧
    (s.spi.inFrame = true → exec .spiSelect s = .refused .frameOpen)

/-- R141: SPI_DESELECT is the word 01001; inside a frame it writes CS_DESELECT_VALUE to SPI_CS, waits T_CS and closes
the frame, nothing else changes; outside a frame it is refused. -/
def Obligations.SpiDeselectClosesTheFrame : Prop :=
  decode ⟨[false, true, false, false, true], []⟩ = .ok .spiDeselect ∧
  ∀ s : State,
    (s.spi.inFrame = true → exec .spiDeselect s = .next
      { s with
        spi := { s.spi with cs := s.params.csDeselect, inFrame := false }
        ustep := 2
        result := .none
        trace := s.trace ++ [.memWrite .spiCs s.params.csDeselect, .delay .cs] }) ∧
    (s.spi.inFrame = false → exec .spiDeselect s = .refused .frameClosed)

/-- R142, R28: SPI_XFER of a transfer whose done bit is seen at the read after `busy.length` unsuccessful ones: it loads
the byte, writes the control word, reads the status until the done bit is 1, reads the data-in register, and returns
its bits 7:0; nothing else changes. Any positive number of status reads is allowed. -/
def Obligations.SpiXferExchangesOneByte : Prop :=
  ∀ (s : State) (out : Byte) (busy : List HostWord) (last : HostWord) (more : List HostWord) (miso : HostWord)
    (rest : List EngineAnswer),
    s.spi.inFrame = true → s.engine = ⟨busy ++ last :: more, miso⟩ :: rest →
    (∀ w ∈ busy, w.testBit s.params.statusDoneBit = false) → last.testBit s.params.statusDoneBit = true →
    exec (.spiXfer out) s = .next
      { s with
        spi := { s.spi with mosi := out.toNat, ctrl := ctrlw s.params, status := last, miso := miso }
        ustep := 3 + (busy.length + 1)
        result := .byte (BitVec.ofNat 8 miso)
        engine := rest
        trace := s.trace ++ [.memWrite .spiMosi out.toNat, .memWrite .spiCtrl (ctrlw s.params)] ++
          (busy ++ [last]).map (.memRead .spiStatus) ++ [.memRead .spiMiso miso] }

/-- R243: a transfer whose done bit never sets: SPI_XFER does not return, and every later step is another status read,
with the done bit 0, for ever; nothing else changes and the caller's queue is not served. -/
def Obligations.SpiXferHangsForever : Prop :=
  ∀ (s : State) (out : Byte) (words : List HostWord) (miso : HostWord) (rest : List EngineAnswer),
    s.spi.inFrame = true → s.engine = ⟨words, miso⟩ :: rest →
    (∀ w ∈ words, w.testBit s.params.statusDoneBit = false) →
    ∃ t, exec (.spiXfer out) s = .next t ∧ t.hung = true ∧ t.result = .none ∧
      t.trace = s.trace ++ [.memWrite .spiMosi out.toNat, .memWrite .spiCtrl (ctrlw s.params)] ++
        words.map (.memRead .spiStatus) ∧
      ∀ k, ∃ (u : State) (polls : List HostWord), core.run k t = .next u ∧ polls.length = k ∧
        (∀ w ∈ polls, w.testBit s.params.statusDoneBit = false) ∧
        u = { t with
          spi := { t.spi with status := polls.getLastD t.spi.status }
          ustep := t.ustep + k
          trace := t.trace ++ polls.map (.memRead .spiStatus) }

/-- R143, R151, R77: REG_READ is one FRAME-R, the address operand's bit 7 dropped; the value is the byte of the second
exchange, the first is dropped; nothing else changes. -/
def Obligations.RegReadFrame : Prop :=
  ∀ (s : State) (address : Byte) (a b : EngineAnswer) (rest : List EngineAnswer),
    s.spi.inFrame = false → s.engine = a :: b :: rest →
    completes s.params a = true → completes s.params b = true →
    exec (.regRead address) s = .next
      { s with
        spi := s.spi.framed s.params [(address &&& 0x7F#8, a), (0x00#8, b)]
        ustep := (frameEvents s.params [(address &&& 0x7F#8, a), (0x00#8, b)]).length
        result := .byte (BitVec.ofNat 8 b.miso)
        engine := rest
        trace := s.trace ++ frameEvents s.params [(address &&& 0x7F#8, a), (0x00#8, b)] }

/-- R144, R151: REG_WRITE is one FRAME-W, the header's bit 7 set; both received bytes are dropped; nothing else
changes. -/
def Obligations.RegWriteFrame : Prop :=
  ∀ (s : State) (address value : Byte) (a b : EngineAnswer) (rest : List EngineAnswer),
    s.spi.inFrame = false → s.engine = a :: b :: rest →
    completes s.params a = true → completes s.params b = true →
    exec (.regWrite address value) s = .next
      { s with
        spi := s.spi.framed s.params [(address ||| 0x80#8, a), (value, b)]
        ustep := (frameEvents s.params [(address ||| 0x80#8, a), (value, b)]).length
        result := .none
        engine := rest
        trace := s.trace ++ frameEvents s.params [(address ||| 0x80#8, a), (value, b)] }

/-- R145, D17: REG_BURST_WRITE is one FRAME-B of `1 + n` exchanges, one select and one deselect whatever `n` is, none
of the received bytes used; nothing else changes. -/
def Obligations.RegBurstWriteFrame : Prop :=
  ∀ (s : State) (startAddress : Byte) (bytes : List Byte) (as rest : List EngineAnswer),
    s.spi.inFrame = false → s.engine = as ++ rest → as.length = 1 + bytes.length →
    as.all (completes s.params) = true →
    exec (.regBurstWrite startAddress bytes) s = .next
      { s with
        spi := s.spi.framed s.params (((startAddress ||| 0x80#8) :: bytes).zip as)
        ustep := (frameEvents s.params (((startAddress ||| 0x80#8) :: bytes).zip as)).length
        result := .none
        engine := rest
        trace := s.trace ++ frameEvents s.params (((startAddress ||| 0x80#8) :: bytes).zip as) }

/-- R146: REG_POLL that finds its bits at the last of `missed.length + 1` polls: that many FRAME-Rs, the poll delay
after each unsuccessful one, the last flags byte; nothing else changes. -/
def Obligations.RegPollFinds : Prop :=
  ∀ (s : State) (address mask : Byte) (budget : Nat) (missed : List PollAnswer) (hit : PollAnswer)
    (rest : List EngineAnswer),
    s.spi.inFrame = false → s.engine = pollAnswers (missed ++ [hit]) ++ rest → missed.length < budget →
    (∀ a ∈ missed ++ [hit], PollAnswer.complete s.params a = true) →
    (∀ a ∈ missed, PollAnswer.flags a &&& mask = 0#8) → PollAnswer.flags hit &&& mask ≠ 0#8 →
    exec (.regPoll address mask budget) s = .next
      { s with
        spi := s.spi.framedAll s.params (pollFrames (address.setWidth 7) (missed ++ [hit]))
        ustep := (missedEvents s.params (pollFrames (address.setWidth 7) missed) ++
          framesEvents s.params (pollFrames (address.setWidth 7) [hit])).length
        remaining := none
        result := .polled true (PollAnswer.flags hit)
        engine := rest
        trace := s.trace ++ missedEvents s.params (pollFrames (address.setWidth 7) missed) ++
          framesEvents s.params (pollFrames (address.setWidth 7) [hit]) }

/-- R146: REG_POLL whose bits never show: exactly `budget` FRAME-Rs and `budget` poll delays, then the timeout result
with the last flags byte, 0x00 where there was none; nothing else changes. -/
def Obligations.RegPollTimesOut : Prop :=
  ∀ (s : State) (address mask : Byte) (polls : List PollAnswer) (rest : List EngineAnswer),
    s.spi.inFrame = false → s.engine = pollAnswers polls ++ rest →
    (∀ a ∈ polls, PollAnswer.complete s.params a = true ∧ PollAnswer.flags a &&& mask = 0#8) →
    exec (.regPoll address mask polls.length) s = .next
      { s with
        spi := s.spi.framedAll s.params (pollFrames (address.setWidth 7) polls)
        ustep := (missedEvents s.params (pollFrames (address.setWidth 7) polls)).length
        remaining := none
        result := .polled false ((polls.getLast?.map PollAnswer.flags).getD 0x00#8)
        engine := rest
        trace := s.trace ++ missedEvents s.params (pollFrames (address.setWidth 7) polls) }

/-- R147: frame discipline, whatever the engine answers, listed or not. Every register access that returns is exactly one
frame, one select, its exchanges, one deselect: its bytes, the answers of the engine, the listed ones first, each of
which completed, and its result; nothing else changes. A poll that returns is a sequence of such frames. The
compound operations leave in_frame false; SPI_SELECT and the compound operations are refused inside a frame,
SPI_DESELECT and SPI_XFER outside. -/
def Obligations.FrameDiscipline : Prop :=
  ∀ s : State,
    (∀ t, s.hung = false → t.hung = false →
      (∀ address, exec (.regRead address) s = .next t →
        t.spi.inFrame = false ∧ ∃ a b : EngineAnswer,
          answersListed [a, b] s.engine ∧ completes s.params a = true ∧ completes s.params b = true ∧
          t = { s with
            spi := s.spi.framed s.params [(address &&& 0x7F#8, a), (0x00#8, b)]
            ustep := (frameEvents s.params [(address &&& 0x7F#8, a), (0x00#8, b)]).length
            result := .byte (BitVec.ofNat 8 b.miso)
            engine := s.engine.drop 2
            trace := s.trace ++ frameEvents s.params [(address &&& 0x7F#8, a), (0x00#8, b)] }) ∧
      (∀ address value, exec (.regWrite address value) s = .next t →
        t.spi.inFrame = false ∧ ∃ a b : EngineAnswer,
          answersListed [a, b] s.engine ∧ completes s.params a = true ∧ completes s.params b = true ∧
          t = { s with
            spi := s.spi.framed s.params [(address ||| 0x80#8, a), (value, b)]
            ustep := (frameEvents s.params [(address ||| 0x80#8, a), (value, b)]).length
            result := .none
            engine := s.engine.drop 2
            trace := s.trace ++ frameEvents s.params [(address ||| 0x80#8, a), (value, b)] }) ∧
      (∀ address bytes, exec (.regBurstWrite address bytes) s = .next t →
        t.spi.inFrame = false ∧ ∃ as : List EngineAnswer,
          as.length = 1 + bytes.length ∧ answersListed as s.engine ∧ as.all (completes s.params) = true ∧
          t = { s with
            spi := s.spi.framed s.params (((address ||| 0x80#8) :: bytes).zip as)
            ustep := (frameEvents s.params (((address ||| 0x80#8) :: bytes).zip as)).length
            result := .none
            engine := s.engine.drop as.length
            trace := s.trace ++ frameEvents s.params (((address ||| 0x80#8) :: bytes).zip as) }) ∧
      (∀ address mask budget, exec (.regPoll address mask budget) s = .next t →
        t.spi.inFrame = false ∧ ∃ (missed : List PollAnswer) (hit : Option PollAnswer),
          (∀ a ∈ missed, PollAnswer.complete s.params a = true ∧ PollAnswer.flags a &&& mask = 0#8) ∧
          (∀ a, hit = some a → missed.length < budget ∧ PollAnswer.complete s.params a = true ∧
            PollAnswer.flags a &&& mask ≠ 0#8) ∧
          (hit = none → missed.length = budget) ∧
          answersListed (pollAnswers (missed ++ hit.toList)) s.engine ∧
          t = { s with
            spi := s.spi.framedAll s.params (pollFrames (address.setWidth 7) (missed ++ hit.toList))
            ustep := (missedEvents s.params (pollFrames (address.setWidth 7) missed) ++
              framesEvents s.params (pollFrames (address.setWidth 7) hit.toList)).length
            remaining := none
            result := .polled hit.isSome
              (((missed ++ hit.toList).getLast?.map PollAnswer.flags).getD 0x00#8)
            engine := s.engine.drop (pollAnswers (missed ++ hit.toList)).length
            trace := s.trace ++ missedEvents s.params (pollFrames (address.setWidth 7) missed) ++
              framesEvents s.params (pollFrames (address.setWidth 7) hit.toList) })) ∧
    (s.spi.inFrame = true → ∀ i : Instr,
      (i = .spiSelect ∨ (∃ a, i = .regRead a) ∨ (∃ a v, i = .regWrite a v) ∨ (∃ a bs, i = .regBurstWrite a bs) ∨
        (∃ a m n, i = .regPoll a m n)) → exec i s = .refused .frameOpen) ∧
    (s.spi.inFrame = false → ∀ i : Instr, (i = .spiDeselect ∨ (∃ b, i = .spiXfer b)) →
      exec i s = .refused .frameClosed)

/-- R59, R243: whatever the engine answers, an operation of the SPI side, radio sequences included, uses a list of
answers, the listed ones first, and runs as it does when all of them are listed; it returns exactly if each of them
completes its transfer; else its last does not complete, and the operation never returns. -/
def Obligations.SpiOperationReturnsExactlyIfItsTransfersComplete : Prop :=
  ∀ (i : Instr) (s t : State),
    (i = .spiSelect ∨ i = .spiDeselect ∨ (∃ b, i = .spiXfer b) ∨ (∃ a, i = .regRead a) ∨
      (∃ a v, i = .regWrite a v) ∨ (∃ a bs, i = .regBurstWrite a bs) ∨ (∃ a m n, i = .regPoll a m n) ∨
      (∃ m, i = .radioSetMode m) ∨ (∃ f, i = .radioInit f) ∨ (∃ p l, i = .radioSend p l)) →
    s.hung = false → exec i s = .next t →
    ∃ as : List EngineAnswer, answersListed as s.engine ∧ t.engine = s.engine.drop as.length ∧
      (∀ rest, exec i { s with engine := as ++ rest } = .next { t with engine := rest }) ∧
      (t.hung = false → as.all (completes s.params) = true) ∧
      (t.hung = true → (∃ cs bad, as = cs ++ [bad] ∧ cs.all (completes s.params) = true ∧
        completes s.params bad = false) ∧ NeverReturns i s)

/-- R143, R146, R177, R243: REG_READ, REG_WRITE, REG_BURST_WRITE, REG_POLL and RADIO_SET_MODE never return if any of
their exchanges does not complete: the first such answer is `bad`, the exchanges before it completed, and in a poll
the polls before it missed. REG_POLL's budget does not cover it. -/
def Obligations.AccessesHangWithTheirExchanges : Prop :=
  ∀ (s : State) (missed : List PollAnswer) (as : List EngineAnswer) (bad : EngineAnswer) (rest : List EngineAnswer),
    s.spi.inFrame = false → s.engine = pollAnswers missed ++ as ++ bad :: rest →
    as.all (completes s.params) = true → completes s.params bad = false →
    (missed = [] → as.length < 2 →
      (∀ address, NeverReturns (.regRead address) s) ∧
      (∀ address value, NeverReturns (.regWrite address value) s) ∧
      (∀ mode, NeverReturns (.radioSetMode mode) s)) ∧
    (∀ address bytes, missed = [] → as.length < 1 + bytes.length →
      NeverReturns (.regBurstWrite address bytes) s) ∧
    (∀ address mask budget, missed.length < budget → as.length < 2 →
      (∀ a ∈ missed, PollAnswer.complete s.params a = true ∧ PollAnswer.flags a &&& mask = 0#8) →
      NeverReturns (.regPoll address mask budget) s)

/-- R243, R244: RADIO_INIT and RADIO_SEND never return if an exchange they come to does not complete: in RADIO_INIT its
identification or, that being 0x12, its configuration; in RADIO_SEND its set-up, any poll, or the accesses after the
polls. RADIO_SEND's timeout does not cover it. -/
def Obligations.RadioSequencesHangWithTheirExchanges : Prop :=
  ∀ (s : State) (as : List EngineAnswer) (bad : EngineAnswer) (rest : List EngineAnswer),
    s.spi.inFrame = false → as.all (completes s.params) = true → completes s.params bad = false →
    (∀ f, f ≤ 1023999969 → s.engine = as ++ bad :: rest → as.length < (radioInitFrames s.params f).flatten.length →
      (∀ a b cs, as = a :: b :: cs → BitVec.ofNat 8 b.miso = 0x12#8) → NeverReturns (.radioInit f) s) ∧
    (∀ payload length, 1 ≤ length → length ≤ 255 → length ≤ payload.length →
      (s.engine = as ++ bad :: rest →
        as.length < (sendSetupFrames s.params (payload.take length)).flatten.length →
        NeverReturns (.radioSend payload length) s) ∧
      (∀ (setup : List EngineAnswer) (missed : List PollAnswer),
        setup.length = (sendSetupFrames s.params (payload.take length)).flatten.length →
        setup.all (completes s.params) = true →
        (∀ a ∈ missed, PollAnswer.complete s.params a = true ∧
          PollAnswer.flags a &&& s.params.txDoneMask = 0#8) →
        (s.engine = setup ++ pollAnswers missed ++ as ++ bad :: rest → missed.length ≤ s.params.nPoll →
          as.length < 2 → NeverReturns (.radioSend payload length) s) ∧
        (∀ hit : PollAnswer, s.engine = setup ++ pollAnswers (missed ++ [hit]) ++ as ++ bad :: rest →
          missed.length < s.params.nPoll → PollAnswer.complete s.params hit = true →
          PollAnswer.flags hit &&& s.params.txDoneMask ≠ 0#8 → as.length < 4 →
          NeverReturns (.radioSend payload length) s)))

/-- R214, R20: no operation of the SPI side, radio sequences included, touches the I2C half, the parameters, the
responder's answers or the caller's queue. -/
def Obligations.SpiSideLeavesTheI2cSideAlone : Prop :=
  ∀ (i : Instr) (s t : State),
    (i = .spiSelect ∨ i = .spiDeselect ∨ (∃ b, i = .spiXfer b) ∨ (∃ a, i = .regRead a) ∨
      (∃ a v, i = .regWrite a v) ∨ (∃ a bs, i = .regBurstWrite a bs) ∨ (∃ a m n, i = .regPoll a m n) ∨
      (∃ m, i = .radioSetMode m) ∨ (∃ f, i = .radioInit f) ∨ (∃ p l, i = .radioSend p l)) →
    exec i s = .next t →
    t.i2c = s.i2c ∧ t.params = s.params ∧ t.responder = s.responder ∧ t.queue = s.queue

/-- R24, R33, R38, R243: while a frame is open SPI_CS holds CS_SELECT_VALUE, a poll that never ends is inside a frame,
and REG_POLL's counter is live only in one that hangs; every step keeps this. -/
def Obligations.StepKeepsFrameInvariant : Prop :=
  ∀ s t : State, FrameInv s → step s = .next t → FrameInv t

/-- R236, R24: where the launch premises hold (log 23: State.reset does not promise them) chip-select is released outside
frames, and every step keeps it so; the premises are those a register shows. -/
def Obligations.ChipSelectStaysReleasedAfterLaunch : Prop :=
  (∀ s : State, LaunchPremises s → ChipSelectReleased s ∧ FrameInv s ∧
    (lineField s.params .oe s.i2c.i2cW = false → sdaLine s false = true)) ∧
  (∀ s t : State, FrameInv s → ChipSelectReleased s → step s = .next t → ChipSelectReleased t)

/-- The frame invariant holds at reset. -/
def Obligations.ResetHasFrameInvariant : Prop := FrameInv State.reset

/-! ### Sensor client (spec/42_client_sequences.md) -/

/-- R172, R202, R209: SENSOR_INIT sends its four bytes up to the first that is not acknowledged, always ends with a
stop, succeeds exactly if all were acknowledged and then waits T_SENSOR_SETTLE, and leaves the bus idle; nothing else
changes. The listed answers of the environment are the ones used. -/
def Obligations.SensorInitOutcome : Prop :=
  ∀ s : State, s.params.layoutWf = true → s.i2c.ready = true → s.i2c.phase = .idle →
    s.i2c.lw = Levels.idle.word s.params →
    ∃ (as : List ResponderAnswer) (es : List Event),
      answersUpToNack [0x70#8, 0xE1#8, 0x08#8, 0x00#8] as = true ∧
      as.take s.responder.length = s.responder.take as.length ∧
      es = transactionEvents s.params ([0x70#8, 0xE1#8, 0x08#8, 0x00#8].zip as) ++
        (if as.all (·.pull) then [.delay .sensorSettle] else []) ∧
      exec .sensorInit s = .next
        { s with
          i2c := { s.i2c with
            i2cW := Levels.idle.word s.params
            i2cR := (as.getLast?.map (releasedWord s.params)).getD s.i2c.i2cR }
          ustep := es.length
          result := if as.all (·.pull) then .success else .failed .ackFail
          responder := s.responder.drop as.length
          trace := s.trace ++ es }

/-- R173, R202, R203, R209: SENSOR_MEASURE. The trigger transaction ends with a stop; if a byte of it was not
acknowledged that is all and the result is AckFail; else T_SENSOR_CONV passes, the read address is sent, and if it is
not acknowledged a stop ends the operation with AckFail; else six bytes are read, five acknowledged and the sixth
not, a stop follows, and the result is SensorBusy exactly if bit 7 of the first byte is 1, else the reading of the
other five. The bus is idle on every path; nothing else changes. -/
def Obligations.SensorMeasureOutcome : Prop :=
  ∀ s : State, s.params.layoutWf = true → s.i2c.ready = true → s.i2c.phase = .idle →
    s.i2c.lw = Levels.idle.word s.params →
    ∃ (as bs : List ResponderAnswer) (es : List Event) (r : Result),
      answersUpToNack [0x70#8, 0xAC#8, 0x33#8, 0x00#8] as = true ∧
      (as ++ bs).take s.responder.length = s.responder.take (as ++ bs).length ∧
      (as.all (·.pull) = false → bs = [] ∧ r = .failed .ackFail ∧
        es = transactionEvents s.params ([0x70#8, 0xAC#8, 0x33#8, 0x00#8].zip as)) ∧
      (as.all (·.pull) = true →
        (∃ n, n.pull = false ∧ bs = [n] ∧ r = .failed .ackFail ∧
          es = transactionEvents s.params ([0x70#8, 0xAC#8, 0x33#8, 0x00#8].zip as) ++
            [.delay .sensorConv] ++ transactionEvents s.params [(0x71#8, n)]) ∨
        (∃ (k : ResponderAnswer) (c0 c1 c2 c3 c4 c5 : List ResponderAnswer) (b0 b1 b2 b3 b4 b5 : Byte),
          k.pull = true ∧ bs = k :: (c0 ++ c1 ++ c2 ++ c3 ++ c4 ++ c5) ∧
          (∀ x ∈ [(c0, b0), (c1, b1), (c2, b2), (c3, b3), (c4, b4), (c5, b5)],
            x.1.length = 8 ∧ ∀ i, i < 8 → x.2.getMsbD i = !((x.1[i]?.map (·.pull)).getD true)) ∧
          r = (if b0.getMsbD 0 then .failed .sensorBusy else convert b1 b2 b3 b4 b5) ∧
          es = transactionEvents s.params ([0x70#8, 0xAC#8, 0x33#8, 0x00#8].zip as) ++
            [.delay .sensorConv] ++ lineEvents s.params (startLevels true true) ++
            writeEvents s.params false 0x71#8 k ++
            readEvents s.params true true c0 ++ readEvents s.params false true c1 ++
            readEvents s.params false true c2 ++ readEvents s.params false true c3 ++
            readEvents s.params false true c4 ++ readEvents s.params false false c5 ++
            lineEvents s.params (stopLevels false false))) ∧
      exec .sensorMeasure s = .next
        { s with
          i2c := { s.i2c with
            i2cW := Levels.idle.word s.params
            i2cR := ((as ++ bs).getLast?.map (releasedWord s.params)).getD s.i2c.i2cR }
          ustep := es.length
          result := r
          responder := s.responder.drop (as ++ bs).length
          trace := s.trace ++ es }

/-! ### Radio client (spec/42_client_sequences.md) -/

/-- R177, R87: RADIO_SET_MODE is one FRAME-W to the operating-mode register with LR_BIT | MODE_m, whatever the mode was
before; nothing else changes. -/
def Obligations.RadioSetModeFrame : Prop :=
  ∀ (s : State) (m : RadioMode) (a b : EngineAnswer) (rest : List EngineAnswer),
    s.spi.inFrame = false → s.engine = a :: b :: rest →
    completes s.params a = true → completes s.params b = true →
    exec (.radioSetMode m) s = .next
      { s with
        spi := s.spi.framed s.params ((writeFrame s.params.regOpMode (s.params.lrBit ||| modeCode s.params m)).zip [a, b])
        ustep := (frameEvents s.params
          ((writeFrame s.params.regOpMode (s.params.lrBit ||| modeCode s.params m)).zip [a, b])).length
        result := .none
        engine := rest
        trace := s.trace ++ frameEvents s.params
          ((writeFrame s.params.regOpMode (s.params.lrBit ||| modeCode s.params m)).zip [a, b]) }

/-- R179, R204, R209: RADIO_INIT of a device whose identification is not 0x12: the reset pulse if there is a reset line
(R186 in the form of D29, log 20), the identification's FRAME-R, and nothing after it; the result is IdMismatch;
nothing else changes. -/
def Obligations.RadioInitMismatch : Prop :=
  ∀ (s : State) (f : Nat) (a b : EngineAnswer) (rest : List EngineAnswer),
    f ≤ 1023999969 → s.spi.inFrame = false → s.engine = a :: b :: rest →
    completes s.params a = true → completes s.params b = true → BitVec.ofNat 8 b.miso ≠ 0x12#8 →
    exec (.radioInit f) s = .next
      { s with
        spi := (s.spi.pulsed s.params).framed s.params ((readFrame s.params.regVersion).zip [a, b])
        ustep := (resetPulseEvents s.params ++
          frameEvents s.params ((readFrame s.params.regVersion).zip [a, b])).length
        result := .failed .idMismatch
        engine := rest
        trace := s.trace ++ resetPulseEvents s.params ++
          frameEvents s.params ((readFrame s.params.regVersion).zip [a, b]) }

/-- R179, R180, R186, R251: RADIO_INIT of a device that identifies as 0x12: the reset pulse if there is a reset line, then
the frames of identification, Sleep, the frequency bytes MSB, middle, LSB, CONFIG_BLOCK, flag clear, Standby, in this
order, and the settle delay; the result is success; nothing else changes. -/
def Obligations.RadioInitConfigures : Prop :=
  ∀ (s : State) (f : Nat) (as rest : List EngineAnswer),
    f ≤ 1023999969 → s.spi.inFrame = false → s.engine = as ++ rest →
    as.length = (radioInitFrames s.params f).flatten.length → as.all (completes s.params) = true →
    (∃ a b cs, as = a :: b :: cs ∧ BitVec.ofNat 8 b.miso = 0x12#8) →
    exec (.radioInit f) s = .next
      { s with
        spi := (s.spi.pulsed s.params).framedAll s.params (dealt (radioInitFrames s.params f) as)
        ustep := (resetPulseEvents s.params ++
          framesEvents s.params (dealt (radioInitFrames s.params f) as) ++ [Event.delay .radioSettle]).length
        result := .success
        engine := rest
        trace := s.trace ++ resetPulseEvents s.params ++
          framesEvents s.params (dealt (radioInitFrames s.params f) as) ++ [.delay .radioSettle] }

/-- R206, R208: RADIO_SEND of an illegal length returns InvalidLength at once, whatever the payload, with no event at
all. That it does so also inside a frame is the model's choice of the order of checks (log 13, deduced from R208). -/
def Obligations.RadioSendRejectsIllegalLength : Prop :=
  ∀ (s : State) (payload : List Byte) (length : Nat), length = 0 ∨ 255 < length →
    exec (.radioSend payload length) s =
      .next { s with ustep := 0, result := .failed .invalidLength }

/-- R181, R146, R183, R251: RADIO_SEND whose transmit-done bit shows at the last of `missed.length + 1` polls: the set-up
frames in order, ending in Transmit mode, the polls, the flag clear, Standby; the result is success; nothing else
changes. -/
def Obligations.RadioSendSucceeds : Prop :=
  ∀ (s : State) (payload : List Byte) (length : Nat) (as : List EngineAnswer) (missed : List PollAnswer)
    (hit : PollAnswer) (zs rest : List EngineAnswer),
    1 ≤ length → length ≤ 255 → length ≤ payload.length → s.spi.inFrame = false →
    s.engine = as ++ pollAnswers (missed ++ [hit]) ++ zs ++ rest →
    as.length = (sendSetupFrames s.params (payload.take length)).flatten.length → zs.length = 4 →
    (as ++ zs).all (completes s.params) = true → missed.length < s.params.nPoll →
    (∀ a ∈ missed ++ [hit], PollAnswer.complete s.params a = true) →
    (∀ a ∈ missed, PollAnswer.flags a &&& s.params.txDoneMask = 0#8) →
    PollAnswer.flags hit &&& s.params.txDoneMask ≠ 0#8 →
    ∃ es, es = framesEvents s.params (dealt (sendSetupFrames s.params (payload.take length)) as) ++
        missedEvents s.params (pollFrames s.params.regIrqFlags missed) ++
        framesEvents s.params (pollFrames s.params.regIrqFlags [hit]) ++
        framesEvents s.params (dealt (sendFinishFrames s.params true) zs) ∧
      exec (.radioSend payload length) s = .next
        { s with
          spi := s.spi.framedAll s.params (dealt (sendSetupFrames s.params (payload.take length)) as ++
            pollFrames s.params.regIrqFlags (missed ++ [hit]) ++ dealt (sendFinishFrames s.params true) zs)
          ustep := es.length
          remaining := none
          result := .success
          engine := rest
          trace := s.trace ++ es }

/-- R181, R205, R209, with the poll loop of R146 and D18 (log 19): RADIO_SEND whose transmit-done bit never shows: the set-up frames, exactly N_POLL polls each
followed by the poll delay, then Standby as the last frame; the result is TxTimeout; nothing else changes. -/
def Obligations.RadioSendTimesOut : Prop :=
  ∀ (s : State) (payload : List Byte) (length : Nat) (as : List EngineAnswer) (polls : List PollAnswer)
    (zs rest : List EngineAnswer),
    1 ≤ length → length ≤ 255 → length ≤ payload.length → s.spi.inFrame = false →
    s.engine = as ++ pollAnswers polls ++ zs ++ rest →
    as.length = (sendSetupFrames s.params (payload.take length)).flatten.length → zs.length = 2 →
    (as ++ zs).all (completes s.params) = true → polls.length = s.params.nPoll →
    (∀ a ∈ polls, PollAnswer.complete s.params a = true ∧
      PollAnswer.flags a &&& s.params.txDoneMask = 0#8) →
    ∃ es, es = framesEvents s.params (dealt (sendSetupFrames s.params (payload.take length)) as) ++
        missedEvents s.params (pollFrames s.params.regIrqFlags polls) ++
        framesEvents s.params (dealt (sendFinishFrames s.params false) zs) ∧
      exec (.radioSend payload length) s = .next
        { s with
          spi := s.spi.framedAll s.params (dealt (sendSetupFrames s.params (payload.take length)) as ++
            pollFrames s.params.regIrqFlags polls ++ dealt (sendFinishFrames s.params false) zs)
          ustep := es.length
          remaining := none
          result := .failed .txTimeout
          engine := rest
          trace := s.trace ++ es }

/-- R180, R183, R147: the operands outside the radio operations' domain are refused: a frequency above 1 023 999 969, a
payload shorter than a legal length; and each radio operation inside a frame, the illegal length of RADIO_SEND
excepted (log 13). -/
def Obligations.RadioDomainIsChecked : Prop :=
  ∀ s : State,
    (∀ f, 1023999969 < f → exec (.radioInit f) s = .refused .frequencyOutOfRange) ∧
    (∀ payload length, 1 ≤ length → length ≤ 255 → payload.length < length →
      exec (.radioSend payload length) s = .refused .payloadTooShort) ∧
    (s.spi.inFrame = true →
      (∀ m, exec (.radioSetMode m) s = .refused .frameOpen) ∧
      (∀ f, f ≤ 1023999969 → exec (.radioInit f) s = .refused .frameOpen) ∧
      (∀ payload length, 1 ≤ length → length ≤ 255 → length ≤ payload.length →
        exec (.radioSend payload length) s = .refused .frameOpen))

/-! ### The machine -/

/-- A step runs the operation that the next word of the caller's queue decodes to, on the state with that word taken off
the queue. -/
def Obligations.StepRunsTheDecodedOperation : Prop :=
  ∀ (s : State) (w : OpWord) (rest : List OpWord) (i : Instr),
    s.hung = false → s.queue = w :: rest → decode w = .ok i →
    step s = exec i { s with queue := rest }

/-- With nothing issued the block waits and nothing changes (R220); a poll that never ends goes on reading (R243). -/
def Obligations.StepWaitsOrPolls : Prop :=
  (∀ s : State, s.hung = false → s.queue = [] → step s = .next s) ∧
  (∀ s : State, s.hung = true → ∃ w : HostWord, w.testBit s.params.statusDoneBit = false ∧
    step s = .next
      { s with
        spi := { s.spi with status := w }
        ustep := s.ustep + 1
        trace := s.trace ++ [.memRead .spiStatus w] })

/-- R27, R62, R37: an operation only appends to the trace, the micro-step index is the number of its events, and the
parameters never change. -/
def Obligations.ExecAppendsItsEvents : Prop :=
  ∀ (i : Instr) (s t : State), exec i s = .next t →
    ∃ es, t.trace = s.trace ++ es ∧ t.ustep = es.length ∧ t.params = s.params

/-- R63: there is no buffering: every register the block writes holds the last value written to it in the trace, and every
step keeps this. That SPI_CTRL keeps its start bit is the model's choice (log 28). -/
def Obligations.StepKeepsRegistersFollowingTheTrace : Prop :=
  ∀ s t : State, RegistersFollowTrace s → step s = .next t → RegistersFollowTrace t

/-- The registers follow the trace at reset, where nothing has been written. -/
def Obligations.ResetRegistersFollowTheTrace : Prop := RegistersFollowTrace State.reset

/-- R41, R38: the bookkeeping after reset: no I2C_INIT has run and no frame is open; REG_POLL's counter is not live. The
model's own fields (logs 6, 7 and 9): no poll is unfinished, nothing has been performed, nothing has been issued, and
so the machine waits. -/
def Obligations.ResetBookkeeping : Prop :=
  State.reset.i2c.ready = false ∧ State.reset.spi.inFrame = false ∧ State.reset.remaining = none ∧
  State.reset.hung = false ∧ State.reset.trace = [] ∧ State.reset.queue = [] ∧
  step State.reset = .next State.reset
end

