-- ==== Sys2Proof/Laws/Bits.lean ====
section
/-! SUPPORT. The laws of register fields and of the line word. -/

namespace Sys2Proof.Machine

/-- Writing one bit of a word: that bit takes the value, every other keeps its own. -/
theorem testBit_setBit (w : HostWord) (pos : Nat) (b : Bool) (i : Nat) :
    (setBit w pos b).testBit i = if i = pos then b else w.testBit i := by
  unfold setBit
  by_cases h : w.testBit pos = b
  · simp only [h, if_true]
    split
    · subst_vars; rfl
    · rfl
  · rw [if_neg h, Nat.testBit_xor, Nat.testBit_two_pow]
    by_cases hi : i = pos
    · subst hi; cases hb : w.testBit i <;> cases b <;> simp_all
    · simp [hi, Ne.symm hi]

@[simp] theorem testBit_setBit_self (w : HostWord) (pos : Nat) (b : Bool) :
    (setBit w pos b).testBit pos = b := by simp [testBit_setBit]

/-- The parts of `Params.layoutWf`, as propositions. -/
theorem Params_layoutWf_iff (p : Params) : p.layoutWf = true ↔
    3 ≤ p.wWidth ∧ p.sclBit < p.wWidth ∧ p.sdaBit < p.wWidth ∧ p.oeBit < p.wWidth ∧
      p.sclBit ≠ p.sdaBit ∧ p.sclBit ≠ p.oeBit ∧ p.sdaBit ≠ p.oeBit := by
  simp [Params.layoutWf, and_assoc]

/-- Every bit of a line word. -/
theorem testBit_lwf (p : Params) (a b c : Bool) (i : Nat) :
    (lwf p a b c).testBit i =
      (decide (i < p.wWidth) && ((a && decide (i = p.sclBit)) || (b && decide (i = p.sdaBit)) ||
        (c && decide (i = p.oeBit)))) := by
  have h : ∀ (x : Bool) (k : Nat), (x.toNat <<< k).testBit i = (x && decide (i = k)) := by
    intro x k
    cases x
    · simp
    · rw [show (true.toNat <<< k) = 2 ^ k by simp [Nat.shiftLeft_eq], Nat.testBit_two_pow]
      simp [eq_comm]
  simp [lwf, Nat.testBit_mod_two_pow, Nat.testBit_or, h]

theorem lineField_lwf_scl {p : Params} (hp : p.layoutWf) (a b c : Bool) :
    lineField p .scl (lwf p a b c) = a := by
  obtain ⟨-, h1, -, -, h2, h3, -⟩ := (Params_layoutWf_iff p).1 hp
  simp [lineField, linePos, testBit_lwf, h1, h2, h3]

theorem lineField_lwf_sda {p : Params} (hp : p.layoutWf) (a b c : Bool) :
    lineField p .sda (lwf p a b c) = b := by
  obtain ⟨-, -, h1, -, h2, -, h3⟩ := (Params_layoutWf_iff p).1 hp
  simp [lineField, linePos, testBit_lwf, h1, h2.symm, h3]

theorem lineField_lwf_oe {p : Params} (hp : p.layoutWf) (a b c : Bool) :
    lineField p .oe (lwf p a b c) = c := by
  obtain ⟨-, -, -, h1, -, h2, h3⟩ := (Params_layoutWf_iff p).1 hp
  simp [lineField, linePos, testBit_lwf, h1, h2.symm, h3.symm]

/-- Writing one field of a line word gives the line word with that field. -/
theorem setBit_lwf_scl {p : Params} (hp : p.layoutWf) (a b c x : Bool) :
    setBit (lwf p a b c) p.sclBit x = lwf p x b c := by
  obtain ⟨-, h1, -, -, h2, h3, -⟩ := (Params_layoutWf_iff p).1 hp
  apply Nat.eq_of_testBit_eq
  intro i
  rw [testBit_setBit, testBit_lwf, testBit_lwf]
  by_cases hi : i = p.sclBit
  · subst hi; simp [h1, h2, h3]
  · simp [hi]

theorem setBit_lwf_sda {p : Params} (hp : p.layoutWf) (a b c x : Bool) :
    setBit (lwf p a b c) p.sdaBit x = lwf p a x c := by
  obtain ⟨-, -, h1, -, h2, -, h3⟩ := (Params_layoutWf_iff p).1 hp
  apply Nat.eq_of_testBit_eq
  intro i
  rw [testBit_setBit, testBit_lwf, testBit_lwf]
  by_cases hi : i = p.sdaBit
  · subst hi; simp [h1, h2.symm, h3]
  · simp [hi]

theorem setBit_lwf_oe {p : Params} (hp : p.layoutWf) (a b c x : Bool) :
    setBit (lwf p a b c) p.oeBit x = lwf p a b x := by
  obtain ⟨-, -, -, h1, -, h2, h3⟩ := (Params_layoutWf_iff p).1 hp
  apply Nat.eq_of_testBit_eq
  intro i
  rw [testBit_setBit, testBit_lwf, testBit_lwf]
  by_cases hi : i = p.oeBit
  · subst hi; simp [h1, h2.symm, h3.symm]
  · simp [hi]

theorem lwf_lt (p : Params) (a b c : Bool) : lwf p a b c < 2 ^ p.wWidth :=
  Nat.mod_lt _ (Nat.two_pow_pos _)

end Sys2Proof.Machine
end

