-- ==== Sys2Proof/Laws/Encoding.lean ====
section
/-! SUPPORT. Bit lists and the numbers they stand for, most significant bit first, and the fields of a bit list. -/

namespace Sys2Proof

theorem numOf_foldl (l : List Bool) (acc : Nat) :
    l.foldl (fun acc b => 2 * acc + b.toNat) acc = acc * 2 ^ l.length + numOf l := by
  induction l generalizing acc with
  | nil => simp [numOf]
  | cons b l ih =>
    simp only [numOf, List.foldl_cons, List.length_cons]
    rw [ih, ih (2 * 0 + b.toNat), Nat.pow_succ]
    ring

theorem numOf_cons (b : Bool) (l : List Bool) : numOf (b :: l) = b.toNat * 2 ^ l.length + numOf l := by
  have := numOf_foldl l b.toNat
  simpa [numOf] using this

theorem bitsOf_length (n v : Nat) : (bitsOf n v).length = n := by
  induction n with
  | zero => rfl
  | succ n ih => simp [bitsOf, ih]

/-- The low `n` bits of a number, as a number. -/
theorem numOf_bitsOf (n v : Nat) : numOf (bitsOf n v) = v % 2 ^ n := by
  induction n with
  | zero => simp [bitsOf, numOf, Nat.mod_one]
  | succ n ih =>
    rw [bitsOf, numOf_cons, bitsOf_length, ih, Nat.mod_pow_succ, Nat.testBit_eq_decide_div_mod_eq]
    rcases Nat.mod_two_eq_zero_or_one (v / 2 ^ n) with h | h <;> simp [h]
    omega

theorem numOf_lt (l : List Bool) : numOf l < 2 ^ l.length := by
  induction l with
  | nil => simp [numOf]
  | cons b l ih => rw [numOf_cons, List.length_cons, Nat.pow_succ]; cases b <;> simp <;> omega

theorem bitsOf_mod {n m : Nat} (v : Nat) (h : n ≤ m) : bitsOf n (v % 2 ^ m) = bitsOf n v := by
  induction n with
  | zero => rfl
  | succ n ih => simp [bitsOf, ih (by omega), Nat.testBit_mod_two_pow]; omega

/-- A bit list is the bits of its number. -/
theorem bitsOf_numOf (l : List Bool) : bitsOf l.length (numOf l) = l := by
  induction l with
  | nil => rfl
  | cons b l ih =>
    have hlt := numOf_lt l
    rw [List.length_cons, bitsOf, numOf_cons]
    congr 1
    · rw [Nat.testBit_eq_decide_div_mod_eq, Nat.mul_comm, Nat.mul_add_div (Nat.two_pow_pos _),
        Nat.div_eq_of_lt hlt]
      cases b <;> rfl
    · rw [← bitsOf_mod _ (Nat.le_refl _), Nat.mul_comm, Nat.mul_add_mod, Nat.mod_eq_of_lt hlt, ih]

/-- The field of `n` bits that starts after `pre`. -/
theorem fieldAt_append {k : Nat} (n v : Nat) {pre : List Bool} (rest : List Bool) (h : pre.length = k) :
    fieldAt (pre ++ (bitsOf n v ++ rest)) k n = v % 2 ^ n := by
  simp [fieldAt, ← h, bitsOf_length, numOf_bitsOf]

theorem fieldAt_lt (operands : List Bool) (skip width : Nat) : fieldAt operands skip width < 2 ^ width :=
  Nat.lt_of_lt_of_le (numOf_lt _) (Nat.pow_le_pow_right (by omega) (List.length_take_le _ _))

/-- The bits of a field that lies in the list. -/
theorem bitsOf_fieldAt {operands : List Bool} {skip width : Nat} (h : skip + width ≤ operands.length) :
    bitsOf width (fieldAt operands skip width) = (operands.drop skip).take width := by
  have hl : ((operands.drop skip).take width).length = width := by simp; omega
  have := bitsOf_numOf ((operands.drop skip).take width)
  rwa [hl] at this

end Sys2Proof
end

