-- ==== Sys2Proof/Laws/State.lean ====
section
/-! SUPPORT. What each state update does to each field of State: one lemma per field per update, so that no later
proof unfolds a record update. -/

namespace Sys2Proof.Machine

/-! ### emit, delay -/

@[simp] theorem emit_params (e : Event) (s : State) : (emit e s).params = s.params := rfl
@[simp] theorem emit_i2c (e : Event) (s : State) : (emit e s).i2c = s.i2c := rfl
@[simp] theorem emit_spi (e : Event) (s : State) : (emit e s).spi = s.spi := rfl
@[simp] theorem emit_ustep (e : Event) (s : State) : (emit e s).ustep = s.ustep + 1 := rfl
@[simp] theorem emit_remaining (e : Event) (s : State) : (emit e s).remaining = s.remaining := rfl
@[simp] theorem emit_hung (e : Event) (s : State) : (emit e s).hung = s.hung := rfl
@[simp] theorem emit_result (e : Event) (s : State) : (emit e s).result = s.result := rfl
@[simp] theorem emit_trace (e : Event) (s : State) : (emit e s).trace = s.trace ++ [e] := rfl
@[simp] theorem emit_responder (e : Event) (s : State) : (emit e s).responder = s.responder := rfl
@[simp] theorem emit_engine (e : Event) (s : State) : (emit e s).engine = s.engine := rfl
@[simp] theorem emit_queue (e : Event) (s : State) : (emit e s).queue = s.queue := rfl

@[simp] theorem delay_params (t : Duration) (s : State) : (delay t s).params = s.params := rfl
@[simp] theorem delay_i2c (t : Duration) (s : State) : (delay t s).i2c = s.i2c := rfl
@[simp] theorem delay_spi (t : Duration) (s : State) : (delay t s).spi = s.spi := rfl
@[simp] theorem delay_ustep (t : Duration) (s : State) : (delay t s).ustep = s.ustep + 1 := rfl
@[simp] theorem delay_remaining (t : Duration) (s : State) : (delay t s).remaining = s.remaining := rfl
@[simp] theorem delay_hung (t : Duration) (s : State) : (delay t s).hung = s.hung := rfl
@[simp] theorem delay_result (t : Duration) (s : State) : (delay t s).result = s.result := rfl
@[simp] theorem delay_trace (t : Duration) (s : State) : (delay t s).trace = s.trace ++ [.delay t] := rfl
@[simp] theorem delay_responder (t : Duration) (s : State) : (delay t s).responder = s.responder := rfl
@[simp] theorem delay_engine (t : Duration) (s : State) : (delay t s).engine = s.engine := rfl
@[simp] theorem delay_queue (t : Duration) (s : State) : (delay t s).queue = s.queue := rfl

/-! ### memWrite -/

@[simp] theorem memWrite_params (r : WriteReg) (v : HostWord) (s : State) :
    (memWrite r v s).params = s.params := by cases r <;> rfl
@[simp] theorem memWrite_ustep (r : WriteReg) (v : HostWord) (s : State) :
    (memWrite r v s).ustep = s.ustep + 1 := by cases r <;> rfl
@[simp] theorem memWrite_remaining (r : WriteReg) (v : HostWord) (s : State) :
    (memWrite r v s).remaining = s.remaining := by cases r <;> rfl
@[simp] theorem memWrite_hung (r : WriteReg) (v : HostWord) (s : State) :
    (memWrite r v s).hung = s.hung := by cases r <;> rfl
@[simp] theorem memWrite_result (r : WriteReg) (v : HostWord) (s : State) :
    (memWrite r v s).result = s.result := by cases r <;> rfl
@[simp] theorem memWrite_trace (r : WriteReg) (v : HostWord) (s : State) :
    (memWrite r v s).trace = s.trace ++ [.memWrite r v] := by cases r <;> rfl
@[simp] theorem memWrite_responder (r : WriteReg) (v : HostWord) (s : State) :
    (memWrite r v s).responder = s.responder := by cases r <;> rfl
@[simp] theorem memWrite_engine (r : WriteReg) (v : HostWord) (s : State) :
    (memWrite r v s).engine = s.engine := by cases r <;> rfl
@[simp] theorem memWrite_queue (r : WriteReg) (v : HostWord) (s : State) :
    (memWrite r v s).queue = s.queue := by cases r <;> rfl

@[simp] theorem memWrite_i2cW_i2c (v : HostWord) (s : State) :
    (memWrite .i2cW v s).i2c = { s.i2c with i2cW := v } := rfl
@[simp] theorem memWrite_i2cW_spi (v : HostWord) (s : State) : (memWrite .i2cW v s).spi = s.spi := rfl
@[simp] theorem memWrite_spiCs_i2c (v : HostWord) (s : State) : (memWrite .spiCs v s).i2c = s.i2c := rfl
@[simp] theorem memWrite_spiCs_spi (v : HostWord) (s : State) :
    (memWrite .spiCs v s).spi = { s.spi with cs := v } := rfl
@[simp] theorem memWrite_spiMosi_i2c (v : HostWord) (s : State) : (memWrite .spiMosi v s).i2c = s.i2c := rfl
@[simp] theorem memWrite_spiMosi_spi (v : HostWord) (s : State) :
    (memWrite .spiMosi v s).spi = { s.spi with mosi := v } := rfl
@[simp] theorem memWrite_spiCtrl_i2c (v : HostWord) (s : State) : (memWrite .spiCtrl v s).i2c = s.i2c := rfl
@[simp] theorem memWrite_spiCtrl_spi (v : HostWord) (s : State) :
    (memWrite .spiCtrl v s).spi = { s.spi with ctrl := v } := rfl
@[simp] theorem memWrite_radioRst_i2c (v : HostWord) (s : State) : (memWrite .radioRst v s).i2c = s.i2c := rfl
@[simp] theorem memWrite_radioRst_spi (v : HostWord) (s : State) :
    (memWrite .radioRst v s).spi = { s.spi with radioRst := v } := rfl

/-! ### memRead -/

@[simp] theorem memRead_params (r : ReadReg) (v : HostWord) (s : State) :
    (memRead r v s).params = s.params := by cases r <;> rfl
@[simp] theorem memRead_ustep (r : ReadReg) (v : HostWord) (s : State) :
    (memRead r v s).ustep = s.ustep + 1 := by cases r <;> rfl
@[simp] theorem memRead_remaining (r : ReadReg) (v : HostWord) (s : State) :
    (memRead r v s).remaining = s.remaining := by cases r <;> rfl
@[simp] theorem memRead_hung (r : ReadReg) (v : HostWord) (s : State) :
    (memRead r v s).hung = s.hung := by cases r <;> rfl
@[simp] theorem memRead_result (r : ReadReg) (v : HostWord) (s : State) :
    (memRead r v s).result = s.result := by cases r <;> rfl
@[simp] theorem memRead_trace (r : ReadReg) (v : HostWord) (s : State) :
    (memRead r v s).trace = s.trace ++ [.memRead r v] := by cases r <;> rfl
@[simp] theorem memRead_responder (r : ReadReg) (v : HostWord) (s : State) :
    (memRead r v s).responder = s.responder := by cases r <;> rfl
@[simp] theorem memRead_engine (r : ReadReg) (v : HostWord) (s : State) :
    (memRead r v s).engine = s.engine := by cases r <;> rfl
@[simp] theorem memRead_queue (r : ReadReg) (v : HostWord) (s : State) :
    (memRead r v s).queue = s.queue := by cases r <;> rfl

@[simp] theorem memRead_i2cR_i2c (v : HostWord) (s : State) :
    (memRead .i2cR v s).i2c = { s.i2c with i2cR := v } := rfl
@[simp] theorem memRead_i2cR_spi (v : HostWord) (s : State) : (memRead .i2cR v s).spi = s.spi := rfl
@[simp] theorem memRead_spiStatus_i2c (v : HostWord) (s : State) : (memRead .spiStatus v s).i2c = s.i2c := rfl
@[simp] theorem memRead_spiStatus_spi (v : HostWord) (s : State) :
    (memRead .spiStatus v s).spi = { s.spi with status := v } := rfl
@[simp] theorem memRead_spiMiso_i2c (v : HostWord) (s : State) : (memRead .spiMiso v s).i2c = s.i2c := rfl
@[simp] theorem memRead_spiMiso_spi (v : HostWord) (s : State) :
    (memRead .spiMiso v s).spi = { s.spi with miso := v } := rfl

/-! ### setLine, sample -/

@[simp] theorem setLine_params (f : LineField) (b : Bool) (s : State) : (setLine f b s).params = s.params := rfl
@[simp] theorem setLine_i2c (f : LineField) (b : Bool) (s : State) :
    (setLine f b s).i2c = { s.i2c with lw := setBit s.i2c.lw (linePos s.params f) b, i2cW := setBit s.i2c.lw (linePos s.params f) b } := rfl
@[simp] theorem setLine_spi (f : LineField) (b : Bool) (s : State) : (setLine f b s).spi = s.spi := rfl
@[simp] theorem setLine_ustep (f : LineField) (b : Bool) (s : State) : (setLine f b s).ustep = s.ustep + 2 := rfl
@[simp] theorem setLine_remaining (f : LineField) (b : Bool) (s : State) :
    (setLine f b s).remaining = s.remaining := rfl
@[simp] theorem setLine_hung (f : LineField) (b : Bool) (s : State) : (setLine f b s).hung = s.hung := rfl
@[simp] theorem setLine_result (f : LineField) (b : Bool) (s : State) : (setLine f b s).result = s.result := rfl
@[simp] theorem setLine_trace (f : LineField) (b : Bool) (s : State) :
    (setLine f b s).trace = s.trace ++ [.memWrite .i2cW (setBit s.i2c.lw (linePos s.params f) b), .delay .settle] := by simp [setLine]
@[simp] theorem setLine_responder (f : LineField) (b : Bool) (s : State) :
    (setLine f b s).responder = s.responder := rfl
@[simp] theorem setLine_engine (f : LineField) (b : Bool) (s : State) : (setLine f b s).engine = s.engine := rfl
@[simp] theorem setLine_queue (f : LineField) (b : Bool) (s : State) : (setLine f b s).queue = s.queue := rfl

@[simp] theorem sample_params (s : State) : ((sample s).2).params = s.params := rfl
@[simp] theorem sample_i2c (s : State) : ((sample s).2).i2c = { s.i2c with i2cR := i2cRWord s } := rfl
@[simp] theorem sample_spi (s : State) : ((sample s).2).spi = s.spi := rfl
@[simp] theorem sample_ustep (s : State) : ((sample s).2).ustep = s.ustep + 1 := rfl
@[simp] theorem sample_remaining (s : State) : ((sample s).2).remaining = s.remaining := rfl
@[simp] theorem sample_hung (s : State) : ((sample s).2).hung = s.hung := rfl
@[simp] theorem sample_result (s : State) : ((sample s).2).result = s.result := rfl
@[simp] theorem sample_trace (s : State) : ((sample s).2).trace = s.trace ++ [.memRead .i2cR (i2cRWord s)] := rfl
@[simp] theorem sample_responder (s : State) : ((sample s).2).responder = s.responder.tail := rfl
@[simp] theorem sample_engine (s : State) : ((sample s).2).engine = s.engine := rfl
@[simp] theorem sample_queue (s : State) : ((sample s).2).queue = s.queue := rfl

/-! ### setPhase, startOp, returnOp, failOp, hungRead -/

@[simp] theorem setPhase_params (ph : I2cPhase) (s : State) : (setPhase ph s).params = s.params := rfl
@[simp] theorem setPhase_i2c (ph : I2cPhase) (s : State) : (setPhase ph s).i2c = { s.i2c with phase := ph } := rfl
@[simp] theorem setPhase_spi (ph : I2cPhase) (s : State) : (setPhase ph s).spi = s.spi := rfl
@[simp] theorem setPhase_ustep (ph : I2cPhase) (s : State) : (setPhase ph s).ustep = s.ustep := rfl
@[simp] theorem setPhase_remaining (ph : I2cPhase) (s : State) : (setPhase ph s).remaining = s.remaining := rfl
@[simp] theorem setPhase_hung (ph : I2cPhase) (s : State) : (setPhase ph s).hung = s.hung := rfl
@[simp] theorem setPhase_result (ph : I2cPhase) (s : State) : (setPhase ph s).result = s.result := rfl
@[simp] theorem setPhase_trace (ph : I2cPhase) (s : State) : (setPhase ph s).trace = s.trace := rfl
@[simp] theorem setPhase_responder (ph : I2cPhase) (s : State) : (setPhase ph s).responder = s.responder := rfl
@[simp] theorem setPhase_engine (ph : I2cPhase) (s : State) : (setPhase ph s).engine = s.engine := rfl
@[simp] theorem setPhase_queue (ph : I2cPhase) (s : State) : (setPhase ph s).queue = s.queue := rfl

@[simp] theorem startOp_params (s : State) : (startOp s).params = s.params := rfl
@[simp] theorem startOp_i2c (s : State) : (startOp s).i2c = s.i2c := rfl
@[simp] theorem startOp_spi (s : State) : (startOp s).spi = s.spi := rfl
@[simp] theorem startOp_ustep (s : State) : (startOp s).ustep = 0 := rfl
@[simp] theorem startOp_remaining (s : State) : (startOp s).remaining = s.remaining := rfl
@[simp] theorem startOp_hung (s : State) : (startOp s).hung = s.hung := rfl
@[simp] theorem startOp_result (s : State) : (startOp s).result = .none := rfl
@[simp] theorem startOp_trace (s : State) : (startOp s).trace = s.trace := rfl
@[simp] theorem startOp_responder (s : State) : (startOp s).responder = s.responder := rfl
@[simp] theorem startOp_engine (s : State) : (startOp s).engine = s.engine := rfl
@[simp] theorem startOp_queue (s : State) : (startOp s).queue = s.queue := rfl

@[simp] theorem returnOp_params (r : Result) (s : State) : (returnOp r s).params = s.params := rfl
@[simp] theorem returnOp_i2c (r : Result) (s : State) : (returnOp r s).i2c = s.i2c := rfl
@[simp] theorem returnOp_spi (r : Result) (s : State) : (returnOp r s).spi = s.spi := rfl
@[simp] theorem returnOp_ustep (r : Result) (s : State) : (returnOp r s).ustep = s.ustep := rfl
@[simp] theorem returnOp_remaining (r : Result) (s : State) : (returnOp r s).remaining = s.remaining := rfl
@[simp] theorem returnOp_hung (r : Result) (s : State) : (returnOp r s).hung = s.hung := rfl
@[simp] theorem returnOp_result (r : Result) (s : State) : (returnOp r s).result = r := rfl
@[simp] theorem returnOp_trace (r : Result) (s : State) : (returnOp r s).trace = s.trace := rfl
@[simp] theorem returnOp_responder (r : Result) (s : State) : (returnOp r s).responder = s.responder := rfl
@[simp] theorem returnOp_engine (r : Result) (s : State) : (returnOp r s).engine = s.engine := rfl
@[simp] theorem returnOp_queue (r : Result) (s : State) : (returnOp r s).queue = s.queue := rfl

@[simp] theorem failOp_params (f : Failure) (s : State) : (failOp f s).params = s.params := rfl
@[simp] theorem failOp_i2c (f : Failure) (s : State) : (failOp f s).i2c = s.i2c := rfl
@[simp] theorem failOp_spi (f : Failure) (s : State) : (failOp f s).spi = s.spi := rfl
@[simp] theorem failOp_ustep (f : Failure) (s : State) : (failOp f s).ustep = s.ustep := rfl
@[simp] theorem failOp_remaining (f : Failure) (s : State) : (failOp f s).remaining = s.remaining := rfl
@[simp] theorem failOp_hung (f : Failure) (s : State) : (failOp f s).hung = s.hung := rfl
@[simp] theorem failOp_result (f : Failure) (s : State) : (failOp f s).result = .failed f := rfl
@[simp] theorem failOp_trace (f : Failure) (s : State) : (failOp f s).trace = s.trace := rfl
@[simp] theorem failOp_responder (f : Failure) (s : State) : (failOp f s).responder = s.responder := rfl
@[simp] theorem failOp_engine (f : Failure) (s : State) : (failOp f s).engine = s.engine := rfl
@[simp] theorem failOp_queue (f : Failure) (s : State) : (failOp f s).queue = s.queue := rfl

@[simp] theorem hungRead_params (s : State) : (hungRead s).params = s.params := rfl
@[simp] theorem hungRead_i2c (s : State) : (hungRead s).i2c = s.i2c := rfl
@[simp] theorem hungRead_spi (s : State) :
    (hungRead s).spi = { s.spi with status := setBit (Config.hungStatus s.trace) s.params.statusDoneBit false } := rfl
@[simp] theorem hungRead_ustep (s : State) : (hungRead s).ustep = s.ustep + 1 := rfl
@[simp] theorem hungRead_remaining (s : State) : (hungRead s).remaining = s.remaining := rfl
@[simp] theorem hungRead_hung (s : State) : (hungRead s).hung = s.hung := rfl
@[simp] theorem hungRead_result (s : State) : (hungRead s).result = s.result := rfl
@[simp] theorem hungRead_trace (s : State) :
    (hungRead s).trace = s.trace ++ [.memRead .spiStatus (setBit (Config.hungStatus s.trace) s.params.statusDoneBit false)] := rfl
@[simp] theorem hungRead_responder (s : State) : (hungRead s).responder = s.responder := rfl
@[simp] theorem hungRead_engine (s : State) : (hungRead s).engine = s.engine := rfl
@[simp] theorem hungRead_queue (s : State) : (hungRead s).queue = s.queue := rfl

/-! ### initLines, selectDevice, deselectDevice -/

@[simp] theorem initLines_params (s : State) : (initLines s).params = s.params := rfl
@[simp] theorem initLines_i2c (s : State) :
    (initLines s).i2c = { s.i2c with lw := lwf s.params true true true, i2cW := lwf s.params true true true, ready := true } := rfl
@[simp] theorem initLines_spi (s : State) : (initLines s).spi = s.spi := rfl
@[simp] theorem initLines_ustep (s : State) : (initLines s).ustep = s.ustep + 2 := rfl
@[simp] theorem initLines_remaining (s : State) : (initLines s).remaining = s.remaining := rfl
@[simp] theorem initLines_hung (s : State) : (initLines s).hung = s.hung := rfl
@[simp] theorem initLines_result (s : State) : (initLines s).result = s.result := rfl
@[simp] theorem initLines_trace (s : State) :
    (initLines s).trace = s.trace ++ [.memWrite .i2cW (lwf s.params true true true), .delay .init] := by simp [initLines]
@[simp] theorem initLines_responder (s : State) : (initLines s).responder = s.responder := rfl
@[simp] theorem initLines_engine (s : State) : (initLines s).engine = s.engine := rfl
@[simp] theorem initLines_queue (s : State) : (initLines s).queue = s.queue := rfl

@[simp] theorem selectDevice_params (s : State) : (selectDevice s).params = s.params := rfl
@[simp] theorem selectDevice_i2c (s : State) : (selectDevice s).i2c = s.i2c := rfl
@[simp] theorem selectDevice_spi (s : State) :
    (selectDevice s).spi = { s.spi with cs := s.params.csSelect, inFrame := true } := rfl
@[simp] theorem selectDevice_ustep (s : State) : (selectDevice s).ustep = s.ustep + 2 := rfl
@[simp] theorem selectDevice_remaining (s : State) : (selectDevice s).remaining = s.remaining := rfl
@[simp] theorem selectDevice_hung (s : State) : (selectDevice s).hung = s.hung := rfl
@[simp] theorem selectDevice_result (s : State) : (selectDevice s).result = s.result := rfl
@[simp] theorem selectDevice_trace (s : State) :
    (selectDevice s).trace = s.trace ++ [.memWrite .spiCs s.params.csSelect, .delay .cs] := by simp [selectDevice]
@[simp] theorem selectDevice_responder (s : State) : (selectDevice s).responder = s.responder := rfl
@[simp] theorem selectDevice_engine (s : State) : (selectDevice s).engine = s.engine := rfl
@[simp] theorem selectDevice_queue (s : State) : (selectDevice s).queue = s.queue := rfl

@[simp] theorem deselectDevice_params (s : State) : (deselectDevice s).params = s.params := rfl
@[simp] theorem deselectDevice_i2c (s : State) : (deselectDevice s).i2c = s.i2c := rfl
@[simp] theorem deselectDevice_spi (s : State) :
    (deselectDevice s).spi = { s.spi with cs := s.params.csDeselect, inFrame := false } := rfl
@[simp] theorem deselectDevice_ustep (s : State) : (deselectDevice s).ustep = s.ustep + 2 := rfl
@[simp] theorem deselectDevice_remaining (s : State) : (deselectDevice s).remaining = s.remaining := rfl
@[simp] theorem deselectDevice_hung (s : State) : (deselectDevice s).hung = s.hung := rfl
@[simp] theorem deselectDevice_result (s : State) : (deselectDevice s).result = s.result := rfl
@[simp] theorem deselectDevice_trace (s : State) :
    (deselectDevice s).trace = s.trace ++ [.memWrite .spiCs s.params.csDeselect, .delay .cs] := by simp [deselectDevice]
@[simp] theorem deselectDevice_responder (s : State) : (deselectDevice s).responder = s.responder := rfl
@[simp] theorem deselectDevice_engine (s : State) : (deselectDevice s).engine = s.engine := rfl
@[simp] theorem deselectDevice_queue (s : State) : (deselectDevice s).queue = s.queue := rfl

end Sys2Proof.Machine
end

