-- ==== Sys2Proof/Laws/I2cFrame.lean ====
section
/-! SUPPORT. What a two-wire sequence leaves alone, in every state: the SPI half, the parameters, the engine's answers,
the caller's queue; and that it only appends to the trace. -/

namespace Sys2Proof.Machine

/-- `t` differs from `s` only in the I2C half, the micro-step index, the result, the trace and the responder's listed
answers; the trace has grown by as many events as the index. -/
structure I2cOnly (s t : State) : Prop where
  params    : t.params = s.params
  spi       : t.spi = s.spi
  remaining : t.remaining = s.remaining
  hung      : t.hung = s.hung
  engine    : t.engine = s.engine
  queue     : t.queue = s.queue
  ready     : t.i2c.ready = s.i2c.ready
  trace     : ∃ es, t.trace = s.trace ++ es ∧ t.ustep = s.ustep + es.length

theorem I2cOnly.refl (s : State) : I2cOnly s s := ⟨rfl, rfl, rfl, rfl, rfl, rfl, rfl, [], by simp⟩

theorem I2cOnly.trans {s t u : State} (h : I2cOnly s t) (k : I2cOnly t u) : I2cOnly s u := by
  obtain ⟨es, h1, h2⟩ := h.trace
  obtain ⟨fs, k1, k2⟩ := k.trace
  exact ⟨k.params.trans h.params, k.spi.trans h.spi, k.remaining.trans h.remaining, k.hung.trans h.hung,
    k.engine.trans h.engine, k.queue.trans h.queue, k.ready.trans h.ready, es ++ fs, by simp [k1, h1],
    by rw [k2, h2, List.length_append]; omega⟩

theorem I2cOnly.setLine (f : LineField) (b : Bool) (s : State) : I2cOnly s (Machine.setLine f b s) :=
  ⟨rfl, rfl, rfl, rfl, rfl, rfl, rfl, [_, _], List.append_assoc _ _ _, rfl⟩

theorem I2cOnly.sample (s : State) : I2cOnly s (Machine.sample s).2 :=
  ⟨rfl, rfl, rfl, rfl, rfl, rfl, rfl, [_], rfl, rfl⟩

theorem I2cOnly.delay (t : Duration) (s : State) : I2cOnly s (Machine.delay t s) :=
  ⟨rfl, rfl, rfl, rfl, rfl, rfl, rfl, [_], rfl, rfl⟩

theorem I2cOnly.returnOp (r : Result) (s : State) : I2cOnly s (Machine.returnOp r s) :=
  ⟨rfl, rfl, rfl, rfl, rfl, rfl, rfl, [], by simp⟩

theorem I2cOnly.failOp (f : Failure) (s : State) : I2cOnly s (Machine.failOp f s) := .returnOp _ s

theorem I2cOnly.setPhase (ph : I2cPhase) (s : State) : I2cOnly s (Machine.setPhase ph s) :=
  ⟨rfl, rfl, rfl, rfl, rfl, rfl, rfl, [], by simp [Machine.setPhase]⟩

theorem I2cOnly.startCondition (s : State) : I2cOnly s (Machine.startCondition s) :=
  (((((I2cOnly.setLine _ _ _).trans (.setLine _ _ _)).trans (.setLine _ _ _)).trans (.setLine _ _ _)).trans
    (.setLine _ _ _))

theorem I2cOnly.stopCondition (s : State) : I2cOnly s (Machine.stopCondition s) :=
  ((((I2cOnly.setLine _ _ _).trans (.setLine _ _ _)).trans (.setLine _ _ _)).trans (.setLine _ _ _))

theorem I2cOnly.sendBit (b : Bool) (s : State) : I2cOnly s (Machine.sendBit b s) :=
  (((I2cOnly.setLine _ _ _).trans (.setLine _ _ _)).trans (.setLine _ _ _))

theorem I2cOnly.sendBits (v : Byte) (is : List Nat) (s : State) : I2cOnly s (Machine.sendBits v is s) := by
  induction is generalizing s with
  | nil => exact .refl s
  | cons i is ih => exact (I2cOnly.sendBit _ s).trans (ih _)

theorem I2cOnly.writeByte (v : Byte) (s : State) : I2cOnly s (Machine.writeByte v s).2 :=
  ((((((I2cOnly.setLine _ _ _).trans (.sendBits v bitOrder _)).trans (.setLine _ _ _)).trans
    (.setLine _ _ _)).trans (.sample _)).trans (.setLine _ _ _))

theorem I2cOnly.readBit (s : State) : I2cOnly s (Machine.readBit s).2 :=
  (((I2cOnly.setLine _ _ _).trans (.sample _)).trans (.setLine _ _ _))

theorem I2cOnly.readBits (is : List Nat) (v : Byte) (s : State) : I2cOnly s (Machine.readBits is v s).2 := by
  induction is generalizing v s with
  | nil => exact .refl s
  | cons i is ih => exact (I2cOnly.readBit s).trans (ih _ _)

theorem I2cOnly.driveAck (k : Bool) (s : State) : I2cOnly s (Machine.driveAck k s) := by
  cases k
  · exact .setLine _ _ _
  · exact (I2cOnly.setLine _ _ _).trans (.setLine _ _ _)

theorem I2cOnly.readByte (k : Bool) (s : State) : I2cOnly s (Machine.readByte k s).2 :=
  (((((I2cOnly.setLine _ _ _).trans (.readBits bitOrder _ _)).trans (.driveAck k _)).trans
    (.setLine _ _ _)).trans (.setLine _ _ _))

theorem I2cOnly.probe (a : Addr7) (s : State) : I2cOnly s (Machine.probe a s).2 :=
  (((I2cOnly.startCondition s).trans (.writeByte _ _)).trans (.stopCondition _))

theorem I2cOnly.scanFrom (addrs : List Addr7) (s : State) : I2cOnly s (Machine.scanFrom addrs s).2 := by
  induction addrs generalizing s with
  | nil => exact .refl s
  | cons a addrs ih => exact (I2cOnly.probe a s).trans (ih _)

theorem I2cOnly.sendAll (bytes : List Byte) (s : State) : I2cOnly s (Machine.sendAll bytes s).2 := by
  induction bytes generalizing s with
  | nil => exact .refl s
  | cons b bs ih =>
    simp only [Machine.sendAll]
    split
    · exact (I2cOnly.writeByte b s).trans (ih _)
    · exact .writeByte b s

theorem I2cOnly.writeTransaction (bytes : List Byte) (s : State) :
    I2cOnly s (Machine.writeTransaction bytes s).2 :=
  (((I2cOnly.startCondition s).trans (.sendAll bytes _)).trans (.stopCondition _))

theorem I2cOnly.sensorInit (s : State) : I2cOnly s (Machine.sensorInit s) := by
  simp only [Machine.sensorInit]
  split
  · exact ((I2cOnly.writeTransaction _ s).trans (.delay _ _)).trans (.returnOp _ _)
  · exact (I2cOnly.writeTransaction _ s).trans (.failOp _ _)

theorem I2cOnly.readResponse (s : State) : I2cOnly s (Machine.readResponse s) := by
  have h : I2cOnly s (Machine.stopCondition (Machine.readByte false (Machine.readByte true (Machine.readByte true
      (Machine.readByte true (Machine.readByte true (Machine.readByte true s).2).2).2).2).2).2) :=
    ((((((I2cOnly.readByte true s).trans (.readByte true _)).trans (.readByte true _)).trans
      (.readByte true _)).trans (.readByte true _)).trans (.readByte false _)).trans (.stopCondition _)
  simp only [Machine.readResponse]
  split
  · exact h.trans (.failOp _ _)
  · exact h.trans (.returnOp _ _)

theorem I2cOnly.sensorMeasure (s : State) : I2cOnly s (Machine.sensorMeasure s) := by
  have h := I2cOnly.writeTransaction (sensorWriteAddress :: Config.sensorTriggerCommand) s
  have k := ((h.trans (.delay .sensorConv _)).trans (.startCondition _)).trans (.writeByte sensorReadAddress _)
  simp only [Machine.sensorMeasure]
  split
  · split
    · exact k.trans (.readResponse _)
    · exact (k.trans (.stopCondition _)).trans (.failOp _ _)
  · exact h.trans (.failOp _ _)

/-- What an I2C operation that runs has met, and what it runs (R252, R111). -/
theorem issueI2c_next {allowed : I2cPhase → Bool} {run : State → State} {s t : State}
    (h : issueI2c allowed run s = .next t) :
    s.i2c.ready = true ∧ allowed s.i2c.phase = true ∧ t = run (startOp s) := by
  unfold issueI2c at h
  split at h
  · cases h
  · split at h
    · cases h
    · rename_i h1 h2
      exact ⟨by simpa using h1, by simpa using h2, by simpa using h.symm⟩

theorem issueI2c_of {allowed : I2cPhase → Bool} {run : State → State} {s : State}
    (hr : s.i2c.ready = true) (ha : allowed s.i2c.phase = true) :
    issueI2c allowed run s = .next (run (startOp s)) := by
  simp [issueI2c, hr, ha]

end Sys2Proof.Machine
end

