-- ==== Sys2Proof/Laws/SpiAccess.lean ====
section
/-! SUPPORT. What each micro-sequence of the SPI layer does: one exchange (completed or hung), one frame, and the
laws of sequencing. -/

namespace Sys2Proof.Machine

@[simp] theorem Ran.bind_returned {α β : Type} (a : α) (s : State) (k : α → State → Ran β) :
    (Ran.returned a s).bind k = k a s := rfl
@[simp] theorem Ran.bind_hung {α β : Type} (s : State) (k : α → State → Ran β) :
    (Ran.hung s).bind k = .hung s := rfl
@[simp] theorem Ran.settle_returned (r : Result) (s : State) : (Ran.returned r s).settle = returnOp r s := rfl
@[simp] theorem Ran.settle_hung (s : State) : (Ran.hung s : Ran Result).settle = { s with hung := true } := rfl

theorem Ran.bind_assoc {α β γ : Type} (r : Ran α) (k : α → State → Ran β) (m : β → State → Ran γ) :
    (r.bind k).bind m = r.bind fun a s => (k a s).bind m := by
  cases r <;> rfl

/-! ### The done-poll -/

/-- The state after the status words `ws` have been read. -/
def afterReads (ws : List HostWord) (s : State) : State :=
  { s with
    spi := { s.spi with status := ws.getLastD s.spi.status }
    trace := s.trace ++ ws.map (.memRead .spiStatus)
    ustep := s.ustep + ws.length }

theorem afterReads_cons (w : HostWord) (ws : List HostWord) (s : State) :
    afterReads ws (memRead .spiStatus w s) = afterReads (w :: ws) s := by
  apply State.ext <;> simp [afterReads]
  · cases ws <;> rfl
  · omega

/-- The done-poll reads up to the first done bit and returns, or reads everything and hangs (R142, R243). -/
theorem pollDone_eq (ws : List HostWord) (s : State) :
    pollDone ws s =
      if ws.any (doneOf s.params) then .returned () (afterReads (polledWords s.params ws) s)
      else .hung (afterReads (polledWords s.params ws) s) := by
  induction ws generalizing s with
  | nil => simp [pollDone, polledWords, afterReads]
  | cons w ws ih =>
    simp only [pollDone, memRead_params]
    by_cases h : doneOf s.params w = true
    · simp only [h, polledWords, if_true, List.any_cons, Bool.true_or, ← afterReads_cons]
      congr 1
      apply State.ext <;> simp [afterReads]
    · simp [h, polledWords, ih, afterReads_cons]

/-! ### One exchange -/

/-- The state after an exchange of `out` that the engine answered `a`, up to the end of its poll. -/
def afterStart (out : Byte) (a : EngineAnswer) (s : State) : State :=
  { s with
    spi := { s.spi with
      mosi := out.toNat
      ctrl := ctrlw s.params
      status := (polledWords s.params a.status).getLastD s.spi.status }
    trace := s.trace ++ startedEvents s.params out a
    ustep := s.ustep + (2 + (polledWords s.params a.status).length)
    engine := s.engine.tail }

/-- The state after a completed exchange of `out` that the engine answered `a`. -/
def afterExchange (out : Byte) (a : EngineAnswer) (s : State) : State :=
  { s with
    spi := s.spi.exchanged s.params out a
    trace := s.trace ++ exchangeEvents s.params out a
    ustep := s.ustep + (3 + (polledWords s.params a.status).length)
    engine := s.engine.tail }

/-- The engine's answer to an exchange of `out`. -/
def exchangeAnswer (out : Byte) (s : State) : EngineAnswer :=
  s.engine.headD (Config.engine (s.trace ++ [.memWrite .spiMosi out.toNat, .memWrite .spiCtrl (ctrlw s.params)]))

/-- SPI_XFER's micro-sequence: it returns the answered byte if the engine completes the transfer, else it hangs
(R142, R243). -/
theorem transferByte_eq (out : Byte) (s : State) :
    transferByte out s =
      if completes s.params (exchangeAnswer out s) then
        .returned (wordToByte (exchangeAnswer out s).miso) (afterExchange out (exchangeAnswer out s) s)
      else .hung (afterStart out (exchangeAnswer out s) s) := by
  have h : engineAnswer (memWrite .spiCtrl (ctrlw s.params) (memWrite .spiMosi (byteToWord out) s)) =
      exchangeAnswer out s := by
    simp [engineAnswer, exchangeAnswer, byteToWord]
  simp only [transferByte, memWrite_params, h, pollDone_eq, completes, memWrite_engine]
  by_cases hc : (exchangeAnswer out s).status.any (doneOf s.params)
  · simp only [hc, if_true, Ran.bind_returned]
    congr 1
    apply State.ext <;>
      simp [afterReads, afterExchange, SpiLayer.exchanged, exchangeEvents, startedEvents, byteToWord]
    omega
  · simp only [hc, Bool.false_eq_true, if_false, Ran.bind_hung]
    congr 1
    apply State.ext <;> simp [afterReads, afterStart, startedEvents, byteToWord]
    omega

@[simp] theorem afterExchange_params (out : Byte) (a : EngineAnswer) (s : State) :
    (afterExchange out a s).params = s.params := rfl
@[simp] theorem afterExchange_engine (out : Byte) (a : EngineAnswer) (s : State) :
    (afterExchange out a s).engine = s.engine.tail := rfl

/-- An exchange whose listed answer completes. -/
theorem transferByte_listed {s : State} {a : EngineAnswer} {rest : List EngineAnswer} (out : Byte)
    (he : s.engine = a :: rest) (hc : completes s.params a) :
    transferByte out s = .returned (wordToByte a.miso) (afterExchange out a s) := by
  have : exchangeAnswer out s = a := by simp [exchangeAnswer, he]
  rw [transferByte_eq, this, if_pos hc]

/-! ### Several exchanges, one frame -/

/-- The state after completed exchanges. -/
def afterExchanges (sent : List (Byte × EngineAnswer)) (s : State) : State :=
  sent.foldl (fun s x => afterExchange x.1 x.2 s) s

@[simp] theorem afterExchanges_nil (s : State) : afterExchanges [] s = s := rfl
@[simp] theorem afterExchanges_cons (x : Byte × EngineAnswer) (xs : List (Byte × EngineAnswer)) (s : State) :
    afterExchanges (x :: xs) s = afterExchanges xs (afterExchange x.1 x.2 s) := rfl

/-- The events of a list of exchanges, counted. -/
def exchangeCount (p : Params) (sent : List (Byte × EngineAnswer)) : Nat :=
  (sent.map fun x => 3 + (polledWords p x.2.status).length).sum

/-- What completed exchanges do, field by field. -/
theorem afterExchanges_eq (sent : List (Byte × EngineAnswer)) (s : State) :
    afterExchanges sent s =
      { s with
        spi := sent.foldl (fun l x => l.exchanged s.params x.1 x.2) s.spi
        trace := s.trace ++ sent.flatMap (fun x => exchangeEvents s.params x.1 x.2)
        ustep := s.ustep + exchangeCount s.params sent
        engine := s.engine.drop sent.length } := by
  induction sent generalizing s with
  | nil => simp [exchangeCount]
  | cons x xs ih =>
    rw [afterExchanges_cons, ih]
    apply State.ext <;> simp [afterExchange, exchangeCount, Nat.add_assoc]

theorem transferAll_listed (bytes : List Byte) : ∀ {s : State} {as rest : List EngineAnswer},
    s.engine = as ++ rest → as.length = bytes.length → as.all (completes s.params) →
    transferAll bytes s = .returned () (afterExchanges (bytes.zip as) s) := by
  induction bytes with
  | nil => intro s as rest _ _ _; simp [transferAll]
  | cons b bs ih =>
    intro s as rest he hl hc
    cases as with
    | nil => simp at hl
    | cons a as =>
      simp only [List.all_cons, Bool.and_eq_true] at hc
      rw [transferAll, transferByte_listed b (by simpa using he) hc.1, Ran.bind_returned,
        ih (as := as) (rest := rest) (by simp [he]) (by simpa using hl) (by simpa using hc.2)]
      rfl

/-- The state after a completed frame. -/
def afterFrame (sent : List (Byte × EngineAnswer)) (s : State) : State :=
  { s with
    spi := s.spi.framed s.params sent
    trace := s.trace ++ frameEvents s.params sent
    ustep := s.ustep + (4 + exchangeCount s.params sent)
    engine := s.engine.drop sent.length }

@[simp] theorem afterFrame_params (sent : List (Byte × EngineAnswer)) (s : State) :
    (afterFrame sent s).params = s.params := rfl
@[simp] theorem afterFrame_engine (sent : List (Byte × EngineAnswer)) (s : State) :
    (afterFrame sent s).engine = s.engine.drop sent.length := rfl

theorem exchanged_foldl_cs (p : Params) (sent : List (Byte × EngineAnswer)) (l : SpiLayer) (c : HostWord)
    (b : Bool) :
    sent.foldl (fun l x => l.exchanged p x.1 x.2) { l with cs := c, inFrame := b } =
      { sent.foldl (fun l x => l.exchanged p x.1 x.2) l with cs := c, inFrame := b } := by
  induction sent generalizing l with
  | nil => rfl
  | cons x xs ih => simp only [List.foldl_cons, ← ih]; rfl

/-- Select, exchanges, deselect make one frame (R147). -/
theorem deselect_exchanges_select (sent : List (Byte × EngineAnswer)) (s : State) :
    deselectDevice (afterExchanges sent (selectDevice s)) = afterFrame sent s := by
  rw [afterExchanges_eq]
  apply State.ext <;> simp [afterFrame, frameEvents, SpiLayer.framed, exchanged_foldl_cs]
  omega

/-- REG_READ's micro-sequence when both listed answers complete (R143). -/
theorem regRead_listed {s : State} {a b : EngineAnswer} {rest : List EngineAnswer} (addr : Addr7)
    (he : s.engine = a :: b :: rest) (ha : completes s.params a) (hb : completes s.params b) :
    regRead addr s =
      .returned (wordToByte b.miso) (afterFrame ((readFrame addr).zip [a, b]) s) := by
  rw [regRead, transferByte_listed (a := a) (rest := b :: rest) _ (by simp [he]) (by simpa using ha),
    Ran.bind_returned, transferByte_listed (a := b) (rest := rest) _ (by simp [he]) (by simpa using hb),
    Ran.bind_returned, ← deselect_exchanges_select]
  rfl

/-- REG_WRITE's micro-sequence when both listed answers complete (R144). -/
theorem regWrite_listed {s : State} {a b : EngineAnswer} {rest : List EngineAnswer} (addr : Addr7) (v : Byte)
    (he : s.engine = a :: b :: rest) (ha : completes s.params a) (hb : completes s.params b) :
    regWrite addr v s = .returned () (afterFrame ((writeFrame addr v).zip [a, b]) s) := by
  rw [regWrite, transferByte_listed (a := a) (rest := b :: rest) _ (by simp [he]) (by simpa using ha),
    Ran.bind_returned, transferByte_listed (a := b) (rest := rest) _ (by simp [he]) (by simpa using hb),
    Ran.bind_returned, ← deselect_exchanges_select]
  rfl

/-- REG_BURST_WRITE's micro-sequence when the listed answers complete (R145). -/
theorem burstWrite_listed {s : State} {a : EngineAnswer} {as rest : List EngineAnswer} (addr : Addr7)
    (bytes : List Byte) (he : s.engine = a :: as ++ rest) (hl : as.length = bytes.length)
    (ha : (a :: as).all (completes s.params)) :
    burstWrite addr bytes s =
      .returned () (afterFrame ((cmdb true addr :: bytes).zip (a :: as)) s) := by
  simp only [List.all_cons, Bool.and_eq_true] at ha
  rw [burstWrite, transferByte_listed (a := a) (rest := as ++ rest) _ (by simp [he]) (by simpa using ha.1),
    Ran.bind_returned, transferAll_listed bytes (as := as) (rest := rest) (by simp [he]) hl (by simpa using ha.2),
    Ran.bind_returned, ← deselect_exchanges_select]
  rfl

/-! ### Frame laws: what a SPI sequence leaves alone, however it ends -/

/-- The state a run ends in. -/
def Ran.state {α : Type} : Ran α → State
  | .returned _ s => s
  | .hung s => s

/-- `t` differs from `s` only in the SPI half, the micro-step index, REG_POLL's counter, the trace and the engine's
listed answers; the trace has grown by as many events as the index. -/
structure SpiOnly (s t : State) : Prop where
  params    : t.params = s.params
  i2c       : t.i2c = s.i2c
  hung      : t.hung = s.hung
  result    : t.result = s.result
  responder : t.responder = s.responder
  queue     : t.queue = s.queue
  trace     : ∃ es, t.trace = s.trace ++ es ∧ t.ustep = s.ustep + es.length

theorem SpiOnly.refl (s : State) : SpiOnly s s := ⟨rfl, rfl, rfl, rfl, rfl, rfl, [], by simp⟩

theorem SpiOnly.trans {s t u : State} (h : SpiOnly s t) (k : SpiOnly t u) : SpiOnly s u := by
  obtain ⟨es, h1, h2⟩ := h.trace
  obtain ⟨fs, k1, k2⟩ := k.trace
  exact ⟨k.params.trans h.params, k.i2c.trans h.i2c, k.hung.trans h.hung, k.result.trans h.result,
    k.responder.trans h.responder, k.queue.trans h.queue, es ++ fs, by simp [k1, h1],
    by rw [k2, h2, List.length_append]; omega⟩

theorem SpiOnly.bind {α β : Type} {s : State} {r : Ran α} {k : α → State → Ran β} (h : SpiOnly s r.state)
    (hk : ∀ a t, r = .returned a t → SpiOnly t (k a t).state) : SpiOnly s (r.bind k).state := by
  cases r with
  | returned a t => exact h.trans (hk a t rfl)
  | hung t => exact h

theorem SpiOnly.select (s : State) : SpiOnly s (selectDevice s) :=
  ⟨rfl, rfl, rfl, rfl, rfl, rfl, _, selectDevice_trace s, rfl⟩

theorem SpiOnly.deselect (s : State) : SpiOnly s (deselectDevice s) :=
  ⟨rfl, rfl, rfl, rfl, rfl, rfl, _, deselectDevice_trace s, rfl⟩

theorem SpiOnly.delay (t : Duration) (s : State) : SpiOnly s (Machine.delay t s) :=
  ⟨rfl, rfl, rfl, rfl, rfl, rfl, _, rfl, rfl⟩

theorem SpiOnly.remaining (n : Option Nat) (s : State) : SpiOnly s { s with remaining := n } :=
  ⟨rfl, rfl, rfl, rfl, rfl, rfl, [], by simp, rfl⟩

theorem SpiOnly.transferByte (out : Byte) (s : State) : SpiOnly s (Machine.transferByte out s).state := by
  rw [transferByte_eq]
  split
  · exact ⟨rfl, rfl, rfl, rfl, rfl, rfl, _, rfl, by
      simp [Ran.state, afterExchange, exchangeEvents, startedEvents]; omega⟩
  · exact ⟨rfl, rfl, rfl, rfl, rfl, rfl, _, rfl, by
      simp [Ran.state, afterStart, startedEvents]; omega⟩

theorem SpiOnly.regRead (a : Addr7) (s : State) : SpiOnly s (Machine.regRead a s).state :=
  .bind ((SpiOnly.select s).trans (.transferByte _ _)) fun _ t _ =>
    .bind (.transferByte _ t) fun _ u _ => .deselect u

theorem SpiOnly.regWrite (a : Addr7) (v : Byte) (s : State) : SpiOnly s (Machine.regWrite a v s).state :=
  .bind ((SpiOnly.select s).trans (.transferByte _ _)) fun _ t _ =>
    .bind (.transferByte _ t) fun _ u _ => .deselect u

theorem SpiOnly.transferAll (bytes : List Byte) (s : State) : SpiOnly s (Machine.transferAll bytes s).state := by
  induction bytes generalizing s with
  | nil => exact .refl s
  | cons b bs ih => exact .bind (.transferByte b s) fun _ t _ => ih t

theorem SpiOnly.burstWrite (a : Addr7) (bytes : List Byte) (s : State) :
    SpiOnly s (Machine.burstWrite a bytes s).state :=
  .bind ((SpiOnly.select s).trans (.transferByte _ _)) fun _ t _ =>
    .bind (.transferAll bytes t) fun _ u _ => .deselect u

theorem SpiOnly.pollLoop (a : Addr7) (mask : Byte) (n : Nat) (flags : Byte) (s : State) :
    SpiOnly s (Machine.pollLoop a mask n flags s).state := by
  induction n generalizing flags s with
  | zero => exact .refl s
  | succ n ih =>
    refine .bind (.regRead a s) fun f t _ => ?_
    dsimp only
    split
    · exact .refl t
    · exact (((SpiOnly.delay .poll t).trans (.remaining (some n) _)).trans (ih f _))

theorem SpiOnly.regPoll (a : Addr7) (mask : Byte) (n : Nat) (s : State) :
    SpiOnly s (Machine.regPoll a mask n s).state :=
  .bind ((SpiOnly.remaining (some n) s).trans (.pollLoop a mask n _ _)) fun _ t _ => .remaining none t

end Sys2Proof.Machine
end

