-- ==== Sys2Proof/Laws/Exec.lean ====
section
/-! SUPPORT. What an operation of each side leaves alone, whatever its operands and whatever the state: one law for the
I2C side, one for the SPI side. -/

namespace Sys2Proof.Machine

/-! ### The radio driver's sequences -/

theorem SpiOnly.setMode (m : RadioMode) (s : State) : SpiOnly s (Machine.setMode m s).state := .regWrite _ _ s

theorem SpiOnly.radioResetPulse (s : State) : SpiOnly s (Machine.radioResetPulse s) :=
  ⟨rfl, rfl, rfl, rfl, rfl, rfl,
    [.memWrite .radioRst s.params.rstAssert, .delay .rstLow, .memWrite .radioRst s.params.rstRelease, .delay .rstWait],
    by simp [Machine.radioResetPulse], rfl⟩

theorem SpiOnly.regWrites (ws : List (Addr7 × Byte)) (s : State) : SpiOnly s (Machine.regWrites ws s).state := by
  induction ws generalizing s with
  | nil => exact .refl s
  | cons w ws ih => exact .bind (.regWrite _ _ s) fun _ t _ => ih t

theorem SpiOnly.radioConfigure (f : Nat) (s : State) : SpiOnly s (Machine.radioConfigure f s).state :=
  .bind (.setMode _ s) fun _ t _ => .bind (.regWrites _ t) fun _ u _ => .bind (.regWrites _ u) fun _ v _ =>
    .bind (.regWrite _ _ v) fun _ w _ => .bind (.setMode _ w) fun _ x _ => .delay _ x

theorem SpiOnly.radioInit (f : Nat) (s : State) : SpiOnly s (Machine.radioInit f s).state := by
  have h : SpiOnly s (if s.params.hasReset then Machine.radioResetPulse s else s) := by
    split
    · exact .radioResetPulse s
    · exact .refl s
  refine .bind (h.trans (.regRead _ _)) fun id t _ => ?_
  split
  · exact .radioConfigure f t
  · exact .refl t

theorem SpiOnly.sendSetup (payload : List Byte) (s : State) : SpiOnly s (Machine.sendSetup payload s).state :=
  .bind (.setMode _ s) fun _ t _ => .bind (.regWrite _ _ t) fun _ u _ => .bind (.burstWrite _ _ u) fun _ v _ =>
    .bind (.regWrite _ _ v) fun _ w _ => .bind (.regWrite _ _ w) fun _ x _ => .bind (.regWrite _ _ x) fun _ y _ =>
      .setMode _ y

theorem SpiOnly.sendFinish (found : Bool) (s : State) : SpiOnly s (Machine.sendFinish found s).state := by
  cases found
  · exact .bind (.setMode _ s) fun _ t _ => .refl t
  · exact .bind (.regWrite _ _ s) fun _ t _ => .bind (.setMode _ t) fun _ u _ => .refl u

theorem SpiOnly.radioSend (payload : List Byte) (s : State) : SpiOnly s (Machine.radioSend payload s).state :=
  .bind (.sendSetup payload s) fun _ t _ => .bind (.regPoll _ _ _ t) fun r u _ => .sendFinish r.1 u

/-! ### Operations of the SPI side -/

theorem issueOutsideFrame_next {run : State → State} {s t : State} (h : issueOutsideFrame run s = .next t) :
    s.spi.inFrame = false ∧ t = run (startOp s) := by
  unfold issueOutsideFrame at h
  split at h
  · cases h
  · rename_i h1
    exact ⟨by simpa using h1, by simpa using h.symm⟩

theorem issueInsideFrame_next {run : State → State} {s t : State} (h : issueInsideFrame run s = .next t) :
    s.spi.inFrame = true ∧ t = run (startOp s) := by
  unfold issueInsideFrame at h
  split at h
  · cases h
  · rename_i h1
    exact ⟨by simpa using h1, by simpa using h.symm⟩

theorem issueOutsideFrame_of {run : State → State} {s : State} (h : s.spi.inFrame = false) :
    issueOutsideFrame run s = .next (run (startOp s)) := by simp [issueOutsideFrame, h]

theorem issueInsideFrame_of {run : State → State} {s : State} (h : s.spi.inFrame = true) :
    issueInsideFrame run s = .next (run (startOp s)) := by simp [issueInsideFrame, h]

/-- The operations of the SPI side, radio sequences included. -/
def onSpiSide : Instr → Bool
  | .i2cInit => false
  | .i2cStart => false
  | .i2cStop => false
  | .i2cWriteByte _ => false
  | .i2cReadByte _ => false
  | .i2cScan => false
  | .spiSelect => true
  | .spiDeselect => true
  | .spiXfer _ => true
  | .regRead _ => true
  | .regWrite _ _ => true
  | .regBurstWrite _ _ => true
  | .regPoll _ _ _ => true
  | .sensorInit => false
  | .sensorMeasure => false
  | .radioSetMode _ => true
  | .radioInit _ => true
  | .radioSend _ _ => true

/-- What an operation of the SPI side leaves alone, and its events. -/
structure SpiFrame (s t : State) : Prop where
  params    : t.params = s.params
  i2c       : t.i2c = s.i2c
  responder : t.responder = s.responder
  queue     : t.queue = s.queue
  trace     : ∃ es, t.trace = s.trace ++ es ∧ t.ustep = es.length

theorem SpiFrame.of_spiOnly {s t : State} (h : SpiOnly (startOp s) t) : SpiFrame s t := by
  obtain ⟨es, h1, h2⟩ := h.trace
  exact ⟨h.params, h.i2c, h.responder, h.queue, es, h1, by simpa using h2⟩

theorem SpiFrame.settle {s : State} {r : Ran Result} (h : SpiOnly (startOp s) r.state) :
    SpiFrame s r.settle := by
  cases r with
  | returned a t =>
    have := SpiFrame.of_spiOnly (s := s) (t := t) h
    exact ⟨this.params, this.i2c, this.responder, this.queue, this.trace⟩
  | hung t =>
    have := SpiFrame.of_spiOnly (s := s) (t := t) h
    exact ⟨this.params, this.i2c, this.responder, this.queue, this.trace⟩

/-- An operation of the SPI side leaves the I2C half, the parameters, the responder's answers and the queue alone, and
appends its events to the trace (R214, R62). -/
theorem exec_spiFrame {i : Instr} {s t : State} (hi : onSpiSide i = true) (h : exec i s = .next t) :
    SpiFrame s t := by
  cases i <;> simp only [onSpiSide, Bool.false_eq_true] at hi
  case spiSelect =>
    simp only [exec, execSpiSelect] at h
    rw [(issueOutsideFrame_next h).2]; exact .of_spiOnly (.select _)
  case spiDeselect =>
    simp only [exec, execSpiDeselect] at h
    rw [(issueInsideFrame_next h).2]; exact .of_spiOnly (.deselect _)
  case spiXfer out =>
    simp only [exec, execSpiXfer] at h
    rw [(issueInsideFrame_next h).2]; exact .settle (.bind (.transferByte _ _) fun _ t _ => .refl t)
  case regRead a =>
    simp only [exec, execRegRead] at h
    rw [(issueOutsideFrame_next h).2]; exact .settle (.bind (.regRead _ _) fun _ t _ => .refl t)
  case regWrite a v =>
    simp only [exec, execRegWrite] at h
    rw [(issueOutsideFrame_next h).2]; exact .settle (.bind (.regWrite _ _ _) fun _ t _ => .refl t)
  case regBurstWrite a bs =>
    simp only [exec, execRegBurstWrite] at h
    rw [(issueOutsideFrame_next h).2]; exact .settle (.bind (.burstWrite _ _ _) fun _ t _ => .refl t)
  case regPoll a m n =>
    simp only [exec, execRegPoll] at h
    rw [(issueOutsideFrame_next h).2]; exact .settle (.bind (.regPoll _ _ _ _) fun _ t _ => .refl t)
  case radioSetMode m =>
    simp only [exec, execRadioSetMode] at h
    rw [(issueOutsideFrame_next h).2]; exact .settle (.bind (.setMode _ _) fun _ t _ => .refl t)
  case radioInit f =>
    simp only [exec, execRadioInit] at h
    split at h
    · cases h
    · rw [(issueOutsideFrame_next h).2]; exact .settle (.radioInit _ _)
  case radioSend p l =>
    simp only [exec, execRadioSend] at h
    split at h
    · cases h
      exact ⟨rfl, rfl, rfl, rfl, [], by simp [failOp]⟩
    · split at h
      · cases h
      · rw [(issueOutsideFrame_next h).2]; exact .settle (.radioSend _ _)

/-! ### Operations of the I2C side -/

/-- I2C_INIT runs before readiness and wherever `initAllowed` lets it, and is then its micro-sequence. -/
theorem execI2cInit_next {s t : State} (h : execI2cInit s = .next t) :
    (s.i2c.ready = false ∨ initAllowed s.i2c.phase = true) ∧ t = setPhase .idle (initLines (startOp s)) := by
  unfold execI2cInit at h
  split at h
  · cases h
  · rename_i h1
    exact ⟨by cases h2 : s.i2c.ready <;> simp_all, by simpa using h.symm⟩

theorem execI2cInit_of {s : State} (h : s.i2c.ready = false ∨ initAllowed s.i2c.phase = true) :
    execI2cInit s = .next (setPhase .idle (initLines (startOp s))) := by
  unfold execI2cInit
  rcases h with h | h <;> simp [h]

/-- An operation of the I2C side but I2C_INIT leaves the SPI half, the parameters, the engine's answers and the queue
alone, and appends its events to the trace (R214, R62). -/
theorem exec_i2cOnly {i : Instr} {s t : State} (hi : onSpiSide i = false) (hn : i ≠ .i2cInit)
    (h : exec i s = .next t) : I2cOnly (startOp s) t := by
  cases i <;> simp only [onSpiSide, Bool.true_eq_false] at hi
  case i2cInit => exact absurd rfl hn
  case i2cStart =>
    simp only [exec, execI2cStart] at h
    rw [(issueI2c_next h).2.2]; exact (I2cOnly.startCondition (startOp s)).trans (.setPhase _ _)
  case i2cStop =>
    simp only [exec, execI2cStop] at h
    rw [(issueI2c_next h).2.2]; exact (I2cOnly.stopCondition (startOp s)).trans (.setPhase _ _)
  case i2cWriteByte v =>
    simp only [exec, execI2cWriteByte] at h
    rw [(issueI2c_next h).2.2]; exact ((I2cOnly.writeByte v (startOp s)).trans (.setPhase _ _)).trans (.returnOp _ _)
  case i2cReadByte k =>
    simp only [exec, execI2cReadByte] at h
    rw [(issueI2c_next h).2.2]; exact ((I2cOnly.readByte k (startOp s)).trans (.setPhase _ _)).trans (.returnOp _ _)
  case i2cScan =>
    simp only [exec, execI2cScan] at h
    rw [(issueI2c_next h).2.2]; exact (I2cOnly.scanFrom scanAddresses (startOp s)).trans (.returnOp _ _)
  case sensorInit =>
    simp only [exec, execSensorInit] at h
    rw [(issueI2c_next h).2.2]; exact I2cOnly.sensorInit (startOp s)
  case sensorMeasure =>
    simp only [exec, execSensorMeasure] at h
    rw [(issueI2c_next h).2.2]; exact I2cOnly.sensorMeasure (startOp s)

end Sys2Proof.Machine
end

