-- ==== Sys2Proof/Laws/Frames.lean ====
section
/-! SUPPORT. What sequences of frames do when the engine's listed answers complete: register accesses, polls and the
radio driver's parts, as compositions. -/

namespace Sys2Proof.Machine

/-- The state after a SPI sequence that left the SPI half `l`, performed the events `es` and left the answers `rest`. -/
def advanced (l : SpiLayer) (es : List Event) (rest : List EngineAnswer) (s : State) : State :=
  { s with
    spi := l
    trace := s.trace ++ es
    ustep := s.ustep + es.length
    engine := rest }

@[simp] theorem advanced_params (l : SpiLayer) (es : List Event) (rest : List EngineAnswer) (s : State) :
    (advanced l es rest s).params = s.params := rfl
@[simp] theorem advanced_engine (l : SpiLayer) (es : List Event) (rest : List EngineAnswer) (s : State) :
    (advanced l es rest s).engine = rest := rfl
@[simp] theorem advanced_spi (l : SpiLayer) (es : List Event) (rest : List EngineAnswer) (s : State) :
    (advanced l es rest s).spi = l := rfl

theorem advanced_advanced (l m : SpiLayer) (es fs : List Event) (rest more : List EngineAnswer) (s : State) :
    advanced m fs more (advanced l es rest s) = advanced m (es ++ fs) more s := by
  apply State.ext <;> simp [advanced, Nat.add_assoc]

theorem advanced_self (s : State) : advanced s.spi [] s.engine s = s := by
  apply State.ext <;> simp [advanced]

theorem delay_advanced (t : Duration) (l : SpiLayer) (es : List Event) (rest : List EngineAnswer) (s : State) :
    delay t (advanced l es rest s) = advanced l (es ++ [.delay t]) rest s := by
  apply State.ext <;> simp [advanced]
  rfl

theorem exchangeEvents_length (p : Params) (sent : List (Byte × EngineAnswer)) :
    (sent.flatMap fun x => exchangeEvents p x.1 x.2).length = exchangeCount p sent := by
  induction sent with
  | nil => rfl
  | cons x xs ih =>
    simp only [List.flatMap_cons, List.length_append, ih, exchangeCount, List.map_cons, List.sum_cons]
    simp [exchangeEvents, startedEvents]
    omega

theorem frameEvents_length (p : Params) (sent : List (Byte × EngineAnswer)) :
    (frameEvents p sent).length = 4 + exchangeCount p sent := by
  simp only [frameEvents, List.length_append, exchangeEvents_length, List.length_cons, List.length_nil]
  omega

/-- A completed frame is a sequence. -/
theorem afterFrame_advanced (sent : List (Byte × EngineAnswer)) (s : State) :
    afterFrame sent s =
      advanced (s.spi.framed s.params sent) (frameEvents s.params sent) (s.engine.drop sent.length) s := by
  apply State.ext <;> simp [afterFrame, advanced, frameEvents_length]

/-! ### Register accesses in sequence -/

theorem regRead_advanced {s : State} {l : SpiLayer} {es : List Event} {a b : EngineAnswer}
    {rest : List EngineAnswer} (addr : Addr7) (ha : completes s.params a) (hb : completes s.params b) :
    regRead addr (advanced l es (a :: b :: rest) s) =
      .returned (wordToByte b.miso)
        (advanced (l.framed s.params ((readFrame addr).zip [a, b]))
          (es ++ frameEvents s.params ((readFrame addr).zip [a, b])) rest s) := by
  rw [regRead_listed addr (s := advanced l es (a :: b :: rest) s) rfl ha hb, afterFrame_advanced,
    advanced_advanced]
  rfl

theorem regWrite_advanced {s : State} {l : SpiLayer} {es : List Event} {a b : EngineAnswer}
    {rest : List EngineAnswer} (addr : Addr7) (v : Byte) (ha : completes s.params a)
    (hb : completes s.params b) :
    regWrite addr v (advanced l es (a :: b :: rest) s) =
      .returned ()
        (advanced (l.framed s.params ((writeFrame addr v).zip [a, b]))
          (es ++ frameEvents s.params ((writeFrame addr v).zip [a, b])) rest s) := by
  rw [regWrite_listed addr v (s := advanced l es (a :: b :: rest) s) rfl ha hb, afterFrame_advanced,
    advanced_advanced]
  rfl

theorem burstWrite_advanced {s : State} {l : SpiLayer} {es : List Event} {a : EngineAnswer}
    {as rest : List EngineAnswer} (addr : Addr7) (bytes : List Byte) (hl : as.length = bytes.length)
    (ha : (a :: as).all (completes s.params)) :
    burstWrite addr bytes (advanced l es (a :: as ++ rest) s) =
      .returned ()
        (advanced (l.framed s.params ((cmdb true addr :: bytes).zip (a :: as)))
          (es ++ frameEvents s.params ((cmdb true addr :: bytes).zip (a :: as))) rest s) := by
  rw [burstWrite_listed addr bytes (s := advanced l es (a :: as ++ rest) s) rfl hl ha, afterFrame_advanced,
    advanced_advanced]
  have : ((cmdb true addr :: bytes).zip (a :: as)).length = (a :: as).length := by simp [hl]
  rw [this, advanced_engine, List.drop_left]
  rfl

/-- Two frames' worth of answers at the head of a list. -/
theorem split_two {as : List EngineAnswer} {n : Nat} (h : as.length = n + 2) :
    ∃ a b bs, as = a :: b :: bs ∧ bs.length = n := by
  match as, h with
  | a :: b :: bs, h => exact ⟨a, b, bs, rfl, by simpa using h⟩

/-- A list of register writes (R179). -/
theorem regWrites_advanced (ws : List (Addr7 × Byte)) : ∀ {s : State} {l : SpiLayer} {es : List Event}
    {as rest : List EngineAnswer}, as.length = 2 * ws.length → as.all (completes s.params) →
    regWrites ws (advanced l es (as ++ rest) s) =
      .returned ()
        (advanced (l.framedAll s.params (dealt (ws.map fun w => writeFrame w.1 w.2) as))
          (es ++ framesEvents s.params (dealt (ws.map fun w => writeFrame w.1 w.2) as)) rest s) := by
  induction ws with
  | nil =>
    intro s l es as rest hl _
    have : as = [] := by simpa using hl
    subst this
    simp [regWrites, dealt, framesEvents, SpiLayer.framedAll]
  | cons w ws ih =>
    intro s l es as rest hl hc
    obtain ⟨a, b, bs, rfl, hbs⟩ := split_two (n := 2 * ws.length) (by simpa [Nat.mul_add] using hl)
    simp only [List.all_cons, Bool.and_eq_true] at hc
    simp only [List.cons_append, regWrites]
    rw [regWrite_advanced _ _ hc.1 hc.2.1, Ran.bind_returned, ih hbs hc.2.2]
    simp [dealt, framesEvents, SpiLayer.framedAll, writeFrame]

/-- The frames of two lists take their answers one list after the other. -/
theorem dealt_append (fs gs : List (List Byte)) : ∀ (as bs : List EngineAnswer),
    as.length = fs.flatten.length → dealt (fs ++ gs) (as ++ bs) = dealt fs as ++ dealt gs bs := by
  induction fs with
  | nil =>
    intro as bs h
    have : as = [] := by simpa using h
    simp [this, dealt]
  | cons f fs ih =>
    intro as bs h
    rw [List.flatten_cons, List.length_append] at h
    obtain ⟨xs, ys, rfl, hx⟩ : ∃ xs ys, as = xs ++ ys ∧ xs.length = f.length :=
      ⟨as.take f.length, as.drop f.length, by simp, by simp; omega⟩
    have hy : ys.length = fs.flatten.length := by rw [List.length_append] at h; omega
    have hzip : ∀ zs : List EngineAnswer, f.zip (xs ++ zs) = f.zip xs := by
      intro zs
      have := List.zip_append (l₁ := f) (r₁ := ([] : List Byte)) (l₂ := xs) (r₂ := zs) hx.symm
      simpa using this
    simp only [List.cons_append, dealt, List.append_assoc, hzip, ← hx, List.drop_left]
    rw [ih _ _ hy]

theorem framedAll_append (p : Params) (fs gs : List (List (Byte × EngineAnswer))) (l : SpiLayer) :
    l.framedAll p (fs ++ gs) = (l.framedAll p fs).framedAll p gs := by simp [SpiLayer.framedAll]

theorem framesEvents_append (p : Params) (fs gs : List (List (Byte × EngineAnswer))) :
    framesEvents p (fs ++ gs) = framesEvents p fs ++ framesEvents p gs := by simp [framesEvents]

/-! ### Polls -/

/-- The loop of REG_POLL over polls that miss (R146). -/
theorem pollLoop_missed (addr : Addr7) (mask : Byte) (polls : List PollAnswer) :
    ∀ {s : State} {l : SpiLayer} {es : List Event} {rest : List EngineAnswer} {n : Nat} {flags : Byte},
    (∀ a ∈ polls, PollAnswer.complete s.params a = true) →
    (∀ a ∈ polls, PollAnswer.flags a &&& mask = 0#8) →
    pollLoop addr mask (polls.length + n) flags
        (advanced l es (pollAnswers polls ++ rest) { s with remaining := some (polls.length + n) }) =
      pollLoop addr mask n ((polls.getLast?.map PollAnswer.flags).getD flags)
        (advanced (l.framedAll s.params (pollFrames addr polls))
          (es ++ missedEvents s.params (pollFrames addr polls)) rest { s with remaining := some n }) := by
  induction polls with
  | nil => intro s l es rest n flags _ _; simp [pollAnswers, pollFrames, missedEvents, SpiLayer.framedAll]
  | cons a polls ih =>
    intro s l es rest n flags hc hm
    have hca : completes s.params a.1 = true ∧ completes s.params a.2 = true := by
      simpa [PollAnswer.complete] using hc a (by simp)
    have hma : maskedNonzero (wordToByte a.2.miso) mask = false := by
      have := hm a (by simp)
      simp only [PollAnswer.flags] at this
      simp [maskedNonzero, this]
    rw [show (a :: polls).length + n = (polls.length + n) + 1 by simp; omega]
    have e : pollAnswers (a :: polls) ++ rest = a.1 :: a.2 :: (pollAnswers polls ++ rest) := by
      simp [pollAnswers]
    rw [e, pollLoop, regRead_advanced addr (by exact hca.1) (by exact hca.2), Ran.bind_returned]
    simp only [hma, Bool.false_eq_true, if_false, delay_advanced]
    have := ih (s := s) (l := l.framed s.params ((readFrame addr).zip [a.1, a.2]))
      (es := es ++ frameEvents s.params ((readFrame addr).zip [a.1, a.2]) ++ [.delay .poll]) (rest := rest) (n := n)
      (flags := wordToByte a.2.miso) (fun x hx => hc x (by simp [hx])) (fun x hx => hm x (by simp [hx]))
    refine Eq.trans ?_ (this.trans ?_)
    · rfl
    · congr 1
      · cases polls with
        | nil => rfl
        | cons b bs =>
          rw [List.getLast?_cons_cons]
          cases hg : (b :: bs).getLast? with
          | none => simp at hg
          | some x => rfl
      · simp [pollFrames, missedEvents, SpiLayer.framedAll]

/-- REG_POLL that finds its bits after `missed` polls (R146). -/
theorem regPoll_finds {s : State} {l : SpiLayer} {es : List Event} {rest : List EngineAnswer} (addr : Addr7)
    (mask : Byte) {budget : Nat} {missed : List PollAnswer} {hit : PollAnswer} (hlt : missed.length < budget)
    (hc : ∀ a ∈ missed ++ [hit], PollAnswer.complete s.params a = true)
    (hm : ∀ a ∈ missed, PollAnswer.flags a &&& mask = 0#8) (hh : PollAnswer.flags hit &&& mask ≠ 0#8) :
    regPoll addr mask budget (advanced l es (pollAnswers (missed ++ [hit]) ++ rest) s) =
      .returned (true, PollAnswer.flags hit)
        (advanced (l.framedAll s.params (pollFrames addr (missed ++ [hit])))
          (es ++ missedEvents s.params (pollFrames addr missed) ++ framesEvents s.params (pollFrames addr [hit]))
          rest { s with remaining := none }) := by
  obtain ⟨k, rfl⟩ : ∃ k, budget = missed.length + (k + 1) := ⟨budget - missed.length - 1, by omega⟩
  have hch : completes s.params hit.1 = true ∧ completes s.params hit.2 = true := by
    simpa [PollAnswer.complete] using hc hit (by simp)
  have hhit : maskedNonzero (wordToByte hit.2.miso) mask = true := by
    simpa [maskedNonzero, PollAnswer.flags, Bool.eq_true_eq_not_eq_false] using hh
  have e : pollAnswers (missed ++ [hit]) ++ rest = pollAnswers missed ++ (hit.1 :: hit.2 :: rest) := by
    simp [pollAnswers]
  have := pollLoop_missed addr mask missed (s := s) (l := l) (es := es) (rest := hit.1 :: hit.2 :: rest)
    (n := k + 1) (flags := 0x00#8) (fun a ha => hc a (by simp [ha])) hm
  have last : ∀ flags : Byte,
      pollLoop addr mask (k + 1) flags
          (advanced (l.framedAll s.params (pollFrames addr missed))
            (es ++ missedEvents s.params (pollFrames addr missed)) (hit.1 :: hit.2 :: rest)
            { s with remaining := some (k + 1) }) =
        .returned (true, PollAnswer.flags hit)
          (advanced (l.framedAll s.params (pollFrames addr (missed ++ [hit])))
            (es ++ missedEvents s.params (pollFrames addr missed) ++ framesEvents s.params (pollFrames addr [hit]))
            rest { s with remaining := some (k + 1) }) := by
    intro flags
    rw [pollLoop, regRead_advanced addr (by exact hch.1) (by exact hch.2), Ran.bind_returned, hhit]
    simp [pollFrames, SpiLayer.framedAll, framesEvents, PollAnswer.flags]
  rw [regPoll, e]
  exact (congrArg (fun r => Ran.bind r _) (this.trans (last _))).trans rfl

/-- REG_POLL that never finds its bits (R146). -/
theorem regPoll_times_out {s : State} {l : SpiLayer} {es : List Event} {rest : List EngineAnswer} (addr : Addr7)
    (mask : Byte) {polls : List PollAnswer} (hc : ∀ a ∈ polls, PollAnswer.complete s.params a = true)
    (hm : ∀ a ∈ polls, PollAnswer.flags a &&& mask = 0#8) :
    regPoll addr mask polls.length (advanced l es (pollAnswers polls ++ rest) s) =
      .returned (false, (polls.getLast?.map PollAnswer.flags).getD 0x00#8)
        (advanced (l.framedAll s.params (pollFrames addr polls))
          (es ++ missedEvents s.params (pollFrames addr polls)) rest { s with remaining := none }) := by
  have := pollLoop_missed addr mask polls (s := s) (l := l) (es := es) (rest := rest) (n := 0)
    (flags := 0x00#8) hc hm
  rw [regPoll]
  exact (congrArg (fun r => Ran.bind r _) this).trans rfl

end Sys2Proof.Machine
end

