-- ==== Sys2Proof/Laws/Engine.lean ====
section
/-! SUPPORT. A run of the SPI side and the engine's answers: whatever the state lists, a run uses a list of answers that
could have been listed, and it returns exactly if every one of them completes its transfer; a run of a fixed number
of exchanges hangs at the first that does not complete. -/

namespace Sys2Proof.Machine

/-! ### Every run is the run of listed answers -/

/-- `s` with other listed answers. -/
def withEngine (answers : List EngineAnswer) (s : State) : State := { s with engine := answers }

/-- How a run ended, its final state listing other answers. -/
def Ran.withEngine {α : Type} (answers : List EngineAnswer) : Ran α → Ran α
  | .returned a s => .returned a (Machine.withEngine answers s)
  | .hung s => .hung (Machine.withEngine answers s)

/-- `as` are the answers of a run that ended so: all complete if it returned, all but the last if it hung. -/
def Ran.endsAfter {α : Type} (p : Params) (as : List EngineAnswer) : Ran α → Prop
  | .returned _ _ => as.all (completes p) = true
  | .hung _ => ∃ cs bad, as = cs ++ [bad] ∧ cs.all (completes p) = true ∧ completes p bad = false

/-- The run `f` from `s` uses exactly the answers `as`. -/
structure Uses {α : Type} (f : State → Ran α) (s : State) (as : List EngineAnswer) : Prop where
  params : (f s).state.params = s.params
  listed : answersListed as s.engine
  left   : (f s).state.engine = s.engine.drop as.length
  same   : ∀ rest, f (withEngine (as ++ rest) s) = (f s).withEngine rest
  ends   : (f s).endsAfter s.params as

theorem answersListed_append {as bs listed : List EngineAnswer} (ha : answersListed as listed)
    (hb : answersListed bs (listed.drop as.length)) : answersListed (as ++ bs) listed := by
  simp only [answersListed, List.length_drop] at *
  rw [List.take_append, ha, List.length_append, List.take_add, hb]

/-- A run that uses no answer. -/
theorem Uses.none {α : Type} {f : State → Ran α} {s : State} {a : α} {t : State} (h : f s = .returned a t)
    (hp : t.params = s.params) (he : t.engine = s.engine)
    (hs : ∀ answers, f (withEngine answers s) = .returned a (withEngine answers t)) : Uses f s [] where
  params := by rw [h]; exact hp
  listed := by simp [answersListed]
  left := by rw [h]; exact he
  same rest := by rw [h]; exact hs rest
  ends := by rw [h]; rfl

/-- Sequencing: the answers of the first part, then those of the second. -/
theorem Uses.bind {α β : Type} {f : State → Ran α} {k : α → State → Ran β} {s : State} {as : List EngineAnswer}
    (h : Uses f s as) (hk : ∀ a t, ∃ bs, Uses (k a) t bs) : ∃ cs, Uses (fun s => (f s).bind k) s cs := by
  have hsame := h.same
  have hends := h.ends
  have hleft := h.left
  have hparams := h.params
  cases hf : f s with
  | hung t =>
    rw [hf] at hsame hends hleft hparams
    exact ⟨as, by simpa [hf, Ran.state] using hparams, h.listed, by simpa [hf, Ran.state] using hleft,
      fun rest => by simp only [hsame, hf]; rfl, by simpa [hf, Ran.endsAfter] using hends⟩
  | returned a t =>
    rw [hf] at hsame hends hleft hparams
    obtain ⟨bs, hb⟩ := hk a t
    have ht : t.engine = s.engine.drop as.length := hleft
    have htp : t.params = s.params := hparams
    refine ⟨as ++ bs, ?_, answersListed_append h.listed (by rw [← ht]; exact hb.listed), ?_, fun rest => ?_, ?_⟩
    · simpa [hf, htp] using hb.params
    · simpa [hf, ht, Nat.add_comm] using hb.left
    · simp only [List.append_assoc, hsame, hf]
      exact hb.same rest
    · have he := hb.ends
      simp only [hf, Ran.bind_returned]
      have ha : as.all (completes s.params) = true := hends
      rw [htp] at he
      cases hr : k a t with
      | returned b u => rw [hr] at he; simpa [Ran.endsAfter, ha] using he
      | hung u =>
        rw [hr] at he
        obtain ⟨cs, bad, rfl, hc, hbad⟩ := he
        exact ⟨as ++ cs, bad, by simp, by simp [ha, hc], hbad⟩

/-- The run `f` from `s` is the run of some listed answers. -/
def Listable {α : Type} (f : State → Ran α) (s : State) : Prop := ∃ as, Uses f s as

theorem Listable.bind {α β : Type} {f : State → Ran α} {k : α → State → Ran β} {s : State} (h : Listable f s)
    (hk : ∀ a t, Listable (k a) t) : Listable (fun s => (f s).bind k) s :=
  h.elim fun _ h => h.bind hk

/-- A run after a change of state that the engine has no part in. -/
theorem Listable.after {α : Type} {f : State → Ran α} {g : State → State} {s : State} (h : Listable f (g s))
    (hp : (g s).params = s.params) (he : (g s).engine = s.engine)
    (hg : ∀ answers, g (withEngine answers s) = withEngine answers (g s)) : Listable (fun s => f (g s)) s := by
  obtain ⟨as, h⟩ := h
  exact ⟨as, h.params.trans hp, he ▸ h.listed, he ▸ h.left, fun rest => by rw [hg]; exact h.same rest,
    hp ▸ h.ends⟩

/-- A run whose operands are parameters. -/
theorem Listable.ofParams {α : Type} {f : Params → State → Ran α} {s : State} (h : Listable (f s.params) s) :
    Listable (fun s => f s.params s) s := by
  obtain ⟨as, h⟩ := h
  exact ⟨as, h.params, h.listed, h.left, h.same, h.ends⟩

theorem Listable.returned {α : Type} (a : α) (s : State) : Listable (Ran.returned a) s :=
  ⟨[], .none rfl rfl rfl fun _ => rfl⟩

theorem Listable.transferByte (out : Byte) (s : State) : Listable (Machine.transferByte out) s := by
  refine ⟨[exchangeAnswer out s], ?_, ?_, ?_, fun rest => ?_, ?_⟩
  · rw [transferByte_eq]; split <;> rfl
  · cases h : s.engine <;> simp [answersListed, exchangeAnswer, h]
  · rw [transferByte_eq]; split <;> simp [Ran.state, afterExchange, afterStart]
  · have h : exchangeAnswer out (withEngine ([exchangeAnswer out s] ++ rest) s) = exchangeAnswer out s := rfl
    rw [transferByte_eq, transferByte_eq, h]
    by_cases hc : completes s.params (exchangeAnswer out s) = true
    · rw [if_pos hc, if_pos (by exact hc)]; rfl
    · rw [if_neg hc, if_neg (by exact hc)]; rfl
  · rw [transferByte_eq]
    split
    · next h => simpa [Ran.endsAfter] using h
    · next h => exact ⟨[], _, rfl, rfl, by simpa using h⟩

/-- Deselect and return. -/
theorem Listable.deselect {α : Type} (a : α) (s : State) :
    Listable (fun s => Ran.returned a (deselectDevice s)) s :=
  (returned a _).after rfl rfl fun _ => rfl

theorem Listable.regRead (a : Addr7) (s : State) : Listable (Machine.regRead a) s :=
  ((transferByte (cmdb false a) (selectDevice s)).bind fun _ t => (transferByte Config.dummy t).bind fun v u =>
    deselect v u).after rfl rfl fun _ => rfl

theorem Listable.regWrite (a : Addr7) (v : Byte) (s : State) : Listable (Machine.regWrite a v) s :=
  ((transferByte (cmdb true a) (selectDevice s)).bind fun _ t => (transferByte v t).bind fun _ u =>
    deselect () u).after rfl rfl fun _ => rfl

theorem Listable.transferAll (bytes : List Byte) (s : State) : Listable (Machine.transferAll bytes) s := by
  induction bytes generalizing s with
  | nil => exact returned () s
  | cons b bs ih => exact (transferByte b s).bind fun _ t => ih t

theorem Listable.burstWrite (a : Addr7) (bytes : List Byte) (s : State) :
    Listable (Machine.burstWrite a bytes) s :=
  ((transferByte (cmdb true a) (selectDevice s)).bind fun _ t => (transferAll bytes t).bind fun _ u =>
    deselect () u).after rfl rfl fun _ => rfl

theorem Listable.pollLoop (a : Addr7) (mask : Byte) (n : Nat) (flags : Byte) (s : State) :
    Listable (Machine.pollLoop a mask n flags) s := by
  induction n generalizing flags s with
  | zero => exact returned (false, flags) s
  | succ n ih =>
    refine (regRead a s).bind fun f t => ?_
    by_cases hm : maskedNonzero f mask = true
    · simpa [hm] using returned (true, f) t
    · have := Listable.after (f := Machine.pollLoop a mask n f)
        (g := fun s => { delay .poll s with remaining := some n }) (s := t) (ih f _) rfl rfl fun _ => rfl
      simpa [hm] using this

theorem Listable.regPoll (a : Addr7) (mask : Byte) (n : Nat) (s : State) :
    Listable (Machine.regPoll a mask n) s :=
  Listable.bind
    (Listable.after (g := fun s => { s with remaining := some n }) (pollLoop a mask n 0x00#8 _) rfl rfl fun _ => rfl)
    fun r _ => Listable.after (f := Ran.returned r) (g := fun s => { s with remaining := none }) (returned r _)
      rfl rfl fun _ => rfl

theorem Listable.setMode (m : RadioMode) (s : State) : Listable (Machine.setMode m) s :=
  ofParams (f := fun p => Machine.regWrite p.regOpMode (opmode p m)) (regWrite _ _ s)

theorem Listable.regWrites (ws : List (Addr7 × Byte)) (s : State) : Listable (Machine.regWrites ws) s := by
  induction ws generalizing s with
  | nil => exact returned () s
  | cons w ws ih => exact (regWrite w.1 w.2 s).bind fun _ t => ih t

theorem Listable.radioConfigure (n : Nat) (s : State) : Listable (Machine.radioConfigure n) s :=
  (setMode .sleep s).bind fun _ t =>
    (ofParams (f := fun p => Machine.regWrites (frequencyWrites p n)) (regWrites _ t)).bind fun _ u =>
      (ofParams (f := fun p => Machine.regWrites p.configBlock) (regWrites _ u)).bind fun _ v =>
        (ofParams (f := fun p => Machine.regWrite p.regIrqFlags p.irqClearAll) (regWrite _ _ v)).bind fun _ w =>
          (setMode .standby w).bind fun _ _ => (returned Result.success _).after rfl rfl fun _ => rfl

theorem Listable.radioInit (n : Nat) (s : State) : Listable (Machine.radioInit n) s := by
  have body : ∀ s : State, Listable (fun s => (Machine.regRead s.params.regVersion s).bind fun id s =>
      if id = Config.radioIdExpected then Machine.radioConfigure n s
      else .returned (.failed .idMismatch) s) s := fun s =>
    (ofParams (f := fun p => Machine.regRead p.regVersion) (regRead _ s)).bind fun id t => by
      by_cases hid : id = Config.radioIdExpected
      · simpa [hid] using radioConfigure n t
      · simpa [hid] using returned (Result.failed .idMismatch) t
  refine Listable.after (g := fun s => if s.params.hasReset then Machine.radioResetPulse s else s) (body _) ?_ ?_ ?_
  · split <;> rfl
  · split <;> rfl
  · intro answers
    have : (withEngine answers s).params.hasReset = s.params.hasReset := rfl
    simp only [this]
    split <;> rfl

theorem Listable.sendSetup (payload : List Byte) (s : State) : Listable (Machine.sendSetup payload) s :=
  (setMode .standby s).bind fun _ t =>
    (ofParams (f := fun p => Machine.regWrite p.regFifoAddrPtr p.txBase) (regWrite _ _ t)).bind fun _ u =>
      (ofParams (f := fun p => Machine.burstWrite p.regFifo payload) (burstWrite _ _ u)).bind fun _ v =>
        (ofParams (f := fun p => Machine.regWrite p.regPayloadLength (BitVec.ofNat 8 payload.length))
          (regWrite _ _ v)).bind fun _ w =>
          (ofParams (f := fun p => Machine.regWrite p.regIrqFlags p.irqClearAll) (regWrite _ _ w)).bind fun _ x =>
            (ofParams (f := fun p => Machine.regWrite p.regDioMapping p.dioTxDoneMap) (regWrite _ _ x)).bind
              fun _ y => setMode .transmit y

theorem Listable.sendFinish (found : Bool) (s : State) : Listable (Machine.sendFinish found) s := by
  cases found
  · exact (setMode .standby s).bind fun _ t => returned (Result.failed .txTimeout) t
  · exact (ofParams (f := fun p => Machine.regWrite p.regIrqFlags p.irqClearTxDone) (regWrite _ _ s)).bind
      fun _ t => (setMode .standby t).bind fun _ u => returned Result.success u

theorem Listable.radioSend (payload : List Byte) (s : State) : Listable (Machine.radioSend payload) s :=
  (sendSetup payload s).bind fun _ t =>
    (ofParams (f := fun p => Machine.regPoll p.regIrqFlags p.txDoneMask p.nPoll) (regPoll _ _ _ t)).bind
      fun r u => sendFinish r.1 u

/-! ### Runs of a fixed number of exchanges -/

/-- Under parameters `p` the run takes `n` exchanges: it returns if their listed answers complete, and hangs at the first
that does not (R243). -/
structure Takes {α : Type} (f : State → Ran α) (p : Params) (n : Nat) : Prop where
  returns : ∀ {s : State} {as rest : List EngineAnswer}, s.params = p → s.engine = as ++ rest → as.length = n →
    as.all (completes p) = true → ∃ a t, f s = .returned a t ∧ t.params = p ∧ t.engine = rest
  hangs : ∀ {s : State} {as : List EngineAnswer} {bad : EngineAnswer} {rest : List EngineAnswer}, s.params = p →
    s.engine = as ++ bad :: rest → as.length < n → as.all (completes p) = true → completes p bad = false →
    ∃ t, f s = .hung t

theorem Takes.bind {α β : Type} {f : State → Ran α} {k : α → State → Ran β} {p : Params} {n m : Nat}
    (h : Takes f p n) (hk : ∀ a, Takes (k a) p m) : Takes (fun s => (f s).bind k) p (n + m) where
  returns {s as rest} hp he hl hc := by
    rw [← List.take_append_drop n as, List.all_append, Bool.and_eq_true] at hc
    obtain ⟨a, t, hf, htp, hte⟩ := h.returns (as := as.take n) (rest := as.drop n ++ rest) hp
      (by rw [← List.append_assoc, List.take_append_drop, he]) (by simp; omega) hc.1
    obtain ⟨b, u, hg, hu⟩ := (hk a).returns htp hte (by simp; omega) hc.2
    exact ⟨b, u, by simpa [hf] using hg, hu⟩
  hangs {s as bad rest} hp he hl hc hb := by
    by_cases hn : as.length < n
    · obtain ⟨t, ht⟩ := h.hangs hp he hn hc hb
      exact ⟨t, by simp [ht]⟩
    · rw [← List.take_append_drop n as, List.all_append, Bool.and_eq_true] at hc
      obtain ⟨a, t, hf, htp, hte⟩ := h.returns (as := as.take n) (rest := as.drop n ++ bad :: rest) hp
        (by rw [← List.append_assoc, List.take_append_drop, he]) (by simp; omega) hc.1
      obtain ⟨u, hg⟩ := (hk a).hangs htp hte (by simp; omega) hc.2 hb
      exact ⟨u, by simpa [hf] using hg⟩

/-- A run after a change of state that the engine has no part in. -/
theorem Takes.after {α : Type} {f : State → Ran α} {g : State → State} {p : Params} {n : Nat} (h : Takes f p n)
    (hp : ∀ s, (g s).params = s.params) (he : ∀ s, (g s).engine = s.engine) : Takes (fun s => f (g s)) p n where
  returns {s _ _} hsp hse hl hc := h.returns ((hp s).trans hsp) ((he s).trans hse) hl hc
  hangs {s _ _ _} hsp hse hl hc hb := h.hangs ((hp s).trans hsp) ((he s).trans hse) hl hc hb

/-- A run whose operands are parameters. -/
theorem Takes.ofParams {α : Type} {f : Params → State → Ran α} {p : Params} {n : Nat} (h : Takes (f p) p n) :
    Takes (fun s => f s.params s) p n where
  returns hp := by subst hp; exact h.returns rfl
  hangs hp := by subst hp; exact h.hangs rfl

theorem Takes.returned {α : Type} (a : α) (p : Params) : Takes (Ran.returned a) p 0 where
  returns {s as rest} hp he hl _ := ⟨a, s, rfl, hp, by simpa [List.length_eq_zero_iff.1 hl] using he⟩
  hangs _ _ hl := by omega

theorem Takes.transferByte (out : Byte) (p : Params) : Takes (Machine.transferByte out) p 1 where
  returns {s as rest} hp he hl hc := by
    obtain ⟨a, rfl⟩ := List.length_eq_one_iff.1 hl
    subst hp
    exact ⟨_, _, transferByte_listed out (rest := rest) he (by simpa using hc), rfl, by simp [he]⟩
  hangs {s as bad rest} hp he hl _ hb := by
    obtain rfl : as = [] := List.length_eq_zero_iff.1 (by omega)
    subst hp
    have : exchangeAnswer out s = bad := by simp [exchangeAnswer, he]
    exact ⟨_, by rw [transferByte_eq, this, if_neg (by simp [hb])]⟩

theorem Takes.deselect {α : Type} (a : α) (p : Params) : Takes (fun s => Ran.returned a (deselectDevice s)) p 0 :=
  (returned a p).after (fun _ => rfl) fun _ => rfl

theorem Takes.regRead (a : Addr7) (p : Params) : Takes (Machine.regRead a) p 2 :=
  ((transferByte (cmdb false a) p).bind fun _ => (transferByte Config.dummy p).bind fun v =>
    deselect v p).after (fun _ => rfl) fun _ => rfl

theorem Takes.regWrite (a : Addr7) (v : Byte) (p : Params) : Takes (Machine.regWrite a v) p 2 :=
  ((transferByte (cmdb true a) p).bind fun _ => (transferByte v p).bind fun _ =>
    deselect () p).after (fun _ => rfl) fun _ => rfl

theorem Takes.transferAll (bytes : List Byte) (p : Params) : Takes (Machine.transferAll bytes) p bytes.length := by
  induction bytes with
  | nil => exact returned () p
  | cons b bs ih =>
    rw [List.length_cons, Nat.add_comm]
    exact (transferByte b p).bind fun _ => ih

theorem Takes.burstWrite (a : Addr7) (bytes : List Byte) (p : Params) :
    Takes (Machine.burstWrite a bytes) p (1 + bytes.length) :=
  ((transferByte (cmdb true a) p).bind fun _ => (transferAll bytes p).bind fun _ => deselect () p).after
    (fun _ => rfl) fun _ => rfl

theorem Takes.setMode (m : RadioMode) (p : Params) : Takes (Machine.setMode m) p 2 :=
  ofParams (f := fun p => Machine.regWrite p.regOpMode (opmode p m)) (regWrite _ _ p)

theorem Takes.regWrites (ws : List (Addr7 × Byte)) (p : Params) :
    Takes (Machine.regWrites ws) p (2 * ws.length) := by
  induction ws with
  | nil => exact returned () p
  | cons w ws ih =>
    rw [List.length_cons, Nat.mul_succ, Nat.add_comm]
    exact (regWrite w.1 w.2 p).bind fun _ => ih

/-- The configuration of a radio: Sleep, three frequency bytes, CONFIG_BLOCK, flag clear, Standby (R179). -/
theorem Takes.radioConfigure (n : Nat) (p : Params) :
    Takes (Machine.radioConfigure n) p (2 + (6 + (2 * p.configBlock.length + (2 + (2 + 0))))) :=
  (setMode .sleep p).bind fun _ =>
    (ofParams (f := fun p => Machine.regWrites (frequencyWrites p n)) (regWrites _ p)).bind fun _ =>
      (ofParams (f := fun p => Machine.regWrites p.configBlock) (regWrites _ p)).bind fun _ =>
        (ofParams (f := fun p => Machine.regWrite p.regIrqFlags p.irqClearAll) (regWrite _ _ p)).bind fun _ =>
          (setMode .standby p).bind fun _ => (returned Result.success p).after (fun _ => rfl) fun _ => rfl

/-- The set-up of RADIO_SEND: six register writes and the payload's burst (R181). -/
theorem Takes.sendSetup (payload : List Byte) (p : Params) :
    Takes (Machine.sendSetup payload) p (2 + (2 + ((1 + payload.length) + (2 + (2 + (2 + 2)))))) :=
  (setMode .standby p).bind fun _ =>
    (ofParams (f := fun p => Machine.regWrite p.regFifoAddrPtr p.txBase) (regWrite _ _ p)).bind fun _ =>
      (ofParams (f := fun p => Machine.burstWrite p.regFifo payload) (burstWrite _ _ p)).bind fun _ =>
        (ofParams (f := fun p => Machine.regWrite p.regPayloadLength (BitVec.ofNat 8 payload.length))
          (regWrite _ _ p)).bind fun _ =>
          (ofParams (f := fun p => Machine.regWrite p.regIrqFlags p.irqClearAll) (regWrite _ _ p)).bind fun _ =>
            (ofParams (f := fun p => Machine.regWrite p.regDioMapping p.dioTxDoneMap) (regWrite _ _ p)).bind
              fun _ => setMode .transmit p

/-- The end of RADIO_SEND: the flag clear and Standby, or Standby alone (R181). -/
theorem Takes.sendFinish (found : Bool) (p : Params) :
    Takes (Machine.sendFinish found) p (if found then 4 else 2) := by
  cases found
  · exact (setMode .standby p).bind fun _ => returned (Result.failed .txTimeout) p
  · exact (ofParams (f := fun p => Machine.regWrite p.regIrqFlags p.irqClearTxDone) (regWrite _ _ p)).bind
      fun _ => (setMode .standby p).bind fun _ => returned Result.success p

/-- The loop of REG_POLL hangs in the poll whose exchange does not complete, the polls before it having missed (R146,
R243). -/
theorem pollLoop_hangs (addr : Addr7) (mask : Byte) (p : Params) (missed : List PollAnswer) :
    ∀ {s : State} {as : List EngineAnswer} {bad : EngineAnswer} {rest : List EngineAnswer} {n : Nat} {flags : Byte},
    s.params = p → s.engine = pollAnswers missed ++ as ++ bad :: rest → missed.length < n → as.length < 2 →
    (∀ a ∈ missed, PollAnswer.complete p a = true ∧ PollAnswer.flags a &&& mask = 0#8) →
    as.all (completes p) = true → completes p bad = false → ∃ t, pollLoop addr mask n flags s = .hung t := by
  induction missed with
  | nil =>
    intro s as bad rest n flags hp he hn hl _ hc hb
    obtain ⟨k, rfl⟩ : ∃ k, n = k + 1 := ⟨n - 1, by simp at hn; omega⟩
    obtain ⟨t, ht⟩ := (Takes.regRead addr p).hangs (as := as) (rest := rest) hp (by simpa [pollAnswers] using he)
      hl hc hb
    exact ⟨t, by simp [pollLoop, ht]⟩
  | cons a missed ih =>
    intro s as bad rest n flags hp he hn hl hm hc hb
    obtain ⟨k, rfl⟩ : ∃ k, n = k + 1 := ⟨n - 1, by simp at hn; omega⟩
    subst hp
    obtain ⟨ha, hf⟩ := hm a (by simp)
    simp only [PollAnswer.complete, Bool.and_eq_true] at ha
    have he' : s.engine = a.1 :: a.2 :: (pollAnswers missed ++ as ++ bad :: rest) := by
      simpa [pollAnswers] using he
    have hz : maskedNonzero (wordToByte a.2.miso) mask = false := by
      simp only [PollAnswer.flags] at hf
      simp [maskedNonzero, hf]
    rw [pollLoop, regRead_listed addr he' ha.1 ha.2, Ran.bind_returned]
    simp only [hz, Bool.false_eq_true, if_false]
    exact ih (as := as) (bad := bad) (rest := rest) rfl (by simp [delay, emit, he', readFrame]) (by simpa using hn) hl
      (fun x hx => hm x (by simp [hx])) hc hb

theorem regPoll_hangs (addr : Addr7) (mask : Byte) {s : State} {missed : List PollAnswer} {as : List EngineAnswer}
    {bad : EngineAnswer} {rest : List EngineAnswer} {budget : Nat}
    (he : s.engine = pollAnswers missed ++ as ++ bad :: rest) (hn : missed.length < budget) (hl : as.length < 2)
    (hm : ∀ a ∈ missed, PollAnswer.complete s.params a = true ∧ PollAnswer.flags a &&& mask = 0#8)
    (hc : as.all (completes s.params) = true) (hb : completes s.params bad = false) :
    ∃ t, regPoll addr mask budget s = .hung t := by
  obtain ⟨t, ht⟩ := pollLoop_hangs addr mask s.params missed (s := { s with remaining := some budget })
    (flags := 0x00#8) rfl he hn hl hm hc hb
  exact ⟨t, by simp [regPoll, ht]⟩

/-! ### What a run that returned has done, whatever was listed -/

theorem Ran.withEngine_self {α : Type} (r : Ran α) : r.withEngine r.state.engine = r := by cases r <;> rfl

/-- A run is the run of its answers listed before what it leaves. -/
theorem Uses.self {α : Type} {f : State → Ran α} {s : State} {as : List EngineAnswer} (h : Uses f s as) :
    f (withEngine (as ++ s.engine.drop as.length) s) = f s := by
  rw [h.same, ← h.left, Ran.withEngine_self]

/-- A run of `n` exchanges that returned used `n` answers. -/
theorem Uses.length_eq {α : Type} {f : State → Ran α} {s : State} {as : List EngineAnswer} {n : Nat} {a : α}
    {t : State} (h : Uses f s as) (hn : Takes f s.params n) (hf : f s = .returned a t) : as.length = n := by
  have hc : as.all (completes s.params) = true := by simpa [hf, Ran.endsAfter] using h.ends
  rcases Nat.lt_trichotomy as.length n with hl | hl | hl
  · obtain ⟨u, hu⟩ := hn.hangs (s := withEngine (as ++ [⟨[], 0⟩]) s) (bad := ⟨[], 0⟩) (rest := []) rfl rfl hl hc rfl
    rw [h.same, hf] at hu
    cases hu
  · exact hl
  · rw [← List.take_append_drop n as, List.all_append, Bool.and_eq_true] at hc
    obtain ⟨b, u, hu, -, he⟩ := hn.returns (s := withEngine as s) (as := as.take n) (rest := as.drop n) rfl
      (by simp [Machine.withEngine]) (by simp; omega) hc.1
    have := h.same []
    rw [List.append_nil, hu, hf] at this
    injection this with _ ht
    rw [ht] at he
    have : (as.drop n).length = 0 := by rw [← he]; rfl
    rw [List.length_drop] at this
    omega

/-- A register access that returned used two answers, both of which completed. -/
theorem Uses.two {α : Type} {f : State → Ran α} {s : State} {a : α} {t : State} (h : Listable f s)
    (hn : Takes f s.params 2) (hf : f s = .returned a t) :
    ∃ x y, answersListed [x, y] s.engine ∧ completes s.params x = true ∧ completes s.params y = true ∧
      f (withEngine (x :: y :: s.engine.drop 2) s) = .returned a t := by
  obtain ⟨as, h⟩ := h
  have hl := h.length_eq hn hf
  match as, hl with
  | [x, y], _ =>
    have hc : completes s.params x = true ∧ completes s.params y = true := by
      simpa [hf, Ran.endsAfter] using h.ends
    exact ⟨x, y, h.listed, hc.1, hc.2, h.self.trans hf⟩

theorem afterFrame_withEngine (sent : List (Byte × EngineAnswer)) {answers : List EngineAnswer} {s : State}
    (h : answers.drop sent.length = s.engine.drop sent.length) :
    afterFrame sent (withEngine answers s) = afterFrame sent s := by
  simp [afterFrame, withEngine, h]

/-- REG_READ's micro-sequence, if it returned (R143, R147). -/
theorem regRead_returned {addr : Addr7} {s t : State} {v : Byte} (h : regRead addr s = .returned v t) :
    ∃ a b, answersListed [a, b] s.engine ∧ completes s.params a = true ∧ completes s.params b = true ∧
      v = wordToByte b.miso ∧ t = afterFrame ((readFrame addr).zip [a, b]) s := by
  obtain ⟨a, b, hl, ha, hb, hr⟩ := Uses.two (.regRead addr s) (.regRead addr _) h
  rw [regRead_listed addr rfl (by exact ha) (by exact hb), afterFrame_withEngine _ (by simp [readFrame])] at hr
  injection hr with hv ht
  exact ⟨a, b, hl, ha, hb, hv.symm, ht.symm⟩

/-- REG_WRITE's micro-sequence, if it returned (R144, R147). -/
theorem regWrite_returned {addr : Addr7} {v : Byte} {s t : State} (h : regWrite addr v s = .returned () t) :
    ∃ a b, answersListed [a, b] s.engine ∧ completes s.params a = true ∧ completes s.params b = true ∧
      t = afterFrame ((writeFrame addr v).zip [a, b]) s := by
  obtain ⟨a, b, hl, ha, hb, hr⟩ := Uses.two (.regWrite addr v s) (.regWrite addr v _) h
  rw [regWrite_listed addr v rfl (by exact ha) (by exact hb), afterFrame_withEngine _ (by simp [writeFrame])] at hr
  injection hr with _ ht
  exact ⟨a, b, hl, ha, hb, ht.symm⟩

/-- REG_BURST_WRITE's micro-sequence, if it returned (R145, R147). -/
theorem burstWrite_returned {addr : Addr7} {bytes : List Byte} {s t : State}
    (h : burstWrite addr bytes s = .returned () t) :
    ∃ as, as.length = 1 + bytes.length ∧ answersListed as s.engine ∧ as.all (completes s.params) = true ∧
      t = afterFrame ((cmdb true addr :: bytes).zip as) s := by
  obtain ⟨as, hu⟩ := Listable.burstWrite addr bytes s
  have hl := hu.length_eq (.burstWrite addr bytes _) h
  have hc : as.all (completes s.params) = true := by simpa [h, Ran.endsAfter] using hu.ends
  refine ⟨as, hl, hu.listed, hc, ?_⟩
  match as, hl with
  | [], hl => simp at hl; omega
  | a :: as, hl =>
    have hl' : as.length = bytes.length := by simp at hl; omega
    have hr := hu.self.trans h
    have hz : ((cmdb true addr :: bytes).zip (a :: as)).length = (a :: as).length := by simp [hl']
    rw [burstWrite_listed (s := withEngine (a :: as ++ s.engine.drop (a :: as).length) s) addr bytes rfl hl' hc, afterFrame_withEngine _ (by
      rw [hz, List.drop_left])] at hr
    injection hr with _ ht
    exact ht.symm

/-- A run that goes on after an unsuccessful poll. -/
theorem advanced_poll (l m : SpiLayer) (es fs : List Event) (rest more : List EngineAnswer) (s : State)
    (n left : Option Nat) :
    ({ advanced m fs more { delay .poll (advanced l es rest s) with remaining := n } with remaining := left } : State) =
      { advanced m (es ++ [.delay .poll] ++ fs) more s with remaining := left } := by
  apply State.ext <;> simp [advanced, delay, emit]
  omega

/-- The loop of REG_POLL, if it returned: polls that missed, then one that met the mask or none for want of budget (R146). -/
theorem pollLoop_returned (addr : Addr7) (mask : Byte) (n : Nat) : ∀ {s t : State} {flags : Byte} {r : Bool × Byte},
    pollLoop addr mask n flags s = .returned r t →
    ∃ (missed : List PollAnswer) (hit : Option PollAnswer) (left : Option Nat),
      (∀ a ∈ missed, PollAnswer.complete s.params a = true ∧ PollAnswer.flags a &&& mask = 0#8) ∧
      (∀ a, hit = some a → missed.length < n ∧ PollAnswer.complete s.params a = true ∧
        PollAnswer.flags a &&& mask ≠ 0#8) ∧
      (hit = none → missed.length = n) ∧
      answersListed (pollAnswers (missed ++ hit.toList)) s.engine ∧
      r = (hit.isSome, ((missed ++ hit.toList).getLast?.map PollAnswer.flags).getD flags) ∧
      t = { advanced (s.spi.framedAll s.params (pollFrames addr (missed ++ hit.toList)))
          (missedEvents s.params (pollFrames addr missed) ++ framesEvents s.params (pollFrames addr hit.toList))
          (s.engine.drop (pollAnswers (missed ++ hit.toList)).length) s with remaining := left } := by
  induction n with
  | zero =>
    intro s t flags r h
    injection h with hr ht
    subst hr ht
    refine ⟨[], none, s.remaining, by simp, by simp, by simp, by simp [pollAnswers, answersListed], rfl, ?_⟩
    apply State.ext <;> simp [advanced, pollFrames, missedEvents, framesEvents, pollAnswers, SpiLayer.framedAll]
  | succ n ih =>
    intro s t flags r h
    rw [pollLoop] at h
    cases hr : regRead addr s with
    | hung u => rw [hr] at h; cases h
    | returned v u =>
      rw [hr, Ran.bind_returned] at h
      obtain ⟨a, b, hl, ha, hb, rfl, rfl⟩ := regRead_returned hr
      have hca : PollAnswer.complete s.params (a, b) = true := by simp [PollAnswer.complete, ha, hb]
      by_cases hm : maskedNonzero (wordToByte b.miso) mask = true
      · simp only [hm, if_true] at h
        injection h with hr ht
        subst hr ht
        have hf : PollAnswer.flags (a, b) &&& mask ≠ 0#8 := by
          simpa [maskedNonzero, PollAnswer.flags] using hm
        refine ⟨[], some (a, b), s.remaining, by simp, ?_, by simp, by simpa [pollAnswers] using hl, rfl, ?_⟩
        · rintro x ⟨⟩; exact ⟨by simp, hca, hf⟩
        · rw [afterFrame_advanced]
          apply State.ext <;>
            simp [advanced, pollFrames, missedEvents, framesEvents, pollAnswers, SpiLayer.framedAll, readFrame]
      · simp only [hm, if_false, Bool.false_eq_true] at h
        have hf : PollAnswer.flags (a, b) &&& mask = 0#8 := by
          simpa [maskedNonzero, PollAnswer.flags] using hm
        obtain ⟨missed, hit, left, h1, h2, h3, h4, h5, h6⟩ := ih h
        refine ⟨(a, b) :: missed, hit, left, ?_, ?_, ?_, ?_, ?_, ?_⟩
        · intro x hx
          rcases List.mem_cons.1 hx with rfl | hx
          · exact ⟨hca, hf⟩
          · exact h1 x hx
        · intro x hx
          obtain ⟨k1, k2⟩ := h2 x hx
          exact ⟨by simpa using k1, k2⟩
        · intro hx; simpa using h3 hx
        · have := answersListed_append (as := [a, b]) (bs := pollAnswers (missed ++ hit.toList)) hl
            (by simpa [delay, emit, readFrame] using h4)
          simpa [pollAnswers] using this
        · rw [h5]
          congr 1
          cases hg : (missed ++ hit.toList) with
          | nil =>
            rw [List.append_eq_nil_iff] at hg
            simp [hg.1, hg.2, PollAnswer.flags]
          | cons y ys =>
            rw [List.cons_append, hg, List.getLast?_cons_cons]
            cases hz : (y :: ys).getLast? with
            | none => simp at hz
            | some z => rfl
        · have two : ∀ k, 2 + k = k + 1 + 1 := fun k => by omega
          rw [h6, afterFrame_advanced, advanced_poll]
          simp [two, delay, emit, pollFrames, missedEvents, pollAnswers, SpiLayer.framedAll, readFrame]

end Sys2Proof.Machine
end

