-- ==== Sys2Proof/Laws/I2cMaster.lean ====
section
/-! SUPPORT. What each micro-sequence of the I2C master does to a state whose line word is known: which words it
writes, what it samples, and which state it leaves. -/

namespace Sys2Proof.Machine

/-! ### Line changes -/

/-- The state after one line change that writes the levels `l`. -/
def afterLine (l : Levels) (s : State) : State :=
  { s with
    i2c := { s.i2c with lw := l.word s.params, i2cW := l.word s.params }
    trace := s.trace ++ [.memWrite .i2cW (l.word s.params), .delay .settle]
    ustep := s.ustep + 2 }

@[simp] theorem afterLine_params (l : Levels) (s : State) : (afterLine l s).params = s.params := rfl
@[simp] theorem afterLine_spi (l : Levels) (s : State) : (afterLine l s).spi = s.spi := rfl
@[simp] theorem afterLine_ustep (l : Levels) (s : State) : (afterLine l s).ustep = s.ustep + 2 := rfl
@[simp] theorem afterLine_remaining (l : Levels) (s : State) : (afterLine l s).remaining = s.remaining := rfl
@[simp] theorem afterLine_hung (l : Levels) (s : State) : (afterLine l s).hung = s.hung := rfl
@[simp] theorem afterLine_result (l : Levels) (s : State) : (afterLine l s).result = s.result := rfl
@[simp] theorem afterLine_responder (l : Levels) (s : State) : (afterLine l s).responder = s.responder := rfl
@[simp] theorem afterLine_engine (l : Levels) (s : State) : (afterLine l s).engine = s.engine := rfl
@[simp] theorem afterLine_queue (l : Levels) (s : State) : (afterLine l s).queue = s.queue := rfl
@[simp] theorem afterLine_i2c (l : Levels) (s : State) :
    (afterLine l s).i2c = { s.i2c with lw := l.word s.params, i2cW := l.word s.params } := rfl
@[simp] theorem afterLine_trace (l : Levels) (s : State) :
    (afterLine l s).trace = s.trace ++ [.memWrite .i2cW (l.word s.params), .delay .settle] := rfl

/-- A line change of a known line word is the line change that writes the new levels (R100). -/
theorem setLine_eq {s : State} {l : Levels} (hp : s.params.layoutWf) (h : s.i2c.lw = l.word s.params)
    (f : LineField) (b : Bool) :
    setLine f b s = afterLine
      (match f with
        | .scl => ⟨b, l.sda, l.oe⟩
        | .sda => ⟨l.scl, b, l.oe⟩
        | .oe => ⟨l.scl, l.sda, b⟩) s := by
  cases f <;> apply State.ext <;>
    simp [h, Levels.word, linePos, setBit_lwf_scl hp, setBit_lwf_sda hp, setBit_lwf_oe hp]

theorem setLine_afterLine {s : State} (hp : s.params.layoutWf) (l : Levels) (f : LineField) (b : Bool) :
    setLine f b (afterLine l s) = afterLine
      (match f with
        | .scl => ⟨b, l.sda, l.oe⟩
        | .sda => ⟨l.scl, b, l.oe⟩
        | .oe => ⟨l.scl, l.sda, b⟩) (afterLine l s) :=
  setLine_eq (by simpa using hp) (by simp) f b

/-- The state after a list of line changes. -/
def afterLines (ls : List Levels) (s : State) : State := ls.foldl (fun s l => afterLine l s) s

@[simp] theorem afterLines_nil (s : State) : afterLines [] s = s := rfl
@[simp] theorem afterLines_cons (l : Levels) (ls : List Levels) (s : State) :
    afterLines (l :: ls) s = afterLines ls (afterLine l s) := rfl
theorem afterLines_append (ls ms : List Levels) (s : State) :
    afterLines (ls ++ ms) s = afterLines ms (afterLines ls s) := by simp [afterLines]

@[simp] theorem lineEvents_nil (p : Params) : lineEvents p [] = [] := rfl
@[simp] theorem lineEvents_cons (p : Params) (l : Levels) (ls : List Levels) :
    lineEvents p (l :: ls) = [.memWrite .i2cW (l.word p), .delay .settle] ++ lineEvents p ls := rfl
@[simp] theorem lineEvents_append (p : Params) (ls ms : List Levels) :
    lineEvents p (ls ++ ms) = lineEvents p ls ++ lineEvents p ms := by simp [lineEvents]

/-- What a list of line changes does, field by field. -/
theorem afterLines_concat (ls : List Levels) (l : Levels) (s : State) :
    afterLines (ls ++ [l]) s =
      { s with
        i2c := { s.i2c with lw := l.word s.params, i2cW := l.word s.params }
        trace := s.trace ++ lineEvents s.params (ls ++ [l])
        ustep := s.ustep + 2 * (ls.length + 1) } := by
  induction ls generalizing s with
  | nil => simp [afterLine]
  | cons m ms ih =>
    rw [List.cons_append, afterLines_cons, ih]
    apply State.ext <;> simp
    omega

/-! ### Samples -/

/-- The state after a sample answered `a` on a released line. -/
def afterSample (a : ResponderAnswer) (s : State) : State :=
  { s with
    i2c := { s.i2c with i2cR := releasedWord s.params a }
    trace := s.trace ++ [.memRead .i2cR (releasedWord s.params a)]
    ustep := s.ustep + 1
    responder := s.responder.tail }

@[simp] theorem afterSample_params (a : ResponderAnswer) (s : State) : (afterSample a s).params = s.params := rfl
@[simp] theorem afterSample_i2c_lw (a : ResponderAnswer) (s : State) :
    (afterSample a s).i2c.lw = s.i2c.lw := rfl

theorem setLine_afterSample {s : State} (hp : s.params.layoutWf) (a : ResponderAnswer) (l : Levels)
    (f : LineField) (b : Bool) :
    setLine f b (afterSample a (afterLine l s)) = afterLine
      (match f with
        | .scl => ⟨b, l.sda, l.oe⟩
        | .sda => ⟨l.scl, b, l.oe⟩
        | .oe => ⟨l.scl, l.sda, b⟩) (afterSample a (afterLine l s)) :=
  setLine_eq (by simpa using hp) (by simp) f b

@[simp] theorem testBit_releasedWord (p : Params) (a : ResponderAnswer) :
    (releasedWord p a).testBit p.sdaInBit = !a.pull := by simp [releasedWord]

/-- A sample of a released line reads low exactly if the responder pulls (R101, R23). -/
theorem sample_released {s : State} {l : Levels} (hp : s.params.layoutWf)
    (h : s.i2c.i2cW = l.word s.params) (hoe : l.oe = false) :
    sample s = (!(responderAnswer s).pull, afterSample (responderAnswer s) s) := by
  have hw : i2cRWord s = releasedWord s.params (responderAnswer s) := by
    simp only [i2cRWord, sdaLine, h, Levels.word, lineField_lwf_oe hp, lineField_lwf_sda hp, hoe, sdaLevel,
      releasedWord]
  apply Prod.ext
  · simp [sample, hw]
  · apply State.ext <;> simp [hw, afterSample]

/-! ### The micro-sequences -/

theorem startCondition_eq {s : State} {l : Levels} (hp : s.params.layoutWf) (h : s.i2c.lw = l.word s.params) :
    startCondition s = afterLines (startLevels l.scl l.oe) s := by
  simp only [startCondition, setLine_eq hp h, setLine_afterLine, afterLine_params, hp, startLevels,
    afterLines_cons, afterLines_nil]

theorem stopCondition_eq {s : State} {l : Levels} (hp : s.params.layoutWf) (h : s.i2c.lw = l.word s.params) :
    stopCondition s = afterLines (stopLevels l.scl l.oe) s := by
  simp only [stopCondition, setLine_eq hp h, setLine_afterLine, afterLine_params, hp, stopLevels,
    afterLines_cons, afterLines_nil]

/-- The state I2C_WRITE_BYTE's micro-sequence leaves. -/
def afterWrite (sda : Bool) (value : Byte) (a : ResponderAnswer) (s : State) : State :=
  afterLine ⟨false, value.getLsbD 0, false⟩ (afterSample a (afterLines (writeLevels sda value) s))

/-- The answer to the sample of I2C_WRITE_BYTE. -/
def writeAnswer (sda : Bool) (value : Byte) (s : State) : ResponderAnswer :=
  s.responder.headD (Config.responder (s.trace ++ lineEvents s.params (writeLevels sda value)))

theorem writeByte_eq {s : State} {l : Levels} (hp : s.params.layoutWf) (h : s.i2c.lw = l.word s.params)
    (hscl : l.scl = false) (value : Byte) :
    writeByte value s =
      ((writeAnswer l.sda value s).pull, afterWrite l.sda value (writeAnswer l.sda value s) s) := by
  have hans : ∀ t, t = afterLines (writeLevels l.sda value) s →
      responderAnswer t = writeAnswer l.sda value s := by
    rintro t rfl
    have : writeLevels l.sda value =
        ([⟨false, l.sda, true⟩] ++ [7, 6, 5, 4, 3, 2, 1, 0].flatMap (fun i => sentBitLevels (value.getLsbD i)) ++
          [⟨false, value.getLsbD 0, false⟩]) ++ [⟨true, value.getLsbD 0, false⟩] := by
      simp [writeLevels]
    rw [responderAnswer, writeAnswer, this, afterLines_concat]
  simp only [writeByte, sendBits, bitOrder, sendBit, setLine_eq hp h, setLine_afterLine, afterLine_params, hp, hscl]
  rw [sample_released (l := ⟨true, value.getLsbD 0, false⟩) (by simpa using hp) (by simp) rfl, hans _
    (by simp [writeLevels, sentBitLevels])]
  simp only [acknowledgedOf, Bool.not_not, setLine_afterSample, afterLine_params, hp, afterWrite]
  simp [writeLevels, sentBitLevels]

theorem afterWrite_eq (sda : Bool) (value : Byte) (a : ResponderAnswer) (s : State) :
    afterWrite sda value a s =
      { s with
        i2c := { s.i2c with
          lw := (⟨false, value.getLsbD 0, false⟩ : Levels).word s.params
          i2cW := (⟨false, value.getLsbD 0, false⟩ : Levels).word s.params
          i2cR := releasedWord s.params a }
        trace := s.trace ++ writeEvents s.params sda value a
        ustep := s.ustep + 57
        responder := s.responder.tail } := by
  apply State.ext <;>
    simp [afterWrite, afterLine, afterSample, writeEvents, writeLevels, sentBitLevels]

/-! ### Reading -/

/-- The state one data bit of a read byte leaves. -/
def afterReadBit (sda : Bool) (a : ResponderAnswer) (s : State) : State :=
  { s with
    i2c := { s.i2c with
      lw := (⟨false, sda, false⟩ : Levels).word s.params
      i2cW := (⟨false, sda, false⟩ : Levels).word s.params
      i2cR := releasedWord s.params a }
    trace := s.trace ++ readBitEvents s.params sda a
    ustep := s.ustep + 5
    responder := s.responder.tail }

/-- The answer to the sample of one data bit of a read byte. -/
def readBitAnswer (sda : Bool) (s : State) : ResponderAnswer :=
  s.responder.headD (Config.responder (s.trace ++ lineEvents s.params [⟨true, sda, false⟩]))

theorem readBit_eq {s : State} {l : Levels} (hp : s.params.layoutWf) (h : s.i2c.lw = l.word s.params)
    (hoe : l.oe = false) :
    readBit s = (!(readBitAnswer l.sda s).pull, afterReadBit l.sda (readBitAnswer l.sda s) s) := by
  have hans : responderAnswer (afterLine ⟨true, l.sda, false⟩ s) = readBitAnswer l.sda s := by
    simp [responderAnswer, readBitAnswer]
  simp only [readBit, setLine_eq hp h, hoe]
  rw [sample_released (l := ⟨true, l.sda, false⟩) (by simpa using hp) (by simp) rfl, hans]
  simp only [setLine_afterSample hp]
  refine Prod.ext rfl (State.ext ?_ ?_ ?_ ?_ ?_ ?_ ?_ ?_ ?_ ?_ ?_) <;>
    simp [afterLine, afterSample, afterReadBit, readBitEvents]

/-- The state after several data bits of a read byte. -/
theorem readBits_eq (is : List Nat) : ∀ {s : State} {l : Levels} (value : Byte), s.params.layoutWf →
    s.i2c.lw = l.word s.params → l.scl = false → l.oe = false → l.word s.params = s.i2c.i2cW →
    ∃ as : List ResponderAnswer, as.length = is.length ∧
      as.take s.responder.length = s.responder.take is.length ∧
      (readBits is value s).1 =
        (is.zip as).foldl (fun v x => putByteBit v x.1 (!x.2.pull)) value ∧
      (readBits is value s).2 =
        { s with
          i2c := { s.i2c with
            i2cR := (as.getLast?.map (releasedWord s.params)).getD s.i2c.i2cR }
          trace := s.trace ++ as.flatMap (readBitEvents s.params l.sda)
          ustep := s.ustep + 5 * as.length
          responder := s.responder.drop as.length } := by
  induction is with
  | nil =>
    intro s l value _ _ _ _ _
    exact ⟨[], rfl, by simp, by simp [readBits], by simp [readBits]⟩
  | cons i is ih =>
    intro s l value hp h hscl hoe hw
    obtain ⟨lscl, lsda, loe⟩ := l
    subst hscl hoe
    have hb := readBit_eq hp h rfl
    dsimp only at hb
    obtain ⟨as, hlen, htake, hval, hst⟩ :=
      ih (s := afterReadBit lsda (readBitAnswer lsda s) s) (l := ⟨false, lsda, false⟩)
        (putByteBit value i (!(readBitAnswer lsda s).pull)) hp rfl rfl rfl rfl
    refine ⟨readBitAnswer lsda s :: as, by simp [hlen], ?_, ?_, ?_⟩
    · cases hr : s.responder with
      | nil => simp
      | cons a rest =>
        have : (afterReadBit lsda (readBitAnswer lsda s) s).responder = rest := by simp [afterReadBit, hr]
        rw [this] at htake
        simp [readBitAnswer, hr, htake]
    · simp only [readBits, hb, hval, List.zip_cons_cons, List.foldl_cons]
    · simp only [readBits, hb, hst]
      apply State.ext <;> simp [afterReadBit, h, hw, Nat.mul_add] <;> try omega
      cases as with
      | nil => simp
      | cons b bs =>
        rw [List.getLast?_cons_cons]
        cases hg : (b :: bs).getLast? with
        | none => simp at hg
        | some x => rfl

/-- The levels after the acknowledge of a read byte, from a low clock. -/
theorem driveAck_pulse_eq {s : State} {l : Levels} (hp : s.params.layoutWf) (h : s.i2c.lw = l.word s.params)
    (hscl : l.scl = false) (hoe : l.oe = false) (sendAck : Bool) :
    setLine .scl false (setLine .scl true (driveAck sendAck s)) = afterLines (ackLevels sendAck) s := by
  cases sendAck <;>
    simp [driveAck, setLine_eq hp h, setLine_afterLine, hp, ackLevels, hscl, hoe]

/-- The value a read byte collects from its eight samples: the first is bit 7 (R106). -/
def sampledByte (as : List ResponderAnswer) : Byte :=
  ([7, 6, 5, 4, 3, 2, 1, 0].zip as).foldl (fun v x => putByteBit v x.1 (!x.2.pull)) 0#8

theorem getLsbD_putByteBit (v : Byte) (i : Nat) (b : Bool) (j : Nat) (hj : j < 8) :
    (putByteBit v i b).getLsbD j = if j = i then b else v.getLsbD j := by
  by_cases h : j = i
  · subst h; cases b <;> simp [putByteBit, hj]
  · have h' : ¬ (j - i = 0 ∧ i ≤ j) := by omega
    rcases Nat.lt_or_ge j i with hlt | hge
    · simp [putByteBit, hj, h, hlt]
    · have : j - i ≠ 0 := by omega
      simp [putByteBit, hj, h, Nat.not_lt.2 hge, this]

theorem getElem_putByteBit (v : Byte) (i : Nat) (b : Bool) (j : Nat) (hj : j < 8) :
    (putByteBit v i b)[j] = if j = i then b else v[j] := by
  simpa [BitVec.getLsbD_eq_getElem hj] using getLsbD_putByteBit v i b j hj

theorem sampledByte_bit {as : List ResponderAnswer} (h : as.length = 8) (i : Nat) (hi : i < 8) :
    (sampledByte as).getMsbD i = !(as[i]'(by omega)).pull := by
  match as, h with
  | [a, b, c, d, e, f, g, k], _ =>
    simp only [sampledByte, List.zip_cons_cons, List.foldl_cons, List.zip_nil_left, List.foldl_nil]
    rw [BitVec.getMsbD_eq_getLsbD]
    interval_cases i <;> simp [getElem_putByteBit]

/-- I2C_READ_BYTE's micro-sequence: eight answers, the value they make, the state it leaves. -/
theorem readByte_eq {s : State} {l : Levels} (hp : s.params.layoutWf) (h : s.i2c.lw = l.word s.params)
    (hscl : l.scl = false) (sendAck : Bool) :
    ∃ as : List ResponderAnswer, as.length = 8 ∧ as.take s.responder.length = s.responder.take 8 ∧
      readByte sendAck s =
        (sampledByte as,
          { s with
            i2c := { s.i2c with
              lw := (readPost sendAck).word s.params
              i2cW := (readPost sendAck).word s.params
              i2cR := (as.getLast?.map (releasedWord s.params)).getD s.i2c.i2cR }
            trace := s.trace ++ readEvents s.params l.sda sendAck as
            ustep := s.ustep + (if sendAck then 50 else 48)
            responder := s.responder.drop 8 }) := by
  obtain ⟨as, hlen, htake, hval, hst⟩ :=
    readBits_eq bitOrder (s := afterLine ⟨false, l.sda, false⟩ s) (l := ⟨false, l.sda, false⟩) 0#8
      hp rfl rfl rfl rfl
  have hlen8 : as.length = 8 := hlen
  refine ⟨as, hlen8, by simpa [bitOrder] using htake, ?_⟩
  simp only [readByte, setLine_eq hp h, hscl]
  rw [driveAck_pulse_eq (l := ⟨false, l.sda, false⟩) (by rw [hst]; exact hp) (by rw [hst]; rfl) rfl rfl, hval, hst]
  refine Prod.ext rfl ?_
  cases sendAck <;> (apply State.ext <;> simp [ackLevels, readEvents, readPost, hlen8])

end Sys2Proof.Machine
end

