-- ==== Sys2Proof/Laws/Transactions.lean ====
section
/-! SUPPORT. What two-wire sequences do, as compositions: every micro-sequence takes a state reached with some answers
and events to the state reached with more of them. -/

namespace Sys2Proof.Machine

/-- The state reached from `s` by a two-wire sequence that used the answers `as`, performed the events `es` and left
the line word at the levels `l`. -/
def reached (as : List ResponderAnswer) (es : List Event) (l : Levels) (s : State) : State :=
  { s with
    i2c := { s.i2c with
      lw := l.word s.params
      i2cW := l.word s.params
      i2cR := (as.getLast?.map (releasedWord s.params)).getD s.i2c.i2cR }
    trace := s.trace ++ es
    ustep := s.ustep + es.length
    responder := s.responder.drop as.length }

@[simp] theorem reached_params (as : List ResponderAnswer) (es : List Event) (l : Levels) (s : State) :
    (reached as es l s).params = s.params := rfl
@[simp] theorem reached_responder (as : List ResponderAnswer) (es : List Event) (l : Levels) (s : State) :
    (reached as es l s).responder = s.responder.drop as.length := rfl
@[simp] theorem reached_lw (as : List ResponderAnswer) (es : List Event) (l : Levels) (s : State) :
    (reached as es l s).i2c.lw = l.word s.params := rfl

theorem reached_reached (as bs : List ResponderAnswer) (es fs : List Event) (l m : Levels) (s : State) :
    reached bs fs m (reached as es l s) = reached (as ++ bs) (es ++ fs) m s := by
  apply State.ext <;> simp [reached, Nat.add_assoc]
  cases bs.getLast? <;> simp

theorem delay_reached (t : Duration) (as : List ResponderAnswer) (es : List Event) (l : Levels) (s : State) :
    delay t (reached as es l s) = reached as (es ++ [.delay t]) l s := by
  apply State.ext <;> simp [reached]
  rfl

/-- `as` agrees with the answers the state lists. -/
def usesListed (as : List ResponderAnswer) (s : State) : Prop :=
  as.take s.responder.length = s.responder.take as.length

theorem usesListed_nil (s : State) : usesListed [] s := by simp [usesListed]

theorem usesListed_append {as bs : List ResponderAnswer} {s t : State} (h : usesListed as s)
    (ht : t.responder = s.responder.drop as.length) (k : usesListed bs t) : usesListed (as ++ bs) s := by
  unfold usesListed at *
  rw [ht, List.length_drop] at k
  rw [List.take_append, h, k, List.length_append, ← List.take_add]

theorem usesListed_single {a : ResponderAnswer} {s : State} (h : ∀ x xs, s.responder = x :: xs → a = x) :
    usesListed [a] s := by
  unfold usesListed
  cases hr : s.responder with
  | nil => simp
  | cons x xs => simp [h x xs hr]

/-! ### Lengths -/

theorem lineEvents_length (p : Params) (ls : List Levels) : (lineEvents p ls).length = 2 * ls.length := by
  induction ls with
  | nil => rfl
  | cons l ls ih => simp [ih]; omega

theorem writeEvents_length (p : Params) (sda : Bool) (v : Byte) (a : ResponderAnswer) :
    (writeEvents p sda v a).length = 57 := by
  simp [writeEvents, writeLevels, sentBitLevels]

theorem readEvents_length (p : Params) (sda sendAck : Bool) (as : List ResponderAnswer) :
    (readEvents p sda sendAck as).length = 5 * as.length + (if sendAck then 10 else 8) := by
  have : ∀ as : List ResponderAnswer, (as.flatMap (readBitEvents p sda)).length = 5 * as.length := by
    intro as
    induction as with
    | nil => rfl
    | cons a as ih => simp [ih, readBitEvents]; omega
  cases sendAck <;> simp [readEvents, ackLevels, this]

theorem writtenEvents_length (p : Params) (sda : Bool) (ws : List (Byte × ResponderAnswer)) :
    (writtenEvents p sda ws).length = 57 * ws.length := by
  induction ws generalizing sda with
  | nil => rfl
  | cons w ws ih => simp [writtenEvents, writeEvents_length, ih]; omega

theorem transactionEvents_length (p : Params) (ws : List (Byte × ResponderAnswer)) :
    (transactionEvents p ws).length = 18 + 57 * ws.length := by
  simp [transactionEvents, startLevels, stopLevels, writtenEvents_length]
  omega

theorem answersUpToNack_length {bytes : List Byte} {as : List ResponderAnswer}
    (h : answersUpToNack bytes as = true) : as.length ≤ bytes.length := by
  induction bytes generalizing as with
  | nil => cases as <;> simp_all [answersUpToNack]
  | cons b bs ih =>
    cases as with
    | nil => simp
    | cons a as =>
      simp only [answersUpToNack] at h
      split at h
      · simpa using ih h
      · cases as <;> simp_all

theorem answersUpToNack_all {bytes : List Byte} {as : List ResponderAnswer}
    (h : answersUpToNack bytes as = true) (ha : as.all (·.pull) = true) : as.length = bytes.length := by
  induction bytes generalizing as with
  | nil => cases as <;> simp_all [answersUpToNack]
  | cons b bs ih =>
    cases as with
    | nil => simp [answersUpToNack] at h
    | cons a as =>
      simp only [List.all_cons, Bool.and_eq_true] at ha
      simp only [answersUpToNack, ha.1, if_true] at h
      simpa using ih h ha.2

/-! ### Micro-sequences -/

/-- Line changes, the last to the levels `l`. -/
theorem afterLines_reached (ls : List Levels) (l : Levels) (s : State) :
    afterLines (ls ++ [l]) s = reached [] (lineEvents s.params (ls ++ [l])) l s := by
  rw [afterLines_concat]
  apply State.ext <;> simp [reached, lineEvents_length]
  omega

/-- I2C_START's sequence from known levels (R103). -/
theorem startCondition_reached {s : State} {l : Levels} (hp : s.params.layoutWf)
    (h : s.i2c.lw = l.word s.params) :
    startCondition s =
      reached [] (lineEvents s.params (startLevels l.scl l.oe)) ⟨false, false, true⟩ s := by
  rw [startCondition_eq hp h]
  exact afterLines_reached [⟨l.scl, true, l.oe⟩, ⟨l.scl, true, true⟩, ⟨true, true, true⟩, ⟨true, false, true⟩] _ s

/-- I2C_STOP's sequence from known levels (R104). -/
theorem stopCondition_reached {s : State} {l : Levels} (hp : s.params.layoutWf)
    (h : s.i2c.lw = l.word s.params) :
    stopCondition s = reached [] (lineEvents s.params (stopLevels l.scl l.oe)) Levels.idle s := by
  rw [stopCondition_eq hp h]
  exact afterLines_reached [⟨l.scl, false, l.oe⟩, ⟨l.scl, false, true⟩, ⟨true, false, true⟩] _ s

/-- I2C_WRITE_BYTE's sequence from a low clock: one answer (R105). -/
theorem writeByte_reached {s : State} {l : Levels} (hp : s.params.layoutWf) (h : s.i2c.lw = l.word s.params)
    (hscl : l.scl = false) (value : Byte) :
    ∃ a : ResponderAnswer, usesListed [a] s ∧
      writeByte value s =
        (a.pull, reached [a] (writeEvents s.params l.sda value a) ⟨false, value.getLsbD 0, false⟩ s) := by
  refine ⟨writeAnswer l.sda value s, usesListed_single fun x xs hx => by simp [writeAnswer, hx], ?_⟩
  rw [writeByte_eq hp h hscl, afterWrite_eq]
  refine Prod.ext rfl ?_
  apply State.ext <;> simp [reached, writeEvents_length]

/-- I2C_READ_BYTE's sequence from a low clock: eight answers (R106). -/
theorem readByte_reached {s : State} {l : Levels} (hp : s.params.layoutWf) (h : s.i2c.lw = l.word s.params)
    (hscl : l.scl = false) (sendAck : Bool) :
    ∃ as : List ResponderAnswer, as.length = 8 ∧ usesListed as s ∧
      readByte sendAck s =
        (sampledByte as, reached as (readEvents s.params l.sda sendAck as) (readPost sendAck) s) := by
  obtain ⟨as, hl, hu, he⟩ := readByte_eq hp h hscl sendAck
  refine ⟨as, hl, by simpa [usesListed, hl] using hu, he.trans ?_⟩
  refine Prod.ext rfl ?_
  cases sendAck <;> (apply State.ext <;> simp [reached, readEvents_length, hl])

/-! ### Written bytes until one is not acknowledged -/

/-- The levels after written bytes, from the levels `l`. -/
def lastLevels : Levels → List (Byte × ResponderAnswer) → Levels
  | l, [] => l
  | _, w :: ws => lastLevels ⟨false, w.1.getLsbD 0, false⟩ ws

theorem lastLevels_scl {l : Levels} (ws : List (Byte × ResponderAnswer)) (h : l.scl = false) :
    (lastLevels l ws).scl = false := by
  induction ws generalizing l with
  | nil => exact h
  | cons w ws ih => exact ih rfl

theorem lastLevels_released {l : Levels} {ws : List (Byte × ResponderAnswer)} (h : ws ≠ []) :
    (lastLevels l ws).scl = false ∧ (lastLevels l ws).oe = false := by
  have : ∀ (ws : List (Byte × ResponderAnswer)) (l : Levels), l.scl = false → l.oe = false →
      (lastLevels l ws).scl = false ∧ (lastLevels l ws).oe = false := by
    intro ws
    induction ws with
    | nil => intro l h k; exact ⟨h, k⟩
    | cons w ws ih => intro l _ _; exact ih _ rfl rfl
  cases ws with
  | nil => exact absurd rfl h
  | cons w ws => exact this ws _ rfl rfl

/-- `sendAll` uses an answer for each byte up to the first not acknowledged (R172). -/
theorem sendAll_reached (bytes : List Byte) : ∀ {s : State} {as₀ : List ResponderAnswer} {es₀ : List Event}
    {l : Levels}, s.params.layoutWf → l.scl = false → usesListed as₀ s →
    ∃ as : List ResponderAnswer, answersUpToNack bytes as = true ∧ usesListed (as₀ ++ as) s ∧
      sendAll bytes (reached as₀ es₀ l s) =
        (as.all (·.pull), reached (as₀ ++ as) (es₀ ++ writtenEvents s.params l.sda (bytes.zip as))
          (lastLevels l (bytes.zip as)) s) := by
  induction bytes with
  | nil =>
    intro s as₀ es₀ l _ _ hu
    exact ⟨[], rfl, by simpa using hu, by simp [sendAll, writtenEvents, lastLevels]⟩
  | cons b bs ih =>
    intro s as₀ es₀ l hp hscl hu
    obtain ⟨a, ha, he⟩ := writeByte_reached (s := reached as₀ es₀ l s) hp rfl hscl b
    rw [reached_reached] at he
    have hu' := usesListed_append hu rfl ha
    cases hpull : a.pull with
    | false =>
      exact ⟨[a], by simp [answersUpToNack, hpull], hu', by
        simp [sendAll, he, hpull, writtenEvents, lastLevels]⟩
    | true =>
      obtain ⟨as, h1, h2, h3⟩ := ih (es₀ := es₀ ++ writeEvents s.params l.sda b a)
        (l := ⟨false, b.getLsbD 0, false⟩) hp rfl hu'
      refine ⟨a :: as, by simp [answersUpToNack, hpull, h1], by simpa using h2, ?_⟩
      simp only [sendAll, he, hpull, if_true, reached_params, h3]
      simp [hpull, writtenEvents, lastLevels]

/-- A written transaction from the idle bus, of at least one byte (R76, R172). -/
theorem writeTransaction_reached {s : State} (b : Byte) (bytes : List Byte) (hp : s.params.layoutWf)
    (h : s.i2c.lw = Levels.idle.word s.params) :
    ∃ as : List ResponderAnswer, answersUpToNack (b :: bytes) as = true ∧ usesListed as s ∧
      writeTransaction (b :: bytes) s =
        (as.all (·.pull),
          reached as (transactionEvents s.params ((b :: bytes).zip as)) Levels.idle s) := by
  obtain ⟨as, ha, hu, he⟩ := sendAll_reached (b :: bytes) (es₀ := lineEvents s.params (startLevels true true))
    (l := ⟨false, false, true⟩) hp rfl (usesListed_nil s)
  refine ⟨as, ha, hu, ?_⟩
  have hne : (b :: bytes).zip as ≠ [] := by
    cases as with
    | nil => simp [answersUpToNack] at ha
    | cons a as => simp
  obtain ⟨h1, h2⟩ := lastLevels_released (l := ⟨false, false, true⟩) hne
  rw [writeTransaction, startCondition_reached hp h]
  simp only [Levels.idle, he]
  rw [stopCondition_reached (by exact hp) (reached_lw _ _ _ _), reached_reached, h1, h2]
  simp [transactionEvents, Levels.idle]

/-! ### A probe and a scan -/

/-- One probe of the scan, from the idle bus (R85, R107). -/
theorem probe_reached {s : State} (a : Addr7) (hp : s.params.layoutWf)
    (h : s.i2c.lw = Levels.idle.word s.params) :
    ∃ x : ResponderAnswer, usesListed [x] s ∧
      probe a s =
        (x.pull, reached [x] (transactionEvents s.params [(addrb a s.params.scanDir, x)]) Levels.idle s) := by
  obtain ⟨x, hx, he⟩ := writeByte_reached
    (s := reached [] (lineEvents s.params (startLevels true true)) ⟨false, false, true⟩ s) hp rfl rfl
    (addrb a s.params.scanDir)
  refine ⟨x, hx, ?_⟩
  rw [probe, startCondition_reached hp h]
  simp only [Levels.idle, reached_params, he]
  rw [stopCondition_reached (by exact hp) (reached_lw _ _ _ _), reached_reached, reached_reached]
  simp [transactionEvents, writtenEvents, Levels.idle]

/-- The scan over a list of addresses, from the idle bus (R107). -/
theorem scanFrom_reached (addrs : List Addr7) : ∀ {s : State} {as₀ : List ResponderAnswer} {es₀ : List Event},
    s.params.layoutWf → usesListed as₀ s →
    ∃ as : List ResponderAnswer, as.length = addrs.length ∧ usesListed (as₀ ++ as) s ∧
      scanFrom addrs (reached as₀ es₀ Levels.idle s) =
        ((addrs.zip as).filterMap (fun x => if x.2.pull then some x.1 else none),
          reached (as₀ ++ as) (es₀ ++ (addrs.zip as).flatMap fun x =>
            transactionEvents s.params [(addrb x.1 s.params.scanDir, x.2)]) Levels.idle s) := by
  induction addrs with
  | nil =>
    intro s as₀ es₀ _ hu
    exact ⟨[], rfl, by simpa using hu, by simp [scanFrom]⟩
  | cons a addrs ih =>
    intro s as₀ es₀ hp hu
    obtain ⟨x, hx, he⟩ := probe_reached (s := reached as₀ es₀ Levels.idle s) a hp rfl
    rw [reached_reached] at he
    obtain ⟨as, hl, h2, hs⟩ := ih (es₀ := es₀ ++ transactionEvents s.params [(addrb a s.params.scanDir, x)]) hp
      (usesListed_append hu rfl hx)
    refine ⟨x :: as, by simp [hl], by simpa using h2, ?_⟩
    simp only [scanFrom, he, reached_params, hs]
    cases hxp : x.pull <;> simp [hxp]

theorem scanAddresses_eq : scanAddresses = (List.range 127).map fun k => BitVec.ofNat 7 (k + 1) := by
  simp [scanAddresses, Config.scanFirst, Config.scanLast, List.range'_eq_map_range, Function.comp_def,
    Nat.add_comm]

/-- A scan of at least one address needs the idle levels in LW only. -/
theorem scanFrom_idle {s : State} (a : Addr7) (addrs : List Addr7) (hp : s.params.layoutWf)
    (h : s.i2c.lw = Levels.idle.word s.params) :
    scanFrom (a :: addrs) s = scanFrom (a :: addrs) (reached [] [] Levels.idle s) := by
  have : probe a s = probe a (reached [] [] Levels.idle s) := by
    rw [probe, probe, startCondition_reached hp h, startCondition_reached (by exact hp) (reached_lw _ _ _ _),
      reached_reached]
    simp
  simp only [scanFrom, this]

/-! ### The sensor's response -/

/-- The response frame after the read address (R173): six bytes of eight answers each, the stop, and the result. -/
theorem readResponse_reached {s : State} {as₀ : List ResponderAnswer} {es₀ : List Event}
    (hp : s.params.layoutWf) (hu : usesListed as₀ s) :
    ∃ c0 c1 c2 c3 c4 c5 : List ResponderAnswer,
      (∀ c ∈ [c0, c1, c2, c3, c4, c5], c.length = 8) ∧
      usesListed (as₀ ++ (c0 ++ c1 ++ c2 ++ c3 ++ c4 ++ c5)) s ∧
      readResponse (reached as₀ es₀ ⟨false, true, false⟩ s) =
        returnOp
          (if busyOf (sampledByte c0) then .failed .sensorBusy
            else convert (sampledByte c1) (sampledByte c2) (sampledByte c3) (sampledByte c4) (sampledByte c5))
          (reached (as₀ ++ (c0 ++ c1 ++ c2 ++ c3 ++ c4 ++ c5))
            (es₀ ++ (readEvents s.params true true c0 ++ readEvents s.params false true c1 ++
              readEvents s.params false true c2 ++ readEvents s.params false true c3 ++
              readEvents s.params false true c4 ++ readEvents s.params false false c5 ++
              lineEvents s.params (stopLevels false false))) Levels.idle s) := by
  have next : ∀ (l : Levels) (as : List ResponderAnswer) (es : List Event) (k : Bool), l.scl = false →
      usesListed as s → ∃ c : List ResponderAnswer, c.length = 8 ∧ usesListed (as ++ c) s ∧
        readByte k (reached as es l s) =
          (sampledByte c, reached (as ++ c) (es ++ readEvents s.params l.sda k c) (readPost k) s) := by
    intro l as es k hscl h
    obtain ⟨c, hc, hl, he⟩ := readByte_reached (s := reached as es l s) (l := l) hp rfl hscl k
    rw [reached_reached] at he
    exact ⟨c, hc, usesListed_append h rfl hl, he⟩
  obtain ⟨c0, l0, u0, e0⟩ := next ⟨false, true, false⟩ as₀ es₀ true rfl hu
  generalize h0 : es₀ ++ readEvents s.params true true c0 = x0 at e0
  obtain ⟨c1, l1, u1, e1⟩ := next (readPost true) _ x0 true rfl u0
  generalize h1 : x0 ++ readEvents s.params (readPost true).sda true c1 = x1 at e1
  obtain ⟨c2, l2, u2, e2⟩ := next (readPost true) _ x1 true rfl u1
  generalize h2 : x1 ++ readEvents s.params (readPost true).sda true c2 = x2 at e2
  obtain ⟨c3, l3, u3, e3⟩ := next (readPost true) _ x2 true rfl u2
  generalize h3 : x2 ++ readEvents s.params (readPost true).sda true c3 = x3 at e3
  obtain ⟨c4, l4, u4, e4⟩ := next (readPost true) _ x3 true rfl u3
  generalize h4 : x3 ++ readEvents s.params (readPost true).sda true c4 = x4 at e4
  obtain ⟨c5, l5, u5, e5⟩ := next (readPost true) _ x4 false rfl u4
  refine ⟨c0, c1, c2, c3, c4, c5, by simp [l0, l1, l2, l3, l4, l5], by simpa using u5, ?_⟩
  simp only [readResponse, e0, e1, e2, e3, e4, e5]
  rw [stopCondition_reached (by exact hp) (reached_lw _ _ _ _), reached_reached]
  subst h0 h1 h2 h3 h4
  cases busyOf (sampledByte c0) <;> simp [failOp, readPost]

end Sys2Proof.Machine
end

