-- ==== Sys2Proof/Laws/I2cExec.lean ====
section
/-! SUPPORT. What each operation of the I2C side does from a state that meets the line invariant: the levels it starts
from, the answers and events it adds, the levels it leaves. -/

namespace Sys2Proof.Machine

/-- The line invariant as levels: the line word of each phase (spec/40_i2c_master.md R110). -/
theorem LineInv.levels {s : State} (h : LineInv s) (hr : s.i2c.ready = true) :
    ∃ l : Levels, s.i2c.lw = l.word s.params ∧ s.i2c.i2cW = l.word s.params ∧
      (match s.i2c.phase with
       | .powerOn => False
       | .idle => l = Levels.idle
       | .started => l = ⟨false, false, true⟩
       | .addressed r => l = ⟨false, r, false⟩
       | .written => l.scl = false ∧ l.oe = false
       | .readAcked => l = ⟨false, false, true⟩
       | .readNacked => l = ⟨false, true, false⟩) := by
  have h1 := h.readyIff.1 hr
  have h2 := h.line
  have h3 := h.flushed hr
  cases hp : s.i2c.phase <;> simp only [hp, phaseLine] at h1 h2
  · simp at h1
  · exact ⟨_, h2, h3.trans h2, rfl⟩
  · exact ⟨_, h2, h3.trans h2, rfl⟩
  · exact ⟨_, h2, h3.trans h2, rfl⟩
  · obtain ⟨b, h2⟩ := h2; exact ⟨_, h2, h3.trans h2, rfl, rfl⟩
  · exact ⟨_, h2, h3.trans h2, rfl⟩
  · exact ⟨_, h2, h3.trans h2, rfl⟩

theorem scanAddresses_cons : ∃ as, scanAddresses = 1#7 :: as := ⟨_, rfl⟩

/-- The scan starts from the idle levels in LW. -/
theorem scan_start {s : State} (hp : s.params.layoutWf) (h : s.i2c.lw = Levels.idle.word s.params) :
    scanFrom scanAddresses s = scanFrom scanAddresses (reached [] [] Levels.idle s) := by
  obtain ⟨as, e⟩ := scanAddresses_cons
  rw [e]
  exact scanFrom_idle _ _ hp h

/-- What an operation of the I2C side but I2C_INIT does, from a state that meets the line invariant. -/
theorem exec_i2c_cases {i : Instr} {s t : State} (hp : s.params.layoutWf) (hI : LineInv s)
    (h : exec i s = .next t) (hi : onSpiSide i = false) (hn : i ≠ .i2cInit) :
    ∃ l : Levels, s.i2c.lw = l.word s.params ∧ s.i2c.i2cW = l.word s.params ∧
      match i with
      | .i2cStart =>
        (s.i2c.phase = .idle ∧ l = .idle ∨ l.scl = false) ∧
        t = setPhase .started
          (reached [] (lineEvents s.params (startLevels l.scl l.oe)) ⟨false, false, true⟩ (startOp s))
      | .i2cStop =>
        l.scl = false ∧
        t = setPhase .idle (reached [] (lineEvents s.params (stopLevels l.scl l.oe)) .idle (startOp s))
      | .i2cWriteByte v =>
        l.scl = false ∧ ∃ a : ResponderAnswer,
          t = returnOp (.acknowledged a.pull) (setPhase (phaseAfterWrite s.i2c.phase v)
            (reached [a] (writeEvents s.params l.sda v a) ⟨false, v.getLsbD 0, false⟩ (startOp s)))
      | .i2cReadByte k =>
        l.scl = false ∧ ∃ as : List ResponderAnswer, as.length = 8 ∧
          t = returnOp (.byte (sampledByte as)) (setPhase (phaseAfterRead k)
            (reached as (readEvents s.params l.sda k as) (readPost k) (startOp s)))
      | .i2cScan =>
        s.i2c.phase = .idle ∧ l = .idle ∧ ∃ (as : List ResponderAnswer) (r : Result), as.length = 127 ∧
          t = returnOp r (reached as ((scanAddresses.zip as).flatMap fun x =>
            transactionEvents s.params [(addrb x.1 s.params.scanDir, x.2)]) .idle (startOp s))
      | .sensorInit =>
        s.i2c.phase = .idle ∧ ∃ (as : List ResponderAnswer) (es : List Event) (r : Result),
          t = returnOp r (reached as es .idle (startOp s)) ∧ l = .idle ∧
          (r = .success → as.length = 4 ∧
            es = transactionEvents s.params ([0x70#8, 0xE1#8, 0x08#8, 0x00#8].zip as) ++ [.delay .sensorSettle])
      | .sensorMeasure =>
        s.i2c.phase = .idle ∧ ∃ (as : List ResponderAnswer) (es : List Event) (r : Result),
          t = returnOp r (reached as es .idle (startOp s)) ∧ l = .idle ∧
          ((∃ a b, r = .reading a b) →
            ∃ (bs : List ResponderAnswer) (k : ResponderAnswer) (c0 c1 c2 c3 c4 c5 : List ResponderAnswer),
              bs.length = 4 ∧ (∀ c ∈ [c0, c1, c2, c3, c4, c5], c.length = 8) ∧
              es = transactionEvents s.params ([0x70#8, 0xAC#8, 0x33#8, 0x00#8].zip bs) ++
                ([.delay .sensorConv] ++ lineEvents s.params (startLevels true true) ++
                writeEvents s.params false 0x71#8 k ++
                (readEvents s.params true true c0 ++ readEvents s.params false true c1 ++
                readEvents s.params false true c2 ++ readEvents s.params false true c3 ++
                readEvents s.params false true c4 ++ readEvents s.params false false c5 ++
                lineEvents s.params (stopLevels false false))))
      | _ => True := by
  cases i <;> simp only [onSpiSide, Bool.true_eq_false] at hi
  case i2cInit => exact absurd rfl hn
  case i2cStart =>
    simp only [exec, execI2cStart] at h
    obtain ⟨hr, ha, e⟩ := issueI2c_next h
    obtain ⟨l, h1, h2, h3⟩ := hI.levels hr
    refine ⟨l, h1, h2, ?_, by rw [e, startCondition_reached (s := startOp s) hp h1]; rfl⟩
    cases hq : s.i2c.phase <;> simp_all [startAllowed]
  case i2cStop =>
    simp only [exec, execI2cStop] at h
    obtain ⟨hr, ha, e⟩ := issueI2c_next h
    obtain ⟨l, h1, h2, h3⟩ := hI.levels hr
    refine ⟨l, h1, h2, ?_, by rw [e, stopCondition_reached (s := startOp s) hp h1]; rfl⟩
    cases hq : s.i2c.phase <;> simp_all [stopAllowed]
  case i2cWriteByte =>
    simp only [exec, execI2cWriteByte] at h
    obtain ⟨hr, ha, e⟩ := issueI2c_next h
    obtain ⟨l, h1, h2, h3⟩ := hI.levels hr
    have hs : l.scl = false := by cases hq : s.i2c.phase <;> simp_all [writeAllowed]
    obtain ⟨a, -, he⟩ := writeByte_reached (s := startOp s) hp h1 hs _
    exact ⟨l, h1, h2, hs, a, by rw [e, he]; rfl⟩
  case i2cReadByte =>
    simp only [exec, execI2cReadByte] at h
    obtain ⟨hr, ha, e⟩ := issueI2c_next h
    obtain ⟨l, h1, h2, h3⟩ := hI.levels hr
    have hs : l.scl = false := by cases hq : s.i2c.phase <;> simp_all [readAllowed]
    obtain ⟨a, hl, -, he⟩ := readByte_reached (s := startOp s) hp h1 hs _
    exact ⟨l, h1, h2, hs, a, hl, by rw [e, he]; rfl⟩
  case i2cScan =>
    simp only [exec, execI2cScan] at h
    obtain ⟨hr, ha, e⟩ := issueI2c_next h
    obtain ⟨l, h1, h2, h3⟩ := hI.levels hr
    have hq : s.i2c.phase = .idle := by cases hq : s.i2c.phase <;> simp_all [idleOnly]
    simp only [hq] at h3; subst h3
    obtain ⟨as, hl, -, he⟩ := scanFrom_reached scanAddresses (s := startOp s) (es₀ := []) hp (usesListed_nil _)
    refine ⟨_, h1, h2, hq, rfl, as, .found (scanFrom scanAddresses (startOp s)).1,
      by rw [hl, scanAddresses_eq]; simp, ?_⟩
    · rw [e, scan_start (s := startOp s) hp h1, he]
      rfl
  case sensorInit =>
    simp only [exec, execSensorInit] at h
    obtain ⟨hr, ha, e⟩ := issueI2c_next h
    obtain ⟨l, h1, h2, h3⟩ := hI.levels hr
    have hq : s.i2c.phase = .idle := by cases hq : s.i2c.phase <;> simp_all [idleOnly]
    simp only [hq] at h3; subst h3
    obtain ⟨as, hn, -, he⟩ := writeTransaction_reached (s := startOp s) sensorWriteAddress
      Config.sensorInitCommand hp h1
    have ha : sensorWriteAddress = 0x70#8 := by decide
    refine ⟨_, h1, h2, hq, ?_⟩
    rw [e, sensorInit, he]
    cases hall : as.all (·.pull) with
    | true =>
      simp only [if_true, delay_reached]
      refine ⟨as, _, _, rfl, trivial, fun _ => ⟨answersUpToNack_all hn hall, ?_⟩⟩
      rw [ha]; rfl
    | false => exact ⟨as, _, _, rfl, rfl, by simp⟩
  case sensorMeasure =>
    simp only [exec, execSensorMeasure] at h
    obtain ⟨hr, ha, e⟩ := issueI2c_next h
    obtain ⟨l, h1, h2, h3⟩ := hI.levels hr
    have hq : s.i2c.phase = .idle := by cases hq : s.i2c.phase <;> simp_all [idleOnly]
    simp only [hq] at h3; subst h3
    obtain ⟨as, hn, hu, he⟩ := writeTransaction_reached (s := startOp s) sensorWriteAddress
      Config.sensorTriggerCommand hp h1
    generalize hes : transactionEvents (startOp s).params ((sensorWriteAddress :: Config.sensorTriggerCommand).zip as)
      = es at he
    have ha : sensorWriteAddress = 0x70#8 := by decide
    have hb : sensorReadAddress = 0x71#8 := by decide
    refine ⟨_, h1, h2, hq, ?_⟩
    rw [e, sensorMeasure, he]
    cases hall : as.all (·.pull) with
    | false => exact ⟨as, _, _, rfl, rfl, by simp⟩
    | true =>
      simp only [if_true, delay_reached]
      rw [startCondition_reached (by exact hp) (reached_lw _ _ _ _), reached_reached]
      obtain ⟨k, uk, hk⟩ := writeByte_reached (s := reached (as ++ []) (es ++ [.delay .sensorConv] ++
        lineEvents s.params (startLevels true true)) ⟨false, false, true⟩ (startOp s)) (by exact hp)
        (reached_lw _ _ _ _) rfl sensorReadAddress
      rw [reached_reached] at hk
      simp only [Levels.idle, reached_params, startOp_params, hk]
      cases hkp : k.pull with
      | false =>
        simp only [Bool.false_eq_true, if_false]
        rw [stopCondition_reached (by exact hp) (reached_lw _ _ _ _), reached_reached]
        exact ⟨_, _, _, rfl, trivial, by simp⟩
      | true =>
        have uk' : usesListed (as ++ [] ++ [k]) (startOp s) :=
          usesListed_append (by simpa using hu) (by simp) uk
        obtain ⟨c0, c1, c2, c3, c4, c5, hc, -, hx⟩ := readResponse_reached (s := startOp s)
          (es₀ := es ++ [.delay .sensorConv] ++ lineEvents s.params (startLevels true true) ++
            writeEvents s.params false sensorReadAddress k) hp uk'
        simp only [if_true]
        refine ⟨_, _, _, hx, trivial, fun _ =>
          ⟨as, k, c0, c1, c2, c3, c4, c5, answersUpToNack_all hn hall, hc, ?_⟩⟩
        rw [← hes, ha, hb]
        simp [Config.sensorTriggerCommand]

end Sys2Proof.Machine
end

