-- ==== Sys2Proof/Laws/PerInstr.lean ====
section
/-! SUPPORT. Per operation: its word has the width of its row of spec/opcode_table.json. -/

namespace Sys2Proof.Laws.EncodedWidth

/-- The operand bits of the operation are as many as its row gives after `op` (spec/30_encoding.md R82), and its whole
word has a width of the table. -/
def Statement (i : Instr) : Prop :=
  operandWidth i.opIndex = some i.operandBits.length ∧ (encode i).bits.length ∈ tableWidths

theorem of_length {i : Instr} (w : Nat) (h : i.operandBits.length = w) (hw : operandWidth i.opIndex = some w)
    (hm : 5 + w ∈ tableWidths) : Statement i := by
  refine ⟨by rw [hw, h], ?_⟩
  rw [encode, List.length_append, bitsOf_length, h]
  exact hm

theorem i2cInit : Statement .i2cInit :=
  of_length 0 rfl rfl (by decide)

theorem i2cStart : Statement .i2cStart :=
  of_length 0 rfl rfl (by decide)

theorem i2cStop : Statement .i2cStop :=
  of_length 0 rfl rfl (by decide)

theorem i2cWriteByte (value : Byte) : Statement (.i2cWriteByte value) :=
  of_length 8 rfl rfl (by decide)

theorem i2cReadByte (sendAck : Bool) : Statement (.i2cReadByte sendAck) :=
  of_length 1 rfl rfl (by decide)

theorem i2cScan : Statement .i2cScan :=
  of_length 0 rfl rfl (by decide)

theorem spiSelect : Statement .spiSelect :=
  of_length 0 rfl rfl (by decide)

theorem spiDeselect : Statement .spiDeselect :=
  of_length 0 rfl rfl (by decide)

theorem spiXfer (out : Byte) : Statement (.spiXfer out) :=
  of_length 8 rfl rfl (by decide)

theorem regRead (address : Byte) : Statement (.regRead address) :=
  of_length 7 rfl rfl (by decide)

theorem regWrite (address : Byte) (value : Byte) : Statement (.regWrite address value) :=
  of_length 15 rfl rfl (by decide)

theorem regBurstWrite (startAddress : Byte) (bytes : List Byte) : Statement (.regBurstWrite startAddress bytes) :=
  of_length 23 rfl rfl (by decide)

theorem regPoll (address : Byte) (mask : Byte) (budget : Nat) : Statement (.regPoll address mask budget) :=
  of_length 31 rfl rfl (by decide)

theorem sensorInit : Statement .sensorInit :=
  of_length 0 rfl rfl (by decide)

theorem sensorMeasure : Statement .sensorMeasure :=
  of_length 0 rfl rfl (by decide)

theorem radioSetMode (mode : RadioMode) : Statement (.radioSetMode mode) :=
  of_length 2 rfl rfl (by decide)

theorem radioInit (targetFrequencyHz : Nat) : Statement (.radioInit targetFrequencyHz) :=
  of_length 32 rfl rfl (by decide)

theorem radioSend (payload : List Byte) (length : Nat) : Statement (.radioSend payload length) :=
  of_length 16 rfl rfl (by decide)

end Sys2Proof.Laws.EncodedWidth
end

