-- ==== Sys2Proof/Tests/Slice0.lean ====
section
/-! SUPPORT. Tests: ill-formed terms, written-out words, one step on small states with the spec's expected values
(spec/95_test_vectors.md), and a witness for the hypotheses of each statement. The expected values are the spec's; the
parameter values are its illustrative ones (GK3, GK4), with short counts. -/

namespace Sys2Proof.Tests

open Sys2Proof Sys2Proof.Machine

/-! ### Ill-formed terms -/

theorem test_wf_regRead : (Instr.regRead 0x80#8).wf = false := by decide
theorem test_wf_regWrite : (Instr.regWrite 0x80#8 0x00#8).wf = false := by decide
theorem test_wf_burst_address : (Instr.regBurstWrite 0x80#8 []).wf = false := by decide
theorem test_wf_burst_length : (Instr.regBurstWrite 0x00#8 (List.replicate 65536 0x00#8)).wf = false := by
  rw [Instr.wf, List.length_replicate]
  decide
theorem test_wf_poll_address : (Instr.regPoll 0xFF#8 0x08#8 0).wf = false := by decide
theorem test_wf_poll_budget : (Instr.regPoll 0x12#8 0x08#8 65536).wf = false := by decide
theorem test_wf_frequency : (Instr.radioInit 4294967296).wf = false := by decide
theorem test_wf_payload : (Instr.radioSend [0x48#8] 2).wf = false := by decide
theorem test_wf_length : (Instr.radioSend [] 65536).wf = false := by decide
theorem test_wf_ok : (Instr.regPoll 0x7F#8 0x08#8 65535).wf = true ∧ (Instr.radioSend [0x48#8] 1).wf = true ∧
    (Instr.radioInit 4294967295).wf = true := by decide

/-- Illustrative parameters (spec/93_implementation_defined.md GK3, GK4). -/
def params : Params where
  tSettle := 5000
  tInit := 1
  tCs := 1
  tPoll := 1
  tRadioSettle := 1
  tRstLow := 1
  tRstWait := 1
  nPoll := 3
  wWidth := 8
  sclBit := 0
  sdaBit := 2
  oeBit := 1
  sdaInBit := 0
  csSelect := 0x10001
  csDeselect := 0x10000
  ctrlStartBit := 0
  ctrlLenLsb := 8
  ctrlLenWidth := 8
  statusDoneBit := 0
  scanDir := true
  hasReset := false
  rstAssert := 0
  rstRelease := 1
  regVersion := 0x42#7
  regOpMode := 0x01#7
  regFrfMsb := 0x06#7
  regFrfMid := 0x07#7
  regFrfLsb := 0x08#7
  regIrqFlags := 0x12#7
  regFifoAddrPtr := 0x0D#7
  regFifo := 0x00#7
  regPayloadLength := 0x22#7
  regDioMapping := 0x40#7
  lrBit := 0x80#8
  modeSleep := 0x00#8
  modeStandby := 0x01#8
  modeTransmit := 0x03#8
  configBlock := []
  irqClearAll := 0xFF#8
  txDoneMask := 0x08#8
  irqClearTxDone := 0x08#8
  txBase := 0x00#8
  dioTxDoneMap := 0x40#8

theorem test_params_wf : params.wf = true := by decide
theorem test_params_layout : ({ params with sdaBit := 0 } : Params).layoutWf = false := by decide
theorem test_params_width : ({ params with wWidth := 2 } : Params).layoutWf = false := by decide
theorem test_params_ctrl : ({ params with ctrlLenWidth := 3 } : Params).ctrlWf = false := by decide
theorem test_params_start : ({ params with ctrlStartBit := 9 } : Params).ctrlWf = false := by decide
theorem test_params_lrBit : ({ params with lrBit := 0xC0#8 } : Params).modesWf = false := by decide
theorem test_params_modes : ({ params with modeStandby := 0x03#8 } : Params).modesWf = false := by decide
theorem test_params_overlap : ({ params with modeTransmit := 0x83#8 } : Params).modesWf = false := by decide
theorem test_params_cs : ({ params with csSelect := 0x10000 } : Params).wf = false := by decide

/-! ### Written-out words (spec/95_test_vectors.md V28, spec/30_encoding.md R82) -/

/-- A bit list written as digits. -/
def bits (digits : List Nat) : List Bool := digits.map (· == 1)

theorem test_word_i2cInit : decode ⟨bits [0,0,0,0,0], []⟩ = .ok .i2cInit := by decide
theorem test_word_i2cStart : decode ⟨bits [0,0,0,0,1], []⟩ = .ok .i2cStart := by decide
theorem test_word_i2cStop : decode ⟨bits [0,0,0,1,0], []⟩ = .ok .i2cStop := by decide
theorem test_word_i2cWriteByte :
    decode ⟨bits [0,0,0,1,1, 0,1,1,1,0,0,0,0], []⟩ = .ok (.i2cWriteByte 0x70#8) := by decide
theorem test_word_i2cReadByte :
    decode ⟨bits [0,0,1,0,0, 1], []⟩ = .ok (.i2cReadByte true) ∧
    decode ⟨bits [0,0,1,0,0, 0], []⟩ = .ok (.i2cReadByte false) := by decide
theorem test_word_i2cScan : decode ⟨bits [0,0,1,0,1], []⟩ = .ok .i2cScan := by decide
theorem test_word_spiSelect : decode ⟨bits [0,1,0,0,0], []⟩ = .ok .spiSelect := by decide
theorem test_word_spiDeselect : decode ⟨bits [0,1,0,0,1], []⟩ = .ok .spiDeselect := by decide
theorem test_word_spiXfer :
    decode ⟨bits [0,1,0,1,0, 0,1,0,0,0,0,1,0], []⟩ = .ok (.spiXfer 0x42#8) := by decide
theorem test_word_regRead :
    decode ⟨bits [0,1,0,1,1, 1,0,0,0,0,1,0], []⟩ = .ok (.regRead 0x42#8) := by decide
theorem test_word_regWrite :
    decode ⟨bits [0,1,1,0,0, 0,0,0,0,0,0,1, 1,0,0,0,0,0,0,1], []⟩ = .ok (.regWrite 0x01#8 0x81#8) := by decide
theorem test_word_regBurstWrite :
    decode ⟨bits [0,1,1,0,1, 0,0,0,0,0,0,0, 0,0,0,0,0,0,0,0,0,0,0,0,0,0,1,0], [0x48#8, 0x69#8]⟩ =
      .ok (.regBurstWrite 0x00#8 [0x48#8, 0x69#8]) := by decide
theorem test_word_regPoll :
    decode ⟨bits [0,1,1,1,0, 0,0,1,0,0,1,0, 0,0,0,0,1,0,0,0, 0,0,0,1,0,0,1,1,1,0,0,0,1,0,0,0], []⟩ =
      .ok (.regPoll 0x12#8 0x08#8 5000) := by decide
theorem test_word_sensorInit : decode ⟨bits [1,0,0,0,0], []⟩ = .ok .sensorInit := by decide
theorem test_word_sensorMeasure : decode ⟨bits [1,0,0,0,1], []⟩ = .ok .sensorMeasure := by decide
theorem test_word_radioSetMode :
    decode ⟨bits [1,0,0,1,0, 0,1], []⟩ = .ok (.radioSetMode .standby) ∧
    decode ⟨bits [1,0,0,1,0, 1,1], []⟩ = .error .noSuchMode := by decide
theorem test_word_radioInit :
    decode ⟨bits [1,0,0,1,1, 0,0,1,1,0,1,1,0,1,0,0,0,1,0,0,1,1,1,0,0,1,0,1,0,1,1,0,0,0,0,0,0], []⟩ =
      .ok (.radioInit 915000000) := by decide
theorem test_word_radioSend :
    decode ⟨bits [1,0,1,0,0, 0,0,0,0,0,0,0,0,0,0,0,0,0,0,1,0], [0x48#8, 0x69#8]⟩ =
      .ok (.radioSend [0x48#8, 0x69#8] 2) := by decide
theorem test_word_refused :
    decode ⟨bits [0,0,1,1,0], []⟩ = .error (.noSuchOperation 6) ∧
    decode ⟨bits [0,0,1,1,1], []⟩ = .error (.noSuchOperation 7) ∧
    decode ⟨bits [0,1,1,1,1], []⟩ = .error (.noSuchOperation 15) ∧
    decode ⟨bits [1,0,1,0,1], []⟩ = .error (.noSuchOperation 21) ∧
    decode ⟨bits [1,1,1,1,1], []⟩ = .error (.noSuchOperation 31) ∧
    decode ⟨bits [0,0,0,0], []⟩ = .error .truncated ∧
    decode ⟨bits [0,0,1,0,0], []⟩ = .error (.wrongWidth 4) ∧
    decode ⟨bits [0,0,0,0,0], [0x00#8]⟩ = .error (.wrongTrailing 0) := by decide
theorem test_table_word :
    decodeTableWord 8 0 = some .i2cInit ∧ decodeTableWord 16 0x370 = some (.i2cWriteByte 0x70#8) ∧
    decodeTableWord 24 0xC0181 = none ∧ decodeTableWord 24 0x60181 = some (.regWrite 0x01#8 0x81#8) ∧
    decodeTableWord 40 0x133689CAC0 = some (.radioInit 915000000) := by decide
/-- A number given at a row's own width is read at that width and no other; one that does not fit is no word. -/
theorem test_table_exact_width :
    decodeTableWord 20 0x60181 = some (.regWrite 0x01#8 0x81#8) ∧ decodeTableWord 21 0x60000 = none ∧
    decodeTableWord 37 0x700000000 = none ∧ decodeTableWord 5 0x20 = none := by decide

/-! ### One operation on small states -/

/-- A responder answer that makes a sample of a released line read `b`. -/
def answer (b : Nat) : ResponderAnswer := ⟨b == 0, 0⟩

/-- An engine answer: done at the first status read, then the byte. -/
def gives (byte : HostWord) : EngineAnswer := ⟨[1], byte⟩

/-- A state with the line word at `l`, the samples and the exchanges listed. -/
def state (l : Levels) (phase : I2cPhase) (samples : List Nat) (engine : List EngineAnswer) : State where
  params := params
  i2c := { lw := l.word params, i2cW := l.word params, i2cR := 0, ready := true, phase := phase }
  spi := { cs := 0x10000, mosi := 0, ctrl := 0, status := 0, miso := 0, radioRst := 1, inFrame := false }
  ustep := 0
  remaining := none
  hung := false
  result := .none
  trace := []
  responder := samples.map answer
  engine := engine
  queue := []

def idleState (samples : List Nat) : State := state .idle .idle samples []
def spiState (engine : List EngineAnswer) : State := state .idle .idle [] engine
def framedState (engine : List EngineAnswer) : State :=
  { spiState engine with spi := { (spiState engine).spi with cs := 0x10001, inFrame := true } }
def powerOnState : State :=
  { idleState [] with i2c := { lw := 77, i2cW := 5, i2cR := 0, ready := false, phase := .powerOn } }

def resultOf : Outcome → Option Result
  | .next s => some s.result
  | _ => none
def traceOf : Outcome → Option (List Event)
  | .next s => some s.trace
  | _ => none
def refusalOf : Outcome → Option Refusal
  | .refused r => some r
  | _ => none
def i2cOf : Outcome → Option (HostWord × HostWord × I2cPhase)
  | .next s => some (s.i2c.lw, s.i2c.i2cW, s.i2c.phase)
  | _ => none

/-- Levels written as in spec/95_test_vectors.md: `scl sda oe`. -/
def lv (n : Nat) : Levels := ⟨n / 100 == 1, n / 10 % 10 == 1, n % 10 == 1⟩

/-- The writes of a list of line words, each with its settle delay. With GK3's layout the word is scl + 2 oe + 4 sda. -/
def writes (ns : List Nat) : List Event :=
  ns.flatMap fun n => [.memWrite .i2cW (n / 100 + 2 * (n % 10) + 4 * (n / 10 % 10)), .delay .settle]

/-- `S=b`. -/
def sampled (b : Nat) : Event := .memRead .i2cR b

/-- One exchange `o>i` that is done at its first status read. -/
def exchange (x : Nat × Nat) : List Event :=
  [.memWrite .spiMosi x.1, .memWrite .spiCtrl 0x801, .memRead .spiStatus 1, .memRead .spiMiso x.2]

/-- `[o>i ...]`. -/
def frame (pairs : List (Nat × Nat)) : List Event :=
  [.memWrite .spiCs 0x10001, .delay .cs] ++ pairs.flatMap exchange ++ [.memWrite .spiCs 0x10000, .delay .cs]

/-- V1. -/
theorem test_i2cInit :
    traceOf (exec .i2cInit powerOnState) = some [.memWrite .i2cW 7, .delay .init] ∧
    i2cOf (exec .i2cInit powerOnState) = some (7, 7, .idle) := by decide +kernel
/-- R240, U5: refused in mid-transaction; while the bus is idle any number of times (R102). -/
theorem test_i2cInit_succession :
    refusalOf (exec .i2cInit (state (lv 001) .started [] [])) = some .i2cSuccession ∧
    i2cOf (exec .i2cInit (idleState [])) = some (7, 7, .idle) := by
  decide +kernel

/-- V2, V8. -/
theorem test_i2cStart :
    traceOf (exec .i2cStart (idleState [])) = some (writes [111, 111, 111, 101, 001]) ∧
    traceOf (exec .i2cStart (state (lv 010) (.addressed true) [] [])) =
      some (writes [010, 011, 111, 101, 001]) := by decide +kernel

/-- V7; its words from the idle levels are the micro-sequence's, the use itself is refused (R111). -/
theorem test_i2cStop :
    traceOf (exec .i2cStop (state (lv 010) .readNacked [] [])) = some (writes [000, 001, 101, 111]) ∧
    (stopCondition (idleState [])).trace = writes [101, 101, 101, 111] ∧
    refusalOf (exec .i2cStop (idleState [])) = some .i2cSuccession := by decide +kernel

/-- V3. -/
theorem test_i2cWriteByte :
    resultOf (exec (.i2cWriteByte 0x70#8) (state (lv 001) .started [0] [])) = some (.acknowledged true) ∧
    traceOf (exec (.i2cWriteByte 0x70#8) (state (lv 001) .started [0] [])) =
      some (writes ([001] ++ [001, 101, 001] ++ [011, 111, 011, 011, 111, 011, 011, 111, 011] ++
        [001, 101, 001, 001, 101, 001, 001, 101, 001, 001, 101, 001] ++ [000, 100]) ++ [sampled 0] ++
        writes [000]) := by decide +kernel

/-- V4. -/
theorem test_i2cWriteByte_nack :
    resultOf (exec (.i2cWriteByte 0xE1#8) (state (lv 000) (.addressed false) [1] [])) =
      some (.acknowledged false) ∧
    i2cOf (exec (.i2cWriteByte 0xE1#8) (state (lv 000) (.addressed false) [1] [])) = some (4, 4, .written) := by
  decide +kernel

/-- V5. -/
theorem test_i2cReadByte_ack :
    resultOf (exec (.i2cReadByte true) (state (lv 010) (.addressed true) [1,0,0,1,1,1,0,0] [])) =
      some (.byte 0x9C#8) ∧
    traceOf (exec (.i2cReadByte true) (state (lv 010) (.addressed true) [1,0,0,1,1,1,0,0] [])) =
      some (writes [010] ++ [1,0,0,1,1,1,0,0].flatMap (fun b => writes [110] ++ [sampled b] ++ writes [010]) ++
        writes [000, 001, 101, 001]) := by decide +kernel

/-- V6. -/
theorem test_i2cReadByte_nack :
    resultOf (exec (.i2cReadByte false) (state (lv 001) .readAcked [0,0,1,1,1,0,1,0] [])) =
      some (.byte 0x3A#8) ∧
    i2cOf (exec (.i2cReadByte false) (state (lv 001) .readAcked [0,0,1,1,1,0,1,0] [])) =
      some (4, 4, .readNacked) := by decide +kernel

/-- V10, the addresses around the target; the whole list of addresses. -/
theorem test_i2cScan :
    (scanFrom [0x37#7, 0x38#7, 0x39#7] (idleState [1, 0, 1])).1 = [0x38#7] ∧
    scanAddresses.length = 127 ∧ scanAddresses.head? = some 0x01#7 ∧ scanAddresses.getLast? = some 0x7F#7 ∧
    scanAddresses[55]? = some 0x38#7 := by decide +kernel

/-- The frame and V29. -/
theorem test_spiSelect :
    traceOf (exec .spiSelect (spiState [])) = some [.memWrite .spiCs 0x10001, .delay .cs] ∧
    refusalOf (exec .spiSelect (framedState [])) = some .frameOpen := by decide +kernel
theorem test_spiDeselect :
    traceOf (exec .spiDeselect (framedState [])) = some [.memWrite .spiCs 0x10000, .delay .cs] ∧
    refusalOf (exec .spiDeselect (spiState [])) = some .frameClosed := by decide +kernel

/-- V11. -/
theorem test_spiXfer :
    resultOf (exec (.spiXfer 0x42#8) (framedState [⟨[0, 0, 1], 0xABCD12⟩])) = some (.byte 0x12#8) ∧
    traceOf (exec (.spiXfer 0x42#8) (framedState [⟨[0, 0, 1], 0xABCD12⟩])) =
      some [.memWrite .spiMosi 0x42, .memWrite .spiCtrl 0x801, .memRead .spiStatus 0, .memRead .spiStatus 0,
        .memRead .spiStatus 1, .memRead .spiMiso 0xABCD12] := by decide +kernel

/-- V12, an operand with bit 7 set. -/
theorem test_regRead :
    resultOf (exec (.regRead 0xC2#8) (spiState [gives 0, gives 0x12])) = some (.byte 0x12#8) ∧
    traceOf (exec (.regRead 0xC2#8) (spiState [gives 0, gives 0x12])) =
      some (frame [(0x42, 0), (0, 0x12)]) := by decide +kernel

/-- V13. -/
theorem test_regWrite :
    traceOf (exec (.regWrite 0x01#8 0x81#8) (spiState [gives 0, gives 0])) =
      some (frame [(0x81, 0), (0x81, 0)]) := by decide +kernel
theorem test_regBurstWrite :
    traceOf (exec (.regBurstWrite 0x06#8 [0xE4#8, 0xC0#8, 0x00#8]) (spiState (List.replicate 4 (gives 0)))) =
      some (frame [(0x86, 0), (0xE4, 0), (0xC0, 0), (0, 0)]) ∧
    traceOf (exec (.regBurstWrite 0x00#8 []) (spiState [gives 0])) = some (frame [(0x80, 0)]) := by decide +kernel

/-- V14. -/
theorem test_regPoll :
    resultOf (exec (.regPoll 0x12#8 0x08#8 3)
      (spiState [gives 0, gives 0xF7, gives 0, gives 0xF7, gives 0, gives 0xF7])) =
      some (.polled false 0xF7#8) ∧
    resultOf (exec (.regPoll 0x12#8 0x08#8 3) (spiState [gives 0, gives 0xFF])) = some (.polled true 0xFF#8) ∧
    resultOf (exec (.regPoll 0x12#8 0x08#8 0) (spiState [])) = some (.polled false 0x00#8) := by decide +kernel
theorem test_regPoll_trace :
    traceOf (exec (.regPoll 0x12#8 0x08#8 3) (spiState [gives 0, gives 0, gives 0, gives 0, gives 0, gives 8])) =
      some (frame [(0x12, 0), (0, 0)] ++ [.delay .poll] ++ frame [(0x12, 0), (0, 0)] ++ [.delay .poll] ++
        frame [(0x12, 0), (0, 8)]) := by decide +kernel

/-- V19. -/
theorem test_sensorInit :
    resultOf (exec .sensorInit (idleState [0, 0, 0, 0])) = some .success ∧
    (traceOf (exec .sensorInit (idleState [0, 0, 0, 0]))).map (fun es => (lineChanges es, samples es, es.getLast?)) =
      some (121, 4, some (.delay .sensorSettle)) := by decide +kernel
theorem test_sensorInit_nack :
    resultOf (exec .sensorInit (idleState [0, 1])) = some (.failed .ackFail) ∧
    (traceOf (exec .sensorInit (idleState [0, 1]))).map (fun es => (lineChanges es, samples es)) = some (65, 2) ∧
    i2cOf (exec .sensorInit (idleState [0, 1])) = some (7, 7, .idle) := by decide +kernel

/-- The bits of a byte, most significant first, as samples. -/
def byteSamples (b : Nat) : List Nat := [7, 6, 5, 4, 3, 2, 1, 0].map fun i => (b.testBit i).toNat

/-- V20 with the response of V16; then the busy one. -/
theorem test_sensorMeasure :
    resultOf (exec .sensorMeasure (idleState ([0, 0, 0, 0, 0] ++
      [0x1C, 0x91, 0x5B, 0x65, 0xE0, 0x42].flatMap byteSamples))) = some (.reading 2345#16 5678#16) := by
  decide +kernel
theorem test_sensorMeasure_busy :
    resultOf (exec .sensorMeasure (idleState ([0, 0, 0, 0, 0] ++
      [0x9C, 0x91, 0x5B, 0x65, 0xE0, 0x42].flatMap byteSamples))) = some (.failed .sensorBusy) ∧
    resultOf (exec .sensorMeasure (idleState [0, 0, 0, 0, 1])) = some (.failed .ackFail) := by decide +kernel

/-- V17: the floor is taken before the subtraction. -/
theorem test_convert : convert 0x00#8 0x00#8 0x03#8 0xFF#8 0xFF#8 = .reading (-1) 0#16 := by decide +kernel

/-- V23. -/
theorem test_radioSetMode :
    traceOf (exec (.radioSetMode .transmit) (spiState [gives 0, gives 0])) =
      some (frame [(0x81, 0), (0x83, 0)]) := by decide +kernel

/-- V24. -/
theorem test_radioInit :
    resultOf (exec (.radioInit 915000000) (spiState ([gives 0, gives 0x12] ++ List.replicate 12 (gives 0)))) =
      some .success ∧
    traceOf (exec (.radioInit 915000000) (spiState ([gives 0, gives 0x12] ++ List.replicate 12 (gives 0)))) =
      some (frame [(0x42, 0), (0, 0x12)] ++ frame [(0x81, 0), (0x80, 0)] ++ frame [(0x86, 0), (0xE4, 0)] ++
        frame [(0x87, 0), (0xC0, 0)] ++ frame [(0x88, 0), (0, 0)] ++ frame [(0x92, 0), (0xFF, 0)] ++
        frame [(0x81, 0), (0x81, 0)] ++ [.delay .radioSettle]) := by decide +kernel
theorem test_radioInit_mismatch :
    resultOf (exec (.radioInit 915000000) (spiState [gives 0, gives 0x22])) = some (.failed .idMismatch) ∧
    traceOf (exec (.radioInit 915000000) (spiState [gives 0, gives 0x22])) = some (frame [(0x42, 0), (0, 0x22)]) ∧
    refusalOf (exec (.radioInit 1023999970) (spiState [])) = some .frequencyOutOfRange := by decide +kernel

/-- The set-up frames of P3. -/
def setupFrames : List Event :=
  frame [(0x81, 0), (0x81, 0)] ++ frame [(0x8D, 0), (0, 0)] ++ frame [(0x80, 0), (0x48, 0), (0x69, 0)] ++
    frame [(0xA2, 0), (2, 0)] ++ frame [(0x92, 0), (0xFF, 0)] ++ frame [(0xC0, 0), (0x40, 0)] ++
    frame [(0x81, 0), (0x83, 0)]

/-- P3, with N_POLL = 3: found at the third poll. -/
theorem test_radioSend :
    traceOf (exec (.radioSend [0x48#8, 0x69#8] 2)
      (spiState (List.replicate 20 (gives 0) ++ [gives 8] ++ List.replicate 4 (gives 0)))) =
      some (setupFrames ++ frame [(0x12, 0), (0, 0)] ++ [.delay .poll] ++ frame [(0x12, 0), (0, 0)] ++
        [.delay .poll] ++ frame [(0x12, 0), (0, 8)] ++ frame [(0x92, 0), (0x08, 0)] ++
        frame [(0x81, 0), (0x81, 0)]) := by decide +kernel

/-- P4; V25. -/
theorem test_radioSend_fails :
    resultOf (exec (.radioSend [0x48#8, 0x69#8] 2) (spiState (List.replicate 23 (gives 0)))) =
      some (.failed .txTimeout) ∧
    (traceOf (exec (.radioSend [0x48#8, 0x69#8] 2) (spiState (List.replicate 23 (gives 0))))).map List.length =
      some 139 ∧
    resultOf (exec (.radioSend [] 0) (framedState [])) = some (.failed .invalidLength) ∧
    traceOf (exec (.radioSend [] 256) (spiState [])) = some [] := by decide +kernel

/-- V29. -/
theorem test_refused_uses :
    refusalOf (exec .i2cStart powerOnState) = some .i2cNotReady ∧
    refusalOf (exec (.i2cWriteByte 0x70#8) (idleState [])) = some .i2cSuccession ∧
    refusalOf (exec .i2cStart (state (lv 001) .readAcked [] [])) = some .i2cSuccession ∧
    refusalOf (exec (.spiXfer 0x00#8) (spiState [])) = some .frameClosed ∧
    refusalOf (exec (.regRead 0x42#8) (framedState [])) = some .frameOpen ∧
    refusalOf (exec (.radioSend [0x48#8] 2) (spiState [])) = some .payloadTooShort := by decide +kernel

/-- One step runs the word at the front of the queue; the first step after reset with I2C_INIT issued runs it. -/
theorem test_step_runs :
    (match step ((idleState []).withFetchWord 8 0) with
      | .next s => some (s.trace, s.queue)
      | _ => none) = some ([.memWrite .i2cW 7, .delay .init], []) := by decide +kernel
theorem test_first_step : ∃ t, step (State.reset.withFetchWord 8 0) = .next t ∧ t.i2c.phase = .idle := ⟨_, rfl, rfl⟩
theorem test_first_step_start : step (State.reset.withFetchWord 8 1) = .refused .i2cNotReady := rfl

/-! ### A witness for the hypotheses of each statement -/

/-- The answer an operation word gets, if it is a next state. -/
def runs (i : Instr) (s : State) : Bool :=
  match exec i s with
  | .next _ => true
  | _ => false

theorem runs_next {i : Instr} {s : State} (h : runs i s = true) : ∃ t, exec i s = .next t := by
  unfold runs at h
  split at h
  · exact ⟨_, by assumption⟩
  · cases h

/-- The states of the succession table. -/
def startedState (samples : List Nat) : State := state (lv 001) .started samples []
def addressedState (read : Bool) (samples : List Nat) : State :=
  state (lv (if read then 010 else 000)) (.addressed read) samples []
def writtenState (samples : List Nat) : State := state (lv 010) .written samples []
def readAckedState (samples : List Nat) : State := state (lv 001) .readAcked samples []
def readNackedState : State := state (lv 010) .readNacked [] []
def queued (s : State) (w : OpWord) : State := { s with queue := [w] }

theorem witness_DecodeOfEncodeIsIdentity :
    (Instr.regBurstWrite 0x7F#8 [0x48#8]).wf = true ∧ (Instr.regPoll 0x7F#8 0xFF#8 65535).wf = true := by decide
theorem witness_EncodeOfDecodeIsIdentity :
    decode ⟨bits [0,1,1,0,1, 1,1,1,1,1,1,1, 0,0,0,0,0,0,0,0,0,0,0,0,0,0,0,1], [0x48#8]⟩ =
      .ok (.regBurstWrite 0x7F#8 [0x48#8]) := by decide
theorem witness_UnassignedWordsAreRefused :
    (∀ w ∈ [bits [0,0,1,1,0], bits [0,0,1,1,1], bits [0,1,1,1,1], bits [1,0,1,0,1], bits [1,1,1,1,1]],
      (queued (idleState []) ⟨w, []⟩).hung = false ∧ (queued (idleState []) ⟨w, []⟩).queue = [⟨w, []⟩] ∧
      5 ≤ w.length ∧
      (numOf (w.take 5) = 6 ∨ numOf (w.take 5) = 7 ∨ numOf (w.take 5) = 15 ∨ 21 ≤ numOf (w.take 5))) ∧
    (queued (idleState []) ⟨[true, false, false, true, false, true, true], []⟩).hung = false ∧
    (queued (idleState []) ⟨[true, false, false, true, false, true, true], []⟩).queue =
      [⟨[true, false, false, true, false, true, true], []⟩] := by decide
theorem witness_TableNumbersDecode :
    (Instr.radioSend [0x00#8, 0x00#8] 2).wf = true ∧
    (Instr.radioSend [0x00#8, 0x00#8] 2).trailingBytes = List.replicate 2 0#8 ∧
    (Instr.i2cReadByte false).wf = true ∧ (Instr.i2cReadByte false).trailingBytes = [] := by decide
theorem witness_parameters :
    params.layoutWf = true ∧ params.inputWf = true ∧ params.ctrlWf = true ∧ params.modesWf = true ∧ params.wf = true ∧
    ({ params with ctrlStartBit := 16 } : Params).ctrlWf = true := by decide
theorem witness_FrequencyTripleFormat : 16777215 < 2 ^ 24 ∧ (1023999969 : Nat) < 1023999970 := by decide
/-- One state for each clause: driven high, driven low, released. -/
theorem witness_LineLevels :
    ((idleState []).i2c.i2cW.testBit params.oeBit = true ∧ (idleState []).i2c.i2cW.testBit params.sdaBit = true) ∧
    ((startedState []).i2c.i2cW.testBit params.oeBit = true ∧
      (startedState []).i2c.i2cW.testBit params.sdaBit = false) ∧
    (writtenState []).i2c.i2cW.testBit params.oeBit = false := by decide
theorem witness_LineChange : (idleState []).params.layoutWf = true := by decide
theorem witness_SampleReadsTheLine :
    lineField (writtenState []).params .oe (writtenState []).i2c.i2cW = false ∧
    (writtenState []).params.inputWf = true ∧ ({ params with sdaInBit := 7 } : Params).inputWf = true := by decide
/-- A sample moves W_WIDTH bits, here 8 (spec/00_scope.md R11). -/
theorem test_sample_width :
    (sample { writtenState [] with responder := [⟨true, 0x1FF⟩] }).2.i2c.i2cR = 0xFE := by decide +kernel
theorem witness_I2cInitResetsTheMaster :
    powerOnState.i2c.ready = false ∧ powerOnState.params.layoutWf = true ∧ (idleState [1]).i2c.phase = .idle ∧
    (responderAnswer (idleState [1])).pull = false := by decide
theorem witness_I2cStartWords :
    ∀ x ∈ [(idleState [], lv 111), (addressedState false [], lv 000), (addressedState true [], lv 010),
        (writtenState [], lv 010), (readNackedState, lv 010)],
      x.1.params.layoutWf = true ∧ x.1.i2c.ready = true ∧ x.1.i2c.phase ≠ .powerOn ∧ x.1.i2c.phase ≠ .started ∧
      x.1.i2c.phase ≠ .readAcked ∧
      x.1.i2c.lw = x.2.word x.1.params := by decide
theorem witness_I2cStopWords :
    (readNackedState).params.layoutWf = true ∧ readNackedState.i2c.ready = true ∧
    readNackedState.i2c.phase ≠ .powerOn ∧ readNackedState.i2c.phase ≠ .idle ∧
    readNackedState.i2c.phase ≠ .started ∧
    readNackedState.i2c.lw = (lv 010).word readNackedState.params ∧
    (idleState []).i2c.lw = (lv 111).word (idleState []).params := by decide
theorem witness_I2cWriteByteWordsAndAcknowledge :
    ((startedState []).params.layoutWf = true ∧ (startedState []).i2c.ready = true ∧
      (startedState []).i2c.phase = .started ∧
      (startedState []).i2c.lw = (⟨false, false, true⟩ : Levels).word (startedState []).params) ∧
    ((addressedState false []).params.layoutWf = true ∧ (addressedState false []).i2c.ready = true ∧
      (addressedState false []).i2c.phase = .addressed false ∧
      (addressedState false []).i2c.lw = (⟨false, false, false⟩ : Levels).word params) ∧
    ((writtenState []).params.layoutWf = true ∧ (writtenState []).i2c.ready = true ∧
      (writtenState []).i2c.phase = .written ∧
      (writtenState []).i2c.lw = (⟨false, true, false⟩ : Levels).word params) := by decide
theorem witness_I2cReadByteValueAndAcknowledge :
    ((addressedState true []).params.layoutWf = true ∧ (addressedState true []).i2c.ready = true ∧
      (addressedState true []).i2c.phase = .addressed true ∧
      (addressedState true []).i2c.lw = (⟨false, true, false⟩ : Levels).word params) ∧
    ((readAckedState []).params.layoutWf = true ∧ (readAckedState []).i2c.ready = true ∧
      (readAckedState []).i2c.phase = .readAcked ∧
      (readAckedState []).i2c.lw = (⟨false, false, true⟩ : Levels).word params) := by decide
/-- For the scan and the two sensor sequences. -/
theorem witness_idleBus :
    (idleState []).params.layoutWf = true ∧ (idleState []).i2c.ready = true ∧ (idleState []).i2c.phase = .idle ∧
    (idleState []).i2c.lw = Levels.idle.word (idleState []).params := by decide
theorem witness_I2cBeforeInitIsRefused : powerOnState.i2c.ready = false := by decide
theorem witness_IllFormedSuccessionsAreRefused :
    ∀ x ∈ [(idleState [], I2cPhase.idle), (startedState [], .started), (addressedState false [], .addressed false),
        (writtenState [], .written), (readAckedState [], .readAcked), (readNackedState, .readNacked)],
      x.1.i2c.ready = true ∧ x.1.i2c.phase = x.2 := by decide
theorem witness_I2cSideLeavesTheSpiSideAlone :
    ∀ x ∈ [(Instr.i2cInit, idleState []), (.i2cStart, idleState []), (.i2cStop, writtenState []),
        (.i2cWriteByte 0x70#8, startedState []), (.i2cReadByte true, addressedState true []),
        (.i2cScan, idleState []), (.sensorInit, idleState []), (.sensorMeasure, idleState [])],
      ∃ t, exec x.1 x.2 = .next t := by
  have h : ∀ x ∈ [(Instr.i2cInit, idleState []), (.i2cStart, idleState []), (.i2cStop, writtenState []),
        (.i2cWriteByte 0x70#8, startedState []), (.i2cReadByte true, addressedState true []),
        (.i2cScan, idleState []), (.sensorInit, idleState []), (.sensorMeasure, idleState [])],
      runs x.1 x.2 = true := by decide +kernel
  exact fun x hx => runs_next (h x hx)

/-- The line invariant in a state of each phase the table names. -/
theorem witness_lineInv :
    LineInv (idleState []) ∧ LineInv (startedState []) ∧ LineInv (addressedState true []) ∧
    LineInv (writtenState []) ∧ LineInv powerOnState :=
  ⟨⟨by decide, rfl, by decide⟩, ⟨by decide, rfl, by decide⟩, ⟨by decide, rfl, by decide⟩,
    ⟨by decide, ⟨true, rfl⟩, by decide⟩, ⟨by decide, trivial, by decide⟩⟩
theorem witness_StepKeepsLineInvariant :
    LineInv (queued (idleState []) ⟨bits [0,0,0,0,1], []⟩) ∧
    ∃ t, step (queued (idleState []) ⟨bits [0,0,0,0,1], []⟩) = .next t :=
  ⟨⟨by decide, rfl, by decide⟩, ⟨_, rfl⟩⟩
theorem witness_WireRules :
    (∃ t, exec .i2cInit (idleState []) = .next t) ∧ (∃ t, exec .i2cStart (idleState []) = .next t) ∧
    (∃ t, exec .i2cStop (writtenState []) = .next t) ∧
    (∃ t, exec (.i2cWriteByte 0x70#8) (startedState []) = .next t) ∧
    (∃ t, exec (.i2cReadByte true) (addressedState true []) = .next t) ∧
    (∃ t, exec .i2cScan (idleState []) = .next t) :=
  ⟨⟨_, rfl⟩, ⟨_, rfl⟩, ⟨_, rfl⟩, ⟨_, rfl⟩, ⟨_, rfl⟩, ⟨_, rfl⟩⟩
theorem witness_I2cEventCounts :
    LineInv (idleState [0, 0, 0, 0]) ∧ (idleState [0, 0, 0, 0]).params.tSettle = 5000 ∧
    ∃ t, exec .sensorInit (idleState [0, 0, 0, 0]) = .next t ∧ t.result = .success :=
  ⟨⟨by decide, rfl, by decide⟩, rfl, _, rfl, by decide +kernel⟩
theorem witness_I2cEventCounts_measure :
    ∃ t, exec .sensorMeasure (idleState (List.replicate 53 0)) = .next t ∧ ∃ a b, t.result = .reading a b :=
  ⟨_, rfl, (-5000), 0, by decide +kernel⟩

theorem witness_SpiSelectAndDeselect :
    (spiState []).spi.inFrame = false ∧ (framedState []).spi.inFrame = true := by decide
theorem witness_SpiXferExchangesOneByte :
    (framedState [⟨[0] ++ 1 :: [], 0x12⟩]).spi.inFrame = true ∧
    (framedState [⟨[0] ++ 1 :: [], 0x12⟩]).engine = [⟨[0] ++ 1 :: [], 0x12⟩] ∧
    (∀ w ∈ [0], Nat.testBit w params.statusDoneBit = false) ∧
    Nat.testBit 1 params.statusDoneBit = true := by decide
theorem witness_SpiXferHangsForever :
    (framedState [⟨[0, 2], 0⟩]).spi.inFrame = true ∧ (framedState [⟨[0, 2], 0⟩]).engine = [⟨[0, 2], 0⟩] ∧
    (∀ w ∈ [0, 2], Nat.testBit w params.statusDoneBit = false) ∧
    (framedState [⟨[], 0⟩]).engine = [⟨[], 0⟩] := by decide
/-- For REG_READ, REG_WRITE and RADIO_SET_MODE. -/
theorem witness_twoExchanges :
    (spiState [gives 0, gives 0x12]).spi.inFrame = false ∧
    (spiState [gives 0, gives 0x12]).engine = gives 0 :: gives 0x12 :: [] ∧
    completes params (gives 0) = true ∧ completes params (gives 0x12) = true := by decide
theorem witness_RegBurstWriteFrame :
    (spiState [gives 0, gives 0]).spi.inFrame = false ∧
    (spiState [gives 0, gives 0]).engine = [gives 0, gives 0] ++ [] ∧
    [gives 0, gives 0].length = 1 + [0x48#8].length ∧
    [gives 0, gives 0].all (completes params) = true ∧ [gives 0].length = 1 + ([] : List Byte).length := by decide

/-- A poll that reads `flags`. -/
def poll (flags : HostWord) : PollAnswer := (gives 0, gives flags)

theorem witness_RegPollFinds :
    (spiState (pollAnswers ([poll 0] ++ [poll 8]))).spi.inFrame = false ∧
    (spiState (pollAnswers ([poll 0] ++ [poll 8]))).engine = pollAnswers ([poll 0] ++ [poll 8]) ++ [] ∧
    [poll 0].length < 2 ∧ (∀ a ∈ [poll 0] ++ [poll 8], PollAnswer.complete params a = true) ∧
    (∀ a ∈ [poll 0], PollAnswer.flags a &&& 0x08#8 = 0#8) ∧ PollAnswer.flags (poll 8) &&& 0x08#8 ≠ 0#8 := by decide
theorem witness_RegPollTimesOut :
    (spiState (pollAnswers [poll 0xF7])).spi.inFrame = false ∧
    (spiState (pollAnswers [poll 0xF7])).engine = pollAnswers [poll 0xF7] ++ [] ∧
    (∀ a ∈ [poll 0xF7], PollAnswer.complete params a = true ∧ PollAnswer.flags a &&& 0x08#8 = 0#8) := by decide
theorem witness_FrameDiscipline :
    ∀ x ∈ [(Instr.regRead 0x42#8, spiState [gives 0, gives 0]), (.regWrite 0x01#8 0#8, spiState [gives 0, gives 0]),
        (.regBurstWrite 0x00#8 [], spiState [gives 0]), (.regPoll 0x12#8 0x08#8 1, spiState [gives 0, gives 0]),
        (.regPoll 0x12#8 0x08#8 0, spiState [])],
      x.2.hung = false ∧ (match exec x.1 x.2 with | .next t => !t.hung | _ => false) = true := by decide +kernel
/-- The refused clauses of FrameDiscipline; the engine that lists no answer is among its states. -/
theorem witness_FrameDiscipline_frames :
    (framedState []).spi.inFrame = true ∧ (spiState []).spi.inFrame = false ∧
    answersListed [gives 0, gives 1] [] ∧ answersListed [gives 0, gives 1] [gives 0] := by
  simp only [answersListed]; decide +kernel
/-- An engine that does not complete. -/
def never : EngineAnswer := ⟨[0, 0], 0⟩

theorem witness_SpiOperationReturnsExactlyIfItsTransfersComplete :
    ∀ x ∈ [(Instr.regRead 0x42#8, spiState [gives 0, gives 0], false), (.regRead 0x42#8, spiState [gives 0, never], true),
        (.radioInit 0, spiState [never], true), (.radioSend [] 0, spiState [], false)],
      x.2.1.hung = false ∧ (match exec x.1 x.2.1 with | .next t => t.hung == x.2.2 | _ => false) = true := by
  decide +kernel
/-- The last exchange of REG_READ, and of the second poll of a REG_POLL of two. -/
theorem witness_AccessesHangWithTheirExchanges :
    (spiState [gives 0, never]).spi.inFrame = false ∧
    (spiState [gives 0, never]).engine = pollAnswers [] ++ [gives 0] ++ never :: [] ∧
    [gives 0].all (completes params) = true ∧ completes params never = false ∧ [gives 0].length < 2 ∧
    (spiState [gives 0, gives 0xF7, gives 0, never]).engine =
      pollAnswers [(gives 0, gives 0xF7)] ++ [gives 0] ++ never :: [] ∧
    [(gives 0, gives 0xF7)].length < 2 ∧
    (∀ a ∈ [(gives 0, gives 0xF7)],
      PollAnswer.complete params a = true ∧ PollAnswer.flags a &&& 0x08#8 = 0#8) := by decide
theorem test_second_poll_hangs :
    (match exec (.regPoll 0x12#8 0x08#8 2) (spiState [gives 0, gives 0xF7, gives 0, never]) with
      | .next t => t.hung && t.remaining == some 1
      | _ => false) = true := by decide +kernel
/-- RADIO_INIT at its last exchange; RADIO_SEND in its set-up, in a poll, after N_POLL polls, and after the hit. -/
theorem witness_RadioSequencesHangWithTheirExchanges :
    (915000000 : Nat) ≤ 1023999969 ∧
    (([gives 0, gives 0x12] ++ List.replicate 11 (gives 0)).length <
      (radioInitFrames params 915000000).flatten.length) ∧
    (List.replicate 13 (gives 0)).length < (sendSetupFrames params ([0x48#8].take 1)).flatten.length ∧
    (List.replicate 14 (gives 0)).length = (sendSetupFrames params ([0x48#8].take 1)).flatten.length ∧
    (List.replicate 14 (gives 0)).all (completes params) = true ∧
    (List.replicate 3 (gives 0, gives 0)).length ≤ params.nPoll ∧
    (List.replicate 2 (gives 0, gives 0)).length < params.nPoll ∧
    (∀ a ∈ List.replicate 3 (gives 0, gives 0),
      PollAnswer.complete params a = true ∧ PollAnswer.flags a &&& params.txDoneMask = 0#8) ∧
    PollAnswer.complete params (gives 0, gives 8) = true ∧
    PollAnswer.flags (gives 0, gives 8) &&& params.txDoneMask ≠ 0#8 := by decide +kernel
theorem witness_ChipSelectStaysReleasedAfterLaunch :
    LaunchPremises (spiState []) ∧ FrameInv (queued (spiState []) ⟨bits [0,1,0,0,0], []⟩) ∧
    ChipSelectReleased (queued (spiState []) ⟨bits [0,1,0,0,0], []⟩) ∧
    ∃ t, step (queued (spiState []) ⟨bits [0,1,0,0,0], []⟩) = .next t :=
  ⟨⟨by decide, fun _ _ => rfl, by decide, by decide⟩, ⟨by decide, by decide, by decide⟩, fun _ => by decide, ⟨_, rfl⟩⟩
theorem witness_SpiSideLeavesTheI2cSideAlone :
    ∀ x ∈ [(Instr.spiSelect, spiState []), (.spiDeselect, framedState []), (.spiXfer 0#8, framedState [gives 0]),
        (.regRead 0#8, spiState [gives 0, gives 0]), (.regWrite 0#8 0#8, spiState [gives 0, gives 0]),
        (.regBurstWrite 0#8 [], spiState [gives 0]), (.regPoll 0#8 0#8 0, spiState []),
        (.radioSetMode .sleep, spiState [gives 0, gives 0]), (.radioInit 0, spiState [gives 0, gives 0]),
        (.radioSend [] 0, spiState [])], runs x.1 x.2 = true := by decide +kernel
theorem witness_StepKeepsFrameInvariant :
    FrameInv (queued (framedState []) ⟨bits [0,1,0,0,1], []⟩) ∧
    ∃ t, step (queued (framedState []) ⟨bits [0,1,0,0,1], []⟩) = .next t :=
  ⟨⟨by decide, by decide, by decide⟩, ⟨_, rfl⟩⟩
theorem witness_FrameInv_hung : FrameInv { framedState [] with hung := true, remaining := some 1 } :=
  ⟨by decide, by decide, by decide⟩
theorem witness_RadioInitMismatch :
    (1023999969 : Nat) ≤ 1023999969 ∧ (spiState [gives 0, gives 0x22]).spi.inFrame = false ∧
    completes params (gives 0) = true ∧ completes params (gives 0x22) = true ∧
    (spiState [gives 0, gives 0x22]).engine = gives 0 :: gives 0x22 :: [] ∧
    BitVec.ofNat 8 (gives 0x22).miso ≠ 0x12#8 := by decide
/-- The answers of a RADIO_INIT that succeeds, CONFIG_BLOCK empty. -/
def initAnswers : List EngineAnswer := [gives 0, gives 0x12] ++ List.replicate 12 (gives 0)

theorem witness_RadioInitConfigures :
    (915000000 : Nat) ≤ 1023999969 ∧ (spiState initAnswers).spi.inFrame = false ∧
    (spiState initAnswers).engine = initAnswers ++ [] ∧
    initAnswers.length = (radioInitFrames params 915000000).flatten.length ∧
    initAnswers.all (completes params) = true ∧
    initAnswers = gives 0 :: gives 0x12 :: List.replicate 12 (gives 0) ∧
    BitVec.ofNat 8 (gives 0x12).miso = 0x12#8 := by decide

/-- The answers of RADIO_SEND's set-up for a payload of one byte. -/
def setupAnswers : List EngineAnswer := List.replicate 14 (gives 0)

/-- A RADIO_SEND of the longest count of unsuccessful polls that still succeeds: N_POLL - 1. -/
def sendState : State :=
  spiState (setupAnswers ++ pollAnswers ([poll 0, poll 0] ++ [poll 8]) ++ List.replicate 4 (gives 0) ++ [])

theorem witness_RadioSendSucceeds :
    1 ≤ 1 ∧ 1 ≤ 255 ∧ 1 ≤ [0x48#8].length ∧ sendState.spi.inFrame = false ∧
    sendState.engine =
      setupAnswers ++ pollAnswers ([poll 0, poll 0] ++ [poll 8]) ++ List.replicate 4 (gives 0) ++ [] ∧
    setupAnswers.length = (sendSetupFrames params ([0x48#8].take 1)).flatten.length ∧
    (List.replicate 4 (gives 0)).length = 4 ∧
    (setupAnswers ++ List.replicate 4 (gives 0)).all (completes params) = true ∧
    [poll 0, poll 0].length < params.nPoll ∧
    (∀ a ∈ [poll 0, poll 0] ++ [poll 8], PollAnswer.complete params a = true) ∧
    (∀ a ∈ [poll 0, poll 0], PollAnswer.flags a &&& params.txDoneMask = 0#8) ∧
    PollAnswer.flags (poll 8) &&& params.txDoneMask ≠ 0#8 := by decide +kernel

/-- A RADIO_SEND that is never done. -/
def timeoutState : State :=
  spiState (setupAnswers ++ pollAnswers (List.replicate 3 (poll 0)) ++ List.replicate 2 (gives 0) ++ [])

theorem witness_RadioSendTimesOut :
    1 ≤ 1 ∧ 1 ≤ 255 ∧ 1 ≤ [0x48#8].length ∧ timeoutState.spi.inFrame = false ∧
    timeoutState.engine =
      setupAnswers ++ pollAnswers (List.replicate 3 (poll 0)) ++ List.replicate 2 (gives 0) ++ [] ∧
    setupAnswers.length = (sendSetupFrames params ([0x48#8].take 1)).flatten.length ∧
    (List.replicate 2 (gives 0)).length = 2 ∧
    (setupAnswers ++ List.replicate 2 (gives 0)).all (completes params) = true ∧
    (List.replicate 3 (poll 0)).length = params.nPoll ∧
    (∀ a ∈ List.replicate 3 (poll 0), PollAnswer.complete params a = true ∧
      PollAnswer.flags a &&& params.txDoneMask = 0#8) := by decide +kernel

theorem witness_RadioSendRejectsIllegalLength : (0 : Nat) = 0 ∧ 255 < 256 := by decide
theorem witness_RadioDomainIsChecked :
    (1023999969 : Nat) < 1023999970 ∧ [0x48#8].length < 2 ∧ 255 ≤ (List.replicate 255 0x00#8).length ∧
    (framedState []).spi.inFrame = true := by decide +kernel
theorem witness_StepRunsTheDecodedOperation :
    (queued (idleState []) ⟨bits [0,0,0,0,1], []⟩).hung = false ∧
    (queued (idleState []) ⟨bits [0,0,0,0,1], []⟩).queue = [⟨bits [0,0,0,0,1], []⟩] ∧
    decode ⟨bits [0,0,0,0,1], []⟩ = .ok .i2cStart := by decide
theorem witness_StepWaitsOrPolls :
    (idleState []).hung = false ∧ (idleState []).queue = [] ∧
    ({ framedState [] with hung := true } : State).hung = true := by decide
theorem witness_ExecAppendsItsEvents : ∃ t, exec .spiSelect (spiState []) = .next t := ⟨_, rfl⟩
theorem witness_StepKeepsRegistersFollowingTheTrace :
    RegistersFollowTrace
      { framedState [] with trace := [.memWrite .spiCs 0x10001], queue := [⟨bits [0,1,0,0,1], []⟩] } ∧
    ∃ t, step { framedState [] with trace := [.memWrite .spiCs 0x10001], queue := [⟨bits [0,1,0,0,1], []⟩] } =
      .next t := by
  refine ⟨?_, _, rfl⟩
  intro r v h
  cases r <;> simp [lastWrite] at h
  subst h
  rfl

end Sys2Proof.Tests
end

/-! PROOF. The family of spec/10_state.md: what one step can do, the line invariant, the frame invariant, the levels of
the two wires, and the bookkeeping at reset. -/

namespace Sys2Proof.Machine

/-! ### One step -/

/-- With no poll unfinished and nothing issued the block waits (spec/60_exceptions.md R220). -/
theorem step_waiting {s : State} (hh : s.hung = false) (hq : s.queue = []) : step s = .next s := by
  simp [step, fetchOp, hh, hq]

/-- What a step that answers a next state was: one more read of a poll that never ends, the wait, or an operation of
the caller's queue, run on the state with its word taken off. -/
theorem step_next_cases {s t : State} (h : step s = .next t) :
    (s.hung = true ∧ t = hungRead s) ∨
    (s.hung = false ∧ s.queue = [] ∧ t = s) ∨
    (s.hung = false ∧ ∃ w rest i, s.queue = w :: rest ∧ decode w = .ok i ∧
      exec i { s with queue := rest } = .next t) := by
  cases hh : s.hung with
  | true =>
    rw [step, if_pos hh] at h
    cases h
    exact .inl ⟨rfl, rfl⟩
  | false =>
    cases hq : s.queue with
    | nil =>
      rw [step_waiting hh hq] at h
      cases h
      exact .inr (.inl ⟨rfl, rfl, rfl⟩)
    | cons w rest =>
      simp only [step, hh, fetchOp, hq, Bool.false_eq_true, if_false] at h
      cases hd : decode w with
      | ok i => exact .inr (.inr ⟨rfl, w, rest, i, rfl, hd, by simpa only [hd] using h⟩)
      | error e => simp [hd] at h

/-! ### The line invariant (spec/10_state.md R20, R21) -/

/-- The line invariant speaks of the parameters and the I2C half only. -/
theorem LineInv.congr {s t : State} (hI : LineInv s) (hp : t.params = s.params) (hi : t.i2c = s.i2c) : LineInv t := by
  obtain ⟨hready, hline, hflushed⟩ := hI
  exact ⟨by rwa [hi], by rwa [hp, hi], by rwa [hi]⟩

/-- After I2C_INIT the line invariant is the post-state of the phase, in LW and in I2C_W. -/
theorem LineInv.of_ready {t : State} (hr : t.i2c.ready = true) (hph : t.i2c.phase ≠ .powerOn)
    (hl : phaseLine t.params t.i2c.lw t.i2c.phase) (hw : t.i2c.i2cW = t.i2c.lw) : LineInv t :=
  ⟨⟨fun _ => hph, fun _ => hr⟩, hl, fun _ => hw⟩

/-- An operation of the I2C side but I2C_INIT runs only after I2C_INIT (spec/70_reset_and_hazards.md R252). -/
theorem exec_i2c_ready {i : Instr} {s t : State} (hi : onSpiSide i = false) (hn : i ≠ .i2cInit)
    (h : exec i s = .next t) : s.i2c.ready = true := by
  cases i <;> simp only [onSpiSide, Bool.true_eq_false] at hi
  case i2cInit => exact absurd rfl hn
  all_goals
    simp only [exec, execI2cStart, execI2cStop, execI2cWriteByte, execI2cReadByte, execI2cScan, execSensorInit,
      execSensorMeasure] at h
    exact (issueI2c_next h).1

theorem phaseAfterWrite_ne_powerOn (before : I2cPhase) (v : Byte) : phaseAfterWrite before v ≠ .powerOn := by
  cases before <;> simp [phaseAfterWrite]

theorem phaseAfterRead_ne_powerOn (k : Bool) : phaseAfterRead k ≠ .powerOn := by
  cases k <;> nofun

/-- The levels I2C_WRITE_BYTE leaves are the post-state of the phase it leaves (spec/40_i2c_master.md R110). -/
theorem phaseLine_phaseAfterWrite (p : Params) (before : I2cPhase) (v : Byte) :
    phaseLine p ((⟨false, v.getLsbD 0, false⟩ : Levels).word p) (phaseAfterWrite before v) := by
  cases before with
  | started => exact rfl
  | _ => exact ⟨v.getLsbD 0, rfl⟩

/-- The levels I2C_READ_BYTE leaves are the post-state of the phase it leaves (spec/40_i2c_master.md R110). -/
theorem phaseLine_phaseAfterRead (p : Params) (k : Bool) :
    phaseLine p ((readPost k).word p) (phaseAfterRead k) := by
  cases k <;> exact rfl

/-- A sequence that starts on the idle bus and reaches the idle levels again meets the invariant. -/
theorem LineInv.idle_reached {s : State} {as : List ResponderAnswer} {es : List Event} {r : Result}
    (hr : s.i2c.ready = true) (hq : s.i2c.phase = .idle) :
    LineInv (returnOp r (reached as es .idle (startOp s))) := by
  have hphase : (returnOp r (reached as es .idle (startOp s))).i2c.phase = .idle := hq
  exact .of_ready hr (by rw [hphase]; nofun) (by rw [hphase]; rfl) rfl

/-- I2C_INIT establishes the line invariant, from any state (spec/40_i2c_master.md R102). -/
theorem execI2cInit_lineInv {s t : State} (h : execI2cInit s = .next t) : LineInv t := by
  obtain ⟨-, rfl⟩ := execI2cInit_next h
  exact .of_ready rfl nofun rfl rfl

/-- Every other operation of the I2C side keeps it: the levels it reaches are the post-state of the phase it leaves. -/
theorem exec_i2c_lineInv {i : Instr} {s t : State} (hp : s.params.layoutWf) (hI : LineInv s)
    (hi : onSpiSide i = false) (hn : i ≠ .i2cInit) (h : exec i s = .next t) : LineInv t := by
  have hr := exec_i2c_ready hi hn h
  obtain ⟨l, -, -, hcase⟩ := exec_i2c_cases hp hI h hi hn
  cases i <;> simp only [onSpiSide, Bool.true_eq_false] at hi
  case i2cInit => exact absurd rfl hn
  case i2cStart =>
    obtain ⟨-, rfl⟩ := hcase
    exact .of_ready hr nofun rfl rfl
  case i2cStop =>
    obtain ⟨-, rfl⟩ := hcase
    exact .of_ready hr nofun rfl rfl
  case i2cWriteByte =>
    obtain ⟨-, a, rfl⟩ := hcase
    exact .of_ready hr (phaseAfterWrite_ne_powerOn _ _) (phaseLine_phaseAfterWrite _ _ _) rfl
  case i2cReadByte =>
    obtain ⟨-, as, -, rfl⟩ := hcase
    exact .of_ready hr (phaseAfterRead_ne_powerOn _) (phaseLine_phaseAfterRead _ _) rfl
  case i2cScan =>
    obtain ⟨hq, -, as, r, -, rfl⟩ := hcase
    exact .idle_reached hr hq
  case sensorInit =>
    obtain ⟨hq, as, es, r, rfl, -⟩ := hcase
    exact .idle_reached hr hq
  case sensorMeasure =>
    obtain ⟨hq, as, es, r, rfl, -⟩ := hcase
    exact .idle_reached hr hq

/-- Every operation keeps the line invariant; the SPI side leaves the I2C half alone (spec/10_state.md R20). -/
theorem exec_lineInv {i : Instr} {s t : State} (hp : s.params.layoutWf) (hI : LineInv s)
    (h : exec i s = .next t) : LineInv t := by
  cases hi : onSpiSide i with
  | true =>
    have hf := exec_spiFrame hi h
    exact hI.congr hf.params hf.i2c
  | false =>
    by_cases hn : i = .i2cInit
    · subst hn; exact execI2cInit_lineInv h
    · exact exec_i2c_lineInv hp hI hi hn h

/-- Settles O25: the wait and the endless poll leave the I2C half alone, and every operation keeps the invariant. -/
theorem stepKeepsLineInvariant : Obligations.StepKeepsLineInvariant := by
  intro s t hp hI h
  obtain ⟨-, rfl⟩ | ⟨-, -, rfl⟩ | ⟨-, w, rest, i, -, -, hx⟩ := step_next_cases h
  · exact hI.congr rfl rfl
  · exact hI
  · exact exec_lineInv (s := { s with queue := rest }) hp (hI.congr rfl rfl) hx

/-- Settles O26. -/
theorem resetHasLineInvariant : Obligations.ResetHasLineInvariant :=
  ⟨⟨nofun, fun h => absurd rfl h⟩, trivial, nofun⟩

/-! ### The levels of the two wires (spec/10_state.md R23) -/

/-- The data line's level, by the fields of I2C_W. -/
theorem sdaLine_eq (s : State) (pull : Bool) :
    sdaLine s pull = sdaLevel (s.i2c.i2cW.testBit s.params.oeBit) (s.i2c.i2cW.testBit s.params.sdaBit) pull
      (Config.contendedLevel s.trace) := rfl

theorem sdaLevel_released (sda pull c : Bool) : sdaLevel false sda pull c = !pull := rfl
theorem sdaLevel_driven_low (pull c : Bool) : sdaLevel true false pull c = false := rfl
theorem sdaLevel_contended (c : Bool) : sdaLevel true true true c = c := rfl
theorem sdaLevel_driven_alone (sda c : Bool) : sdaLevel true sda false c = sda := by cases sda <;> rfl

/-- Settles O13, each clause by the equation of its combination of enable, driven level and pull. -/
theorem lineLevels : Obligations.LineLevels := by
  intro s pull
  rw [sdaLine_eq]
  refine ⟨rfl, ?_, ?_, ?_, ?_⟩
  · rintro hoe rfl
    rw [hoe, sdaLevel_driven_alone]
  · intro hoe
    rw [hoe, sdaLevel_released]
    cases pull <;> rfl
  · rintro hoe hsda rfl
    rw [hoe, hsda, sdaLevel_contended]
  · intro hoe hsda
    rw [hoe, hsda, sdaLevel_driven_low]

/-! ### The frame invariant (spec/10_state.md R24, R33, R38)

A sequence of SPI micro-steps is followed through its frames: between frames none is open; inside one SPI_CS holds the
select value; a transfer that never ends can only stop a sequence inside a frame. -/

/-- A frame is open and the device is selected. -/
structure FrameSelected (s : State) : Prop where
  opened   : s.spi.inFrame = true
  selected : s.spi.cs = s.params.csSelect

/-- Inside a frame, no poll unfinished, REG_POLL's counter at `c`. -/
structure InsideFrame (c : Option Nat) (s : State) : Prop extends FrameSelected s where
  running : s.hung = false
  counter : s.remaining = c

/-- Between frames, no poll unfinished, REG_POLL's counter at `c`. -/
structure BetweenFrames (c : Option Nat) (s : State) : Prop where
  closed  : s.spi.inFrame = false
  running : s.hung = false
  counter : s.remaining = c

/-- The run returns in a state of `P`, or hangs inside a frame. -/
def Ran.endsIn {α : Type} (P : State → Prop) : Ran α → Prop
  | .returned _ t => P t
  | .hung t => FrameSelected t

theorem Ran.endsIn.bind {α β : Type} {P Q : State → Prop} {r : Ran α} {k : α → State → Ran β} (h : r.endsIn P)
    (hk : ∀ a t, P t → (k a t).endsIn Q) : (r.bind k).endsIn Q := by
  cases r with
  | returned a t => exact hk a t h
  | hung t => exact h

section
variable {c : Option Nat} {s : State}

theorem BetweenFrames.select (h : BetweenFrames c s) : InsideFrame c (selectDevice s) :=
  ⟨⟨rfl, rfl⟩, h.running, h.counter⟩

theorem InsideFrame.deselect (h : InsideFrame c s) : BetweenFrames c (deselectDevice s) :=
  ⟨rfl, h.running, h.counter⟩

theorem BetweenFrames.delay (h : BetweenFrames c s) (t : Duration) : BetweenFrames c (Machine.delay t s) :=
  ⟨h.closed, h.running, h.counter⟩

theorem BetweenFrames.setCounter (h : BetweenFrames c s) (d : Option Nat) :
    BetweenFrames d { s with remaining := d } :=
  ⟨h.closed, h.running, rfl⟩

theorem BetweenFrames.radioResetPulse (h : BetweenFrames c s) : BetweenFrames c (Machine.radioResetPulse s) :=
  ⟨h.closed, h.running, h.counter⟩

/-- An exchange leaves the frame as it is, also when it hangs. -/
theorem InsideFrame.transferByte (h : InsideFrame c s) (out : Byte) :
    (Machine.transferByte out s).endsIn (InsideFrame c) := by
  obtain ⟨⟨hopen, hsel⟩, hrun, hcount⟩ := h
  rw [transferByte_eq]
  split
  · exact ⟨⟨hopen, hsel⟩, hrun, hcount⟩
  · exact ⟨hopen, hsel⟩

theorem InsideFrame.transferAll (h : InsideFrame c s) (bytes : List Byte) :
    (Machine.transferAll bytes s).endsIn (InsideFrame c) := by
  induction bytes generalizing s with
  | nil => exact h
  | cons b bs ih => exact (h.transferByte b).bind fun _ _ ht => ih ht

theorem BetweenFrames.regRead (h : BetweenFrames c s) (a : Addr7) :
    (Machine.regRead a s).endsIn (BetweenFrames c) :=
  (h.select.transferByte _).bind fun _ _ ht => (ht.transferByte _).bind fun _ _ hu => hu.deselect

theorem BetweenFrames.regWrite (h : BetweenFrames c s) (a : Addr7) (v : Byte) :
    (Machine.regWrite a v s).endsIn (BetweenFrames c) :=
  (h.select.transferByte _).bind fun _ _ ht => (ht.transferByte _).bind fun _ _ hu => hu.deselect

theorem BetweenFrames.burstWrite (h : BetweenFrames c s) (a : Addr7) (bytes : List Byte) :
    (Machine.burstWrite a bytes s).endsIn (BetweenFrames c) :=
  (h.select.transferByte _).bind fun _ _ ht => (ht.transferAll _).bind fun _ _ hu => hu.deselect

/-- The loop leaves REG_POLL's counter at some value, between frames. -/
theorem BetweenFrames.pollLoop (h : BetweenFrames c s) (a : Addr7) (mask : Byte) (n : Nat) (flags : Byte) :
    (Machine.pollLoop a mask n flags s).endsIn fun t => ∃ d, BetweenFrames d t := by
  induction n generalizing c s flags with
  | zero => exact ⟨c, h⟩
  | succ n ih =>
    refine (h.regRead a).bind fun f t ht => ?_
    dsimp only
    split
    · exact ⟨c, ht⟩
    · exact ih ((ht.delay .poll).setCounter (some n)) f

/-- REG_POLL's counter is live only while it runs (spec/10_state.md R33). -/
theorem BetweenFrames.regPoll (h : BetweenFrames c s) (a : Addr7) (mask : Byte) (n : Nat) :
    (Machine.regPoll a mask n s).endsIn (BetweenFrames none) :=
  ((h.setCounter (some n)).pollLoop a mask n _).bind fun _ _ ⟨_, ht⟩ => ht.setCounter none

theorem BetweenFrames.setMode (h : BetweenFrames c s) (m : RadioMode) :
    (Machine.setMode m s).endsIn (BetweenFrames c) := h.regWrite _ _

theorem BetweenFrames.regWrites (h : BetweenFrames c s) (ws : List (Addr7 × Byte)) :
    (Machine.regWrites ws s).endsIn (BetweenFrames c) := by
  induction ws generalizing s with
  | nil => exact h
  | cons w ws ih => exact (h.regWrite _ _).bind fun _ _ ht => ih ht

theorem BetweenFrames.radioConfigure (h : BetweenFrames c s) (f : Nat) :
    (Machine.radioConfigure f s).endsIn (BetweenFrames c) :=
  (h.setMode _).bind fun _ _ h => (h.regWrites _).bind fun _ _ h => (h.regWrites _).bind fun _ _ h =>
    (h.regWrite _ _).bind fun _ _ h => (h.setMode _).bind fun _ _ h => h.delay _

theorem BetweenFrames.radioInit (h : BetweenFrames c s) (f : Nat) :
    (Machine.radioInit f s).endsIn (BetweenFrames c) := by
  have hpulse : BetweenFrames c (if s.params.hasReset then Machine.radioResetPulse s else s) := by
    split
    · exact h.radioResetPulse
    · exact h
  refine (hpulse.regRead _).bind fun id t ht => ?_
  split
  · exact ht.radioConfigure f
  · exact ht

theorem BetweenFrames.sendSetup (h : BetweenFrames c s) (payload : List Byte) :
    (Machine.sendSetup payload s).endsIn (BetweenFrames c) :=
  (h.setMode _).bind fun _ _ h => (h.regWrite _ _).bind fun _ _ h => (h.burstWrite _ _).bind fun _ _ h =>
    (h.regWrite _ _).bind fun _ _ h => (h.regWrite _ _).bind fun _ _ h => (h.regWrite _ _).bind fun _ _ h =>
      h.setMode _

theorem BetweenFrames.sendFinish (h : BetweenFrames c s) (found : Bool) :
    (Machine.sendFinish found s).endsIn (BetweenFrames c) := by
  cases found
  · exact (h.setMode _).bind fun _ _ h => h
  · exact (h.regWrite _ _).bind fun _ _ h => (h.setMode _).bind fun _ _ h => h

theorem BetweenFrames.radioSend (h : BetweenFrames c s) (payload : List Byte) :
    (Machine.radioSend payload s).endsIn (BetweenFrames none) :=
  (h.sendSetup payload).bind fun _ _ h => (h.regPoll _ _ _).bind fun r _ h => h.sendFinish r.1

end

/-- The frame invariant speaks of the SPI half, the parameters, the hang flag and REG_POLL's counter only. -/
theorem FrameInv.congr {s t : State} (hI : FrameInv s) (hp : t.params = s.params) (hs : t.spi = s.spi)
    (hh : t.hung = s.hung) (hr : t.remaining = s.remaining) : FrameInv t := by
  obtain ⟨hselected, hopen, hcounter⟩ := hI
  exact ⟨by rwa [hs, hp], by rwa [hh, hs], by rwa [hh, hr]⟩

theorem BetweenFrames.frameInv {s : State} (h : BetweenFrames none s) : FrameInv s :=
  ⟨by simp [h.closed], by simp [h.running], fun _ => h.counter⟩

theorem InsideFrame.frameInv {s : State} (h : InsideFrame none s) : FrameInv s :=
  ⟨fun _ => h.selected, fun _ => h.opened, fun _ => h.counter⟩

/-- An unfinished poll inside a frame meets the invariant, whatever REG_POLL's counter is. -/
theorem FrameSelected.frameInv_hung {s : State} (h : FrameSelected s) : FrameInv { s with hung := true } :=
  ⟨fun _ => h.selected, fun _ => h.opened, nofun⟩

/-- Where an operation that opens its own frames starts. -/
theorem FrameInv.betweenFrames {s : State} (hI : FrameInv s) (hh : s.hung = false) (hclosed : s.spi.inFrame = false) :
    BetweenFrames none (startOp s) :=
  ⟨hclosed, hh, hI.notPolling hh⟩

/-- Where an operation that needs an open frame starts. -/
theorem FrameInv.insideFrame {s : State} (hI : FrameInv s) (hh : s.hung = false) (hopen : s.spi.inFrame = true) :
    InsideFrame none (startOp s) :=
  ⟨⟨hopen, hI.selected hopen⟩, hh, hI.notPolling hh⟩

/-- What a SPI operation leaves meets the invariant, if its run returns in states that do. -/
theorem Ran.endsIn.frameInv {P : State → Prop} {r : Ran Result} (h : r.endsIn P)
    (hP : ∀ t, P t → FrameInv t) : FrameInv r.settle := by
  cases r with
  | returned a t => exact (hP t h).congr rfl rfl rfl rfl
  | hung t => exact FrameSelected.frameInv_hung h

/-- An operation that opens its own frames starts and returns between frames. -/
theorem issueOutsideFrame_frameInv {run : State → Ran Result} {s t : State} (hI : FrameInv s) (hh : s.hung = false)
    (h : issueOutsideFrame (fun u => (run u).settle) s = .next t)
    (hrun : ∀ {u}, BetweenFrames none u → (run u).endsIn (BetweenFrames none)) : FrameInv t := by
  obtain ⟨hclosed, rfl⟩ := issueOutsideFrame_next h
  exact (hrun (hI.betweenFrames hh hclosed)).frameInv fun _ => BetweenFrames.frameInv

/-- Every operation of the SPI side keeps the frame invariant. -/
theorem exec_spi_frameInv {i : Instr} {s t : State} (hI : FrameInv s) (hh : s.hung = false)
    (hi : onSpiSide i = true) (h : exec i s = .next t) : FrameInv t := by
  cases i <;> simp only [onSpiSide, Bool.false_eq_true] at hi
  case spiSelect =>
    simp only [exec, execSpiSelect] at h
    obtain ⟨hclosed, rfl⟩ := issueOutsideFrame_next h
    exact (hI.betweenFrames hh hclosed).select.frameInv
  case spiDeselect =>
    simp only [exec, execSpiDeselect] at h
    obtain ⟨hopen, rfl⟩ := issueInsideFrame_next h
    exact (hI.insideFrame hh hopen).deselect.frameInv
  case spiXfer out =>
    simp only [exec, execSpiXfer] at h
    obtain ⟨hopen, rfl⟩ := issueInsideFrame_next h
    have hrun := (hI.insideFrame hh hopen).transferByte out
    exact Ran.endsIn.frameInv (hrun.bind fun _ _ ht => ht) fun _ => InsideFrame.frameInv
  case regRead =>
    simp only [exec, execRegRead] at h
    exact issueOutsideFrame_frameInv hI hh h fun hu => (hu.regRead _).bind fun _ _ ht => ht
  case regWrite =>
    simp only [exec, execRegWrite] at h
    exact issueOutsideFrame_frameInv hI hh h fun hu => (hu.regWrite _ _).bind fun _ _ ht => ht
  case regBurstWrite =>
    simp only [exec, execRegBurstWrite] at h
    exact issueOutsideFrame_frameInv hI hh h fun hu => (hu.burstWrite _ _).bind fun _ _ ht => ht
  case regPoll =>
    simp only [exec, execRegPoll] at h
    exact issueOutsideFrame_frameInv hI hh h fun hu => (hu.regPoll _ _ _).bind fun _ _ ht => ht
  case radioSetMode =>
    simp only [exec, execRadioSetMode] at h
    exact issueOutsideFrame_frameInv hI hh h fun hu => (hu.setMode _).bind fun _ _ ht => ht
  case radioInit =>
    simp only [exec, execRadioInit] at h
    split at h
    · cases h
    · exact issueOutsideFrame_frameInv hI hh h fun hu => hu.radioInit _
  case radioSend =>
    simp only [exec, execRadioSend] at h
    split at h
    · cases h
      exact hI.congr rfl rfl rfl rfl
    · split at h
      · cases h
      · exact issueOutsideFrame_frameInv hI hh h fun hu => hu.radioSend _

/-- Every operation keeps the frame invariant; the I2C side leaves the SPI half alone (spec/60_exceptions.md R214). -/
theorem exec_frameInv {i : Instr} {s t : State} (hI : FrameInv s) (hh : s.hung = false)
    (h : exec i s = .next t) : FrameInv t := by
  cases hi : onSpiSide i with
  | true => exact exec_spi_frameInv hI hh hi h
  | false =>
    by_cases hn : i = .i2cInit
    · subst hn
      obtain ⟨-, rfl⟩ := execI2cInit_next h
      exact hI.congr rfl rfl rfl rfl
    · have hf := exec_i2cOnly hi hn h
      exact hI.congr hf.params hf.spi hf.hung hf.remaining

/-- Settles O40: the endless poll and the wait leave the frame as it is, and every operation keeps the invariant. -/
theorem stepKeepsFrameInvariant : Obligations.StepKeepsFrameInvariant := by
  intro s t hI h
  obtain ⟨hh, rfl⟩ | ⟨-, -, rfl⟩ | ⟨hh, w, rest, i, -, -, hx⟩ := step_next_cases h
  · obtain ⟨hselected, hopen, hcounter⟩ := hI
    exact ⟨hselected, hopen, hcounter⟩
  · exact hI
  · exact exec_frameInv (s := { s with queue := rest }) (hI.congr rfl rfl rfl rfl) hh hx

/-- Settles O41. -/
theorem resetHasFrameInvariant : Obligations.ResetHasFrameInvariant := ⟨nofun, nofun, fun _ => rfl⟩

/-! ### Reset (spec/10_state.md R41) -/

/-- Settles O55: the trace is empty, so it names no last write. -/
theorem resetRegistersFollowTheTrace : Obligations.ResetRegistersFollowTheTrace := by
  intro r v h
  have hnone : lastWrite r State.reset.trace = none := rfl
  rw [hnone] at h
  cases h

/-- Settles O56: nothing is issued at reset, so the block waits. -/
theorem resetBookkeeping : Obligations.ResetBookkeeping :=
  ⟨rfl, rfl, rfl, rfl, rfl, rfl, step_waiting rfl rfl⟩

end Sys2Proof.Machine

/-! PROOF. The family of spec/20_memory.md: an operation only appends to the trace (R62), and every register the block
writes holds the last value the trace writes to it (R63). -/

namespace Sys2Proof.Machine

/-! ### The trace and the micro-step index (spec/20_memory.md R62, spec/10_state.md R27) -/

/-- Settles O53: I2C_INIT has its two events; the laws of the two sides give the events of every other operation. -/
theorem execAppendsItsEvents : Obligations.ExecAppendsItsEvents := by
  intro i s t h
  cases hi : onSpiSide i with
  | true =>
    have hf := exec_spiFrame hi h
    obtain ⟨es, htrace, hustep⟩ := hf.trace
    exact ⟨es, htrace, hustep, hf.params⟩
  | false =>
    by_cases hn : i = .i2cInit
    · subst hn
      obtain ⟨-, rfl⟩ := execI2cInit_next h
      exact ⟨_, initLines_trace _, rfl, rfl⟩
    · have hf := exec_i2cOnly hi hn h
      obtain ⟨es, htrace, hustep⟩ := hf.trace
      exact ⟨es, htrace, by simpa using hustep, hf.params⟩

/-! ### The last write to a register -/

@[simp] theorem lastWrite_append_memWrite (r r' : WriteReg) (v : HostWord) (tr : List Event) :
    lastWrite r (tr ++ [.memWrite r' v]) = if r' = r then some v else lastWrite r tr := by
  simp [lastWrite]

@[simp] theorem lastWrite_append_memRead (r : WriteReg) (r' : ReadReg) (v : HostWord) (tr : List Event) :
    lastWrite r (tr ++ [.memRead r' v]) = lastWrite r tr := by
  simp [lastWrite]

@[simp] theorem lastWrite_append_delay (r : WriteReg) (d : Duration) (tr : List Event) :
    lastWrite r (tr ++ [.delay d]) = lastWrite r tr := by
  simp [lastWrite]

@[simp] theorem writtenReg_memWrite (r r' : WriteReg) (v : HostWord) (s : State) :
    writtenReg (memWrite r' v s) r = if r' = r then v else writtenReg s r := by
  cases r' <;> cases r <;> rfl

@[simp] theorem writtenReg_memRead (r : ReadReg) (v : HostWord) (s : State) :
    writtenReg (memRead r v s) = writtenReg s := by
  cases r <;> rfl

/-! ### The registers follow the trace (spec/20_memory.md R63, R57)

Every micro-sequence is made of writes, reads, delays and updates of fields that are neither a written register nor the
trace; each of these keeps the property, so each sequence does, in every state and however it ends. -/

section
variable {s : State}

/-- The property speaks of the trace and the five written registers only. -/
theorem RegistersFollowTrace.congr {t : State} (h : RegistersFollowTrace s) (htrace : t.trace = s.trace)
    (hregs : writtenReg t = writtenReg s) : RegistersFollowTrace t := by
  intro r v hv
  rw [htrace] at hv
  rw [hregs]
  exact h r v hv

/-- A write sets its register to the value that is now the last one written to it, and no other register. -/
theorem RegistersFollowTrace.memWrite (h : RegistersFollowTrace s) (r' : WriteReg) (w : HostWord) :
    RegistersFollowTrace (Machine.memWrite r' w s) := by
  intro r v hv
  rw [memWrite_trace, lastWrite_append_memWrite] at hv
  rw [writtenReg_memWrite]
  split at hv
  case isTrue hr => rw [if_pos hr]; exact Option.some.inj hv
  case isFalse hr => rw [if_neg hr]; exact h r v hv

/-- A read puts its value in no register the block writes. -/
theorem RegistersFollowTrace.memRead (h : RegistersFollowTrace s) (r' : ReadReg) (w : HostWord) :
    RegistersFollowTrace (Machine.memRead r' w s) := by
  intro r v hv
  rw [memRead_trace, lastWrite_append_memRead] at hv
  rw [writtenReg_memRead]
  exact h r v hv

theorem RegistersFollowTrace.delay (h : RegistersFollowTrace s) (d : Duration) :
    RegistersFollowTrace (Machine.delay d s) := by
  intro r v hv
  rw [delay_trace, lastWrite_append_delay] at hv
  exact h r v hv

theorem RegistersFollowTrace.startOp (h : RegistersFollowTrace s) : RegistersFollowTrace (Machine.startOp s) :=
  h.congr rfl rfl

theorem RegistersFollowTrace.returnOp (h : RegistersFollowTrace s) (r : Result) :
    RegistersFollowTrace (Machine.returnOp r s) :=
  h.congr rfl rfl

theorem RegistersFollowTrace.failOp (h : RegistersFollowTrace s) (f : Failure) :
    RegistersFollowTrace (Machine.failOp f s) :=
  h.returnOp _

theorem RegistersFollowTrace.setPhase (h : RegistersFollowTrace s) (ph : I2cPhase) :
    RegistersFollowTrace (Machine.setPhase ph s) :=
  h.congr rfl rfl

/-! ### The two-wire sequences -/

/-- The shadow line word is none of the registers (spec/10_state.md R20, R21). -/
theorem RegistersFollowTrace.setShadow (h : RegistersFollowTrace s) (w : HostWord) :
    RegistersFollowTrace { s with i2c := { s.i2c with lw := w } } :=
  h.congr rfl rfl

theorem RegistersFollowTrace.setLine (h : RegistersFollowTrace s) (f : LineField) (b : Bool) :
    RegistersFollowTrace (Machine.setLine f b s) :=
  ((h.setShadow _).memWrite _ _).delay _

theorem RegistersFollowTrace.sample (h : RegistersFollowTrace s) : RegistersFollowTrace (Machine.sample s).2 :=
  (h.memRead .i2cR (i2cRWord s)).congr rfl rfl

theorem RegistersFollowTrace.initLines (h : RegistersFollowTrace s) : RegistersFollowTrace (Machine.initLines s) :=
  have hshadow := h.setShadow (lwf s.params true true true)
  ((hshadow.memWrite .i2cW (lwf s.params true true true)).delay .init).congr rfl rfl

theorem RegistersFollowTrace.startCondition (h : RegistersFollowTrace s) :
    RegistersFollowTrace (Machine.startCondition s) :=
  ((((h.setLine _ _).setLine _ _).setLine _ _).setLine _ _).setLine _ _

theorem RegistersFollowTrace.stopCondition (h : RegistersFollowTrace s) :
    RegistersFollowTrace (Machine.stopCondition s) :=
  (((h.setLine _ _).setLine _ _).setLine _ _).setLine _ _

theorem RegistersFollowTrace.sendBit (h : RegistersFollowTrace s) (b : Bool) :
    RegistersFollowTrace (Machine.sendBit b s) :=
  ((h.setLine _ _).setLine _ _).setLine _ _

theorem RegistersFollowTrace.sendBits (h : RegistersFollowTrace s) (v : Byte) (is : List Nat) :
    RegistersFollowTrace (Machine.sendBits v is s) := by
  induction is generalizing s with
  | nil => exact h
  | cons i is ih => exact ih (h.sendBit _)

theorem RegistersFollowTrace.writeByte (h : RegistersFollowTrace s) (v : Byte) :
    RegistersFollowTrace (Machine.writeByte v s).2 :=
  ((((h.setLine _ _).sendBits v bitOrder).setLine _ _).setLine _ _).sample.setLine _ _

theorem RegistersFollowTrace.readBit (h : RegistersFollowTrace s) : RegistersFollowTrace (Machine.readBit s).2 :=
  (h.setLine _ _).sample.setLine _ _

theorem RegistersFollowTrace.readBits (h : RegistersFollowTrace s) (is : List Nat) (v : Byte) :
    RegistersFollowTrace (Machine.readBits is v s).2 := by
  induction is generalizing s v with
  | nil => exact h
  | cons i is ih => exact ih h.readBit _

theorem RegistersFollowTrace.driveAck (h : RegistersFollowTrace s) (k : Bool) :
    RegistersFollowTrace (Machine.driveAck k s) := by
  cases k
  · exact h.setLine _ _
  · exact (h.setLine _ _).setLine _ _

theorem RegistersFollowTrace.readByte (h : RegistersFollowTrace s) (k : Bool) :
    RegistersFollowTrace (Machine.readByte k s).2 :=
  ((((h.setLine _ _).readBits bitOrder _).driveAck k).setLine _ _).setLine _ _

theorem RegistersFollowTrace.probe (h : RegistersFollowTrace s) (a : Addr7) :
    RegistersFollowTrace (Machine.probe a s).2 :=
  (h.startCondition.writeByte _).stopCondition

theorem RegistersFollowTrace.scanFrom (h : RegistersFollowTrace s) (addrs : List Addr7) :
    RegistersFollowTrace (Machine.scanFrom addrs s).2 := by
  induction addrs generalizing s with
  | nil => exact h
  | cons a addrs ih => exact ih (h.probe a)

theorem RegistersFollowTrace.sendAll (h : RegistersFollowTrace s) (bytes : List Byte) :
    RegistersFollowTrace (Machine.sendAll bytes s).2 := by
  induction bytes generalizing s with
  | nil => exact h
  | cons b bs ih =>
    simp only [Machine.sendAll]
    split
    · exact ih (h.writeByte b)
    · exact h.writeByte b

theorem RegistersFollowTrace.writeTransaction (h : RegistersFollowTrace s) (bytes : List Byte) :
    RegistersFollowTrace (Machine.writeTransaction bytes s).2 :=
  (h.startCondition.sendAll bytes).stopCondition

theorem RegistersFollowTrace.sensorInit (h : RegistersFollowTrace s) :
    RegistersFollowTrace (Machine.sensorInit s) := by
  simp only [Machine.sensorInit]
  split
  · exact ((h.writeTransaction _).delay _).returnOp _
  · exact (h.writeTransaction _).failOp _

theorem RegistersFollowTrace.readResponse (h : RegistersFollowTrace s) :
    RegistersFollowTrace (Machine.readResponse s) := by
  have hread := ((((((h.readByte true).readByte true).readByte true).readByte true).readByte true).readByte
    false).stopCondition
  simp only [Machine.readResponse]
  split
  · exact hread.failOp _
  · exact hread.returnOp _

theorem RegistersFollowTrace.sensorMeasure (h : RegistersFollowTrace s) :
    RegistersFollowTrace (Machine.sensorMeasure s) := by
  have htrigger := h.writeTransaction (sensorWriteAddress :: Config.sensorTriggerCommand)
  have haddress := ((htrigger.delay .sensorConv).startCondition).writeByte sensorReadAddress
  simp only [Machine.sensorMeasure]
  split
  · split
    · exact haddress.readResponse
    · exact haddress.stopCondition.failOp _
  · exact htrigger.failOp _

/-! ### The serial sequences -/

theorem RegistersFollowTrace.selectDevice (h : RegistersFollowTrace s) :
    RegistersFollowTrace (Machine.selectDevice s) :=
  ((h.memWrite .spiCs s.params.csSelect).delay .cs).congr rfl rfl

theorem RegistersFollowTrace.deselectDevice (h : RegistersFollowTrace s) :
    RegistersFollowTrace (Machine.deselectDevice s) :=
  ((h.memWrite .spiCs s.params.csDeselect).delay .cs).congr rfl rfl

theorem RegistersFollowTrace.setCounter (h : RegistersFollowTrace s) (c : Option Nat) :
    RegistersFollowTrace { s with remaining := c } :=
  h.congr rfl rfl

theorem RegistersFollowTrace.setEngine (h : RegistersFollowTrace s) (as : List EngineAnswer) :
    RegistersFollowTrace { s with engine := as } :=
  h.congr rfl rfl

theorem RegistersFollowTrace.pollDone (h : RegistersFollowTrace s) (ws : List HostWord) :
    RegistersFollowTrace (Machine.pollDone ws s).state := by
  induction ws generalizing s with
  | nil => exact h
  | cons w ws ih =>
    simp only [Machine.pollDone]
    split
    · exact h.memRead _ _
    · exact ih (h.memRead _ _)

/-- A sequence keeps the property where its first part does and, if that returns, what follows does. -/
theorem RegistersFollowTrace.bind {α β : Type} {r : Ran α} {k : α → State → Ran β}
    (h : RegistersFollowTrace r.state) (hk : ∀ a t, RegistersFollowTrace t → RegistersFollowTrace (k a t).state) :
    RegistersFollowTrace (r.bind k).state := by
  cases r with
  | returned a t => exact hk a t h
  | hung t => exact h

/-- An operation whose transfer never ends leaves the property as a returning one does. -/
theorem RegistersFollowTrace.settle {r : Ran Result} (h : RegistersFollowTrace r.state) :
    RegistersFollowTrace r.settle := by
  cases r with
  | returned a t => exact h.returnOp a
  | hung t => exact h.congr rfl rfl

/-- A run whose value is handed over as a result. -/
theorem RegistersFollowTrace.settle_bind {α : Type} {r : Ran α} {f : α → Result}
    (h : RegistersFollowTrace r.state) : RegistersFollowTrace (r.bind fun a t => .returned (f a) t).settle :=
  .settle (.bind h fun _ _ ht => ht)

theorem RegistersFollowTrace.transferByte (h : RegistersFollowTrace s) (out : Byte) :
    RegistersFollowTrace (Machine.transferByte out s).state :=
  .bind ((((h.memWrite _ _).memWrite _ _).setEngine _).pollDone _) fun _ _ ht => ht.memRead _ _

theorem RegistersFollowTrace.transferAll (h : RegistersFollowTrace s) (bytes : List Byte) :
    RegistersFollowTrace (Machine.transferAll bytes s).state := by
  induction bytes generalizing s with
  | nil => exact h
  | cons b bs ih => exact (h.transferByte b).bind fun _ _ ht => ih ht

theorem RegistersFollowTrace.regRead (h : RegistersFollowTrace s) (a : Addr7) :
    RegistersFollowTrace (Machine.regRead a s).state :=
  (h.selectDevice.transferByte _).bind fun _ _ h => (h.transferByte _).bind fun _ _ h => h.deselectDevice

theorem RegistersFollowTrace.regWrite (h : RegistersFollowTrace s) (a : Addr7) (v : Byte) :
    RegistersFollowTrace (Machine.regWrite a v s).state :=
  (h.selectDevice.transferByte _).bind fun _ _ h => (h.transferByte _).bind fun _ _ h => h.deselectDevice

theorem RegistersFollowTrace.burstWrite (h : RegistersFollowTrace s) (a : Addr7) (bytes : List Byte) :
    RegistersFollowTrace (Machine.burstWrite a bytes s).state :=
  (h.selectDevice.transferByte _).bind fun _ _ h => (h.transferAll _).bind fun _ _ h => h.deselectDevice

theorem RegistersFollowTrace.pollLoop (h : RegistersFollowTrace s) (a : Addr7) (mask : Byte) (n : Nat)
    (flags : Byte) : RegistersFollowTrace (Machine.pollLoop a mask n flags s).state := by
  induction n generalizing s flags with
  | zero => exact h
  | succ n ih =>
    refine (h.regRead a).bind fun f t ht => ?_
    dsimp only
    split
    · exact ht
    · exact ih ((ht.delay .poll).setCounter (some n)) f

theorem RegistersFollowTrace.regPoll (h : RegistersFollowTrace s) (a : Addr7) (mask : Byte) (n : Nat) :
    RegistersFollowTrace (Machine.regPoll a mask n s).state :=
  ((h.setCounter (some n)).pollLoop a mask n _).bind fun _ _ h => h.setCounter none

theorem RegistersFollowTrace.setMode (h : RegistersFollowTrace s) (m : RadioMode) :
    RegistersFollowTrace (Machine.setMode m s).state :=
  h.regWrite _ _

theorem RegistersFollowTrace.radioResetPulse (h : RegistersFollowTrace s) :
    RegistersFollowTrace (Machine.radioResetPulse s) :=
  (((h.memWrite _ _).delay _).memWrite _ _).delay _

theorem RegistersFollowTrace.regWrites (h : RegistersFollowTrace s) (ws : List (Addr7 × Byte)) :
    RegistersFollowTrace (Machine.regWrites ws s).state := by
  induction ws generalizing s with
  | nil => exact h
  | cons w ws ih => exact (h.regWrite _ _).bind fun _ _ ht => ih ht

theorem RegistersFollowTrace.radioConfigure (h : RegistersFollowTrace s) (f : Nat) :
    RegistersFollowTrace (Machine.radioConfigure f s).state :=
  (h.setMode _).bind fun _ _ h => (h.regWrites _).bind fun _ _ h => (h.regWrites _).bind fun _ _ h =>
    (h.regWrite _ _).bind fun _ _ h => (h.setMode _).bind fun _ _ h => h.delay _

theorem RegistersFollowTrace.radioInit (h : RegistersFollowTrace s) (f : Nat) :
    RegistersFollowTrace (Machine.radioInit f s).state := by
  have hpulse : RegistersFollowTrace (if s.params.hasReset then Machine.radioResetPulse s else s) := by
    split
    · exact h.radioResetPulse
    · exact h
  refine (hpulse.regRead _).bind fun id t ht => ?_
  split
  · exact ht.radioConfigure f
  · exact ht

theorem RegistersFollowTrace.sendSetup (h : RegistersFollowTrace s) (payload : List Byte) :
    RegistersFollowTrace (Machine.sendSetup payload s).state :=
  (h.setMode _).bind fun _ _ h => (h.regWrite _ _).bind fun _ _ h => (h.burstWrite _ _).bind fun _ _ h =>
    (h.regWrite _ _).bind fun _ _ h => (h.regWrite _ _).bind fun _ _ h => (h.regWrite _ _).bind fun _ _ h =>
      h.setMode _

theorem RegistersFollowTrace.sendFinish (h : RegistersFollowTrace s) (found : Bool) :
    RegistersFollowTrace (Machine.sendFinish found s).state := by
  cases found
  · exact (h.setMode _).bind fun _ _ h => h
  · exact (h.regWrite _ _).bind fun _ _ h => (h.setMode _).bind fun _ _ h => h

theorem RegistersFollowTrace.radioSend (h : RegistersFollowTrace s) (payload : List Byte) :
    RegistersFollowTrace (Machine.radioSend payload s).state :=
  (h.sendSetup payload).bind fun _ _ h => (h.regPoll _ _ _).bind fun r _ h => h.sendFinish r.1

end

/-! ### Operations and steps -/

section
variable {s t : State}

theorem issueI2c_registersFollowTrace {allowed : I2cPhase → Bool} {run : State → State}
    (hs : RegistersFollowTrace s) (h : issueI2c allowed run s = .next t)
    (hrun : ∀ {u}, RegistersFollowTrace u → RegistersFollowTrace (run u)) : RegistersFollowTrace t := by
  obtain ⟨-, -, rfl⟩ := issueI2c_next h
  exact hrun hs.startOp

theorem issueOutsideFrame_registersFollowTrace {run : State → State} (hs : RegistersFollowTrace s)
    (h : issueOutsideFrame run s = .next t)
    (hrun : ∀ {u}, RegistersFollowTrace u → RegistersFollowTrace (run u)) : RegistersFollowTrace t := by
  obtain ⟨-, rfl⟩ := issueOutsideFrame_next h
  exact hrun hs.startOp

theorem issueInsideFrame_registersFollowTrace {run : State → State} (hs : RegistersFollowTrace s)
    (h : issueInsideFrame run s = .next t)
    (hrun : ∀ {u}, RegistersFollowTrace u → RegistersFollowTrace (run u)) : RegistersFollowTrace t := by
  obtain ⟨-, rfl⟩ := issueInsideFrame_next h
  exact hrun hs.startOp

/-- Every operation of the I2C side keeps the property. -/
theorem exec_i2c_registersFollowTrace {i : Instr} (hs : RegistersFollowTrace s)
    (hi : onSpiSide i = false) (h : exec i s = .next t) : RegistersFollowTrace t := by
  cases i <;> simp only [onSpiSide, Bool.true_eq_false] at hi
  case i2cInit =>
    obtain ⟨-, rfl⟩ := execI2cInit_next h
    exact hs.startOp.initLines.setPhase _
  case i2cStart =>
    simp only [exec, execI2cStart] at h
    exact issueI2c_registersFollowTrace hs h fun hu => hu.startCondition.setPhase _
  case i2cStop =>
    simp only [exec, execI2cStop] at h
    exact issueI2c_registersFollowTrace hs h fun hu => hu.stopCondition.setPhase _
  case i2cWriteByte v =>
    simp only [exec, execI2cWriteByte] at h
    exact issueI2c_registersFollowTrace hs h fun hu => ((hu.writeByte v).setPhase _).returnOp _
  case i2cReadByte k =>
    simp only [exec, execI2cReadByte] at h
    exact issueI2c_registersFollowTrace hs h fun hu => ((hu.readByte k).setPhase _).returnOp _
  case i2cScan =>
    simp only [exec, execI2cScan] at h
    exact issueI2c_registersFollowTrace hs h fun hu => (hu.scanFrom scanAddresses).returnOp _
  case sensorInit =>
    simp only [exec, execSensorInit] at h
    exact issueI2c_registersFollowTrace hs h fun hu => hu.sensorInit
  case sensorMeasure =>
    simp only [exec, execSensorMeasure] at h
    exact issueI2c_registersFollowTrace hs h fun hu => hu.sensorMeasure

/-- Every operation of the SPI side keeps the property, also when a transfer never ends. -/
theorem exec_spi_registersFollowTrace {i : Instr} (hs : RegistersFollowTrace s)
    (hi : onSpiSide i = true) (h : exec i s = .next t) : RegistersFollowTrace t := by
  cases i <;> simp only [onSpiSide, Bool.false_eq_true] at hi
  case spiSelect =>
    simp only [exec, execSpiSelect] at h
    exact issueOutsideFrame_registersFollowTrace hs h fun hu => hu.selectDevice
  case spiDeselect =>
    simp only [exec, execSpiDeselect] at h
    exact issueInsideFrame_registersFollowTrace hs h fun hu => hu.deselectDevice
  case spiXfer =>
    simp only [exec, execSpiXfer] at h
    exact issueInsideFrame_registersFollowTrace hs h fun hu => (hu.transferByte _).settle_bind
  case regRead =>
    simp only [exec, execRegRead] at h
    exact issueOutsideFrame_registersFollowTrace hs h fun hu => (hu.regRead _).settle_bind
  case regWrite =>
    simp only [exec, execRegWrite] at h
    exact issueOutsideFrame_registersFollowTrace hs h fun hu => (hu.regWrite _ _).settle_bind
  case regBurstWrite =>
    simp only [exec, execRegBurstWrite] at h
    exact issueOutsideFrame_registersFollowTrace hs h fun hu => (hu.burstWrite _ _).settle_bind
  case regPoll =>
    simp only [exec, execRegPoll] at h
    exact issueOutsideFrame_registersFollowTrace hs h fun hu => (hu.regPoll _ _ _).settle_bind
  case radioSetMode =>
    simp only [exec, execRadioSetMode] at h
    exact issueOutsideFrame_registersFollowTrace hs h fun hu => (hu.setMode _).settle_bind
  case radioInit =>
    simp only [exec, execRadioInit] at h
    split at h
    · cases h
    · exact issueOutsideFrame_registersFollowTrace hs h fun hu => (hu.radioInit _).settle
  case radioSend =>
    simp only [exec, execRadioSend] at h
    split at h
    · cases h
      exact hs.startOp.failOp _
    · split at h
      · cases h
      · exact issueOutsideFrame_registersFollowTrace hs h fun hu => (hu.radioSend _).settle

/-- Every operation keeps the property, whatever the state (spec/20_memory.md R63). -/
theorem exec_registersFollowTrace {i : Instr} (hs : RegistersFollowTrace s)
    (h : exec i s = .next t) : RegistersFollowTrace t := by
  cases hi : onSpiSide i with
  | true => exact exec_spi_registersFollowTrace hs hi h
  | false => exact exec_i2c_registersFollowTrace hs hi h

end

/-- Settles O54: the endless poll only reads, the wait does nothing, and every operation keeps the property. -/
theorem stepKeepsRegistersFollowingTheTrace : Obligations.StepKeepsRegistersFollowingTheTrace := by
  intro s t hs h
  obtain ⟨-, rfl⟩ | ⟨-, -, rfl⟩ | ⟨-, w, rest, i, -, -, hx⟩ := step_next_cases h
  · exact hs.memRead _ _
  · exact hs
  · exact exec_registersFollowTrace (s := { s with queue := rest }) (hs.congr rfl rfl) hx

end Sys2Proof.Machine

/-! PROOF. The family of spec/30_encoding.md: the operation words, whose decoder and encoder are inverse to each other
(R82, R83), and the formats of the line word, the control word, the command byte, the frequency bytes, the
operating-mode byte and the sample (R71, R72, R77, R79, R80, R87). -/

namespace Sys2Proof

/-! ### Fields of the operand bits -/

/-- A byte is read back from its eight bits, wherever they stand. -/
theorem byteAt_append {k : Nat} (v : Byte) {pre : List Bool} (rest : List Bool) (h : pre.length = k) :
    byteAt (pre ++ (byteBits v ++ rest)) k = v := by
  rw [byteAt, byteBits, fieldAt_append _ _ _ h, Nat.mod_eq_of_lt v.isLt, BitVec.ofNat_toNat, BitVec.setWidth_eq]

theorem byteAt_byteBits (v : Byte) : byteAt (byteBits v) 0 = v := by
  simpa using byteAt_append (pre := []) v [] rfl

/-- An address that fits its field is read back from its seven bits. -/
theorem addressAt_append {a : Byte} (h : addressFits a = true) (rest : List Bool) :
    addressAt (addressBits a ++ rest) 0 = a := by
  have ha : a.toNat < 2 ^ 7 := of_decide_eq_true h
  have hfield : fieldAt (addressBits a ++ rest) 0 7 = a.toNat % 2 ^ 7 := fieldAt_append (pre := []) 7 a.toNat rest rfl
  rw [addressAt, hfield, Nat.mod_eq_of_lt ha, BitVec.ofNat_toNat, BitVec.setWidth_eq]

/-- A number that fits its field is read back from the field that ends the operand bits. -/
theorem fieldAt_last {k n v : Nat} {pre : List Bool} (h : pre.length = k) (hv : v < 2 ^ n) :
    fieldAt (pre ++ bitsOf n v) k n = v := by
  have hfield := fieldAt_append n v (pre := pre) [] h
  rwa [List.append_nil, Nat.mod_eq_of_lt hv] at hfield

/-- The bits of a byte field. -/
theorem byteBits_byteAt {operands : List Bool} {skip : Nat} (h : skip + 8 ≤ operands.length) :
    byteBits (byteAt operands skip) = (operands.drop skip).take 8 := by
  rw [byteBits, byteAt, BitVec.toNat_ofNat, Nat.mod_eq_of_lt (fieldAt_lt _ _ _), bitsOf_fieldAt h]

theorem addressAt_toNat (operands : List Bool) (skip : Nat) :
    (addressAt operands skip).toNat = fieldAt operands skip 7 :=
  (BitVec.toNat_ofNat _ _).trans (Nat.mod_eq_of_lt ((fieldAt_lt _ _ _).trans (by decide)))

/-- The bits of an address field. -/
theorem addressBits_addressAt {operands : List Bool} {skip : Nat} (h : skip + 7 ≤ operands.length) :
    addressBits (addressAt operands skip) = (operands.drop skip).take 7 := by
  rw [addressBits, addressAt_toNat, bitsOf_fieldAt h]

/-- The bits of an address field and of the byte field after it are the first fifteen operand bits. -/
theorem addressBits_append_byteBits {operands : List Bool} (h : 15 ≤ operands.length) :
    addressBits (addressAt operands 0) ++ byteBits (byteAt operands 7) = operands.take 15 := by
  rw [addressBits_addressAt (by omega), byteBits_byteAt h, List.drop_zero, ← List.take_add]

/-- An address read from its field fits it. -/
theorem addressFits_addressAt (operands : List Bool) (skip : Nat) :
    addressFits (addressAt operands skip) = true := by
  rw [addressFits, addressAt_toNat]
  exact decide_eq_true (fieldAt_lt _ _ _)

theorem modeOf_modeField (m : RadioMode) : modeOf (modeField m) = some m := by cases m <;> rfl

theorem modeField_lt (m : RadioMode) : modeField m < 2 ^ 2 := by cases m <;> decide

/-- A mode field names the mode whose code it is. -/
theorem modeField_of_modeOf {n : Nat} {m : RadioMode} (h : modeOf n = some m) : modeField m = n := by
  unfold modeOf at h
  split at h <;> cases h <;> rfl

/-! ### What the decoder accepts -/

/-- A word decodes exactly if it has an `op`, its row's width, as many trailing bytes as it says, and operands that
name an operation (R82). -/
theorem decode_eq_ok_iff (w : OpWord) (i : Instr) :
    decode w = .ok i ↔
      5 ≤ w.bits.length ∧
      operandWidth (numOf (w.bits.take 5)) = some (w.bits.drop 5).length ∧
      w.trailing.length = trailingCount (numOf (w.bits.take 5)) (w.bits.drop 5) ∧
      decodeOperands (numOf (w.bits.take 5)) (w.bits.drop 5) w.trailing = .ok i := by
  unfold decode
  generalize numOf (w.bits.take 5) = op, w.bits.drop 5 = operands
  by_cases hlen : w.bits.length < 5
  · simp [hlen]
  · cases hw : operandWidth op with
    | none => simp [hlen, hw]
    | some width =>
      by_cases hwidth : operands.length = width
      · by_cases ht : w.trailing.length = trailingCount op operands
        · simp [hlen, hw, hwidth, ht, Nat.le_of_not_lt hlen]
        · simp [hlen, hw, hwidth, ht]
      · simp [hlen, hw, hwidth, Ne.symm hwidth]

/-- An `op` without a row names no operation, whatever follows it (R83). -/
theorem decode_noSuchOperation {w : OpWord} (hlen : 5 ≤ w.bits.length)
    (hop : operandWidth (numOf (w.bits.take 5)) = none) :
    decode w = .error (.noSuchOperation (numOf (w.bits.take 5))) := by
  simp [decode, Nat.not_lt.2 hlen, hop]

/-- The values of `op` that have no row (R82). -/
theorem operandWidth_unassigned {op : Nat} (h : op = 6 ∨ op = 7 ∨ op = 15 ∨ 21 ≤ op) :
    operandWidth op = none := by
  obtain rfl | rfl | rfl | h := h
  · rfl
  · rfl
  · rfl
  · obtain ⟨k, rfl⟩ := Nat.exists_eq_add_of_le' h
    rfl

/-! ### The word of an operation -/

theorem Instr.opIndex_lt (i : Instr) : i.opIndex < 2 ^ 5 := by cases i <;> simp [Instr.opIndex]

/-- The first five bits of an operation's word are its `op`. -/
theorem numOf_take_encode (i : Instr) : numOf ((encode i).bits.take 5) = i.opIndex := by
  rw [encode, List.take_left' (bitsOf_length _ _), numOf_bitsOf, Nat.mod_eq_of_lt i.opIndex_lt]

/-- The rest of its bits are its operands. -/
theorem drop_encode (i : Instr) : (encode i).bits.drop 5 = i.operandBits :=
  List.drop_left' (bitsOf_length _ _)

/-- A word is the word of an operation if its three parts are. -/
theorem encode_eq {w : OpWord} {i : Instr} (hlen : 5 ≤ w.bits.length) (hop : i.opIndex = numOf (w.bits.take 5))
    (hbits : i.operandBits = w.bits.drop 5) (htrailing : i.trailingBytes = w.trailing) : encode i = w := by
  have htake : bitsOf 5 (numOf (w.bits.take 5)) = w.bits.take 5 := by
    simpa [hlen] using bitsOf_numOf (w.bits.take 5)
  rw [encode, hop, htake, hbits, List.take_append_drop, htrailing]

/-- Every operation's word has the width of its row. -/
theorem encodedWidth (i : Instr) : Laws.EncodedWidth.Statement i := by
  cases i with
  | i2cInit => exact Laws.EncodedWidth.i2cInit
  | i2cStart => exact Laws.EncodedWidth.i2cStart
  | i2cStop => exact Laws.EncodedWidth.i2cStop
  | i2cWriteByte v => exact Laws.EncodedWidth.i2cWriteByte v
  | i2cReadByte k => exact Laws.EncodedWidth.i2cReadByte k
  | i2cScan => exact Laws.EncodedWidth.i2cScan
  | spiSelect => exact Laws.EncodedWidth.spiSelect
  | spiDeselect => exact Laws.EncodedWidth.spiDeselect
  | spiXfer v => exact Laws.EncodedWidth.spiXfer v
  | regRead a => exact Laws.EncodedWidth.regRead a
  | regWrite a v => exact Laws.EncodedWidth.regWrite a v
  | regBurstWrite a bytes => exact Laws.EncodedWidth.regBurstWrite a bytes
  | regPoll a m n => exact Laws.EncodedWidth.regPoll a m n
  | sensorInit => exact Laws.EncodedWidth.sensorInit
  | sensorMeasure => exact Laws.EncodedWidth.sensorMeasure
  | radioSetMode m => exact Laws.EncodedWidth.radioSetMode m
  | radioInit f => exact Laws.EncodedWidth.radioInit f
  | radioSend payload l => exact Laws.EncodedWidth.radioSend payload l

/-- A well-formed operation has as many trailing bytes as its operand bits say. -/
theorem trailingBytes_length {i : Instr} (h : i.wf = true) :
    i.trailingBytes.length = trailingCount i.opIndex i.operandBits := by
  cases i with
  | regBurstWrite a bytes =>
    have hn : bytes.length < 2 ^ 16 := by
      simp only [Instr.wf, Bool.and_eq_true, decide_eq_true_eq] at h
      exact h.2
    exact (fieldAt_last (pre := addressBits a) (bitsOf_length _ _) hn).symm
  | radioSend payload l =>
    simp only [Instr.wf, Bool.and_eq_true, decide_eq_true_eq] at h
    obtain ⟨hl, hpayload⟩ := h
    exact hpayload.trans (fieldAt_last (pre := []) rfl hl).symm
  | _ => rfl

/-- The operand bits of a well-formed operation name it, operand by operand. -/
theorem decodeOperands_operandBits {i : Instr} (h : i.wf = true) :
    decodeOperands i.opIndex i.operandBits i.trailingBytes = .ok i := by
  cases i with
  | i2cWriteByte v => simp only [Instr.opIndex, Instr.operandBits, decodeOperands, byteAt_byteBits]
  | spiXfer v => simp only [Instr.opIndex, Instr.operandBits, decodeOperands, byteAt_byteBits]
  | i2cReadByte k => cases k <;> rfl
  | regRead a =>
    have ha : addressAt (addressBits a) 0 = a := by simpa using addressAt_append h []
    simp only [Instr.opIndex, Instr.operandBits, decodeOperands, ha]
  | regWrite a v =>
    have hv : byteAt (addressBits a ++ byteBits v) 7 = v := by
      simpa using byteAt_append (pre := addressBits a) v [] (bitsOf_length _ _)
    simp only [Instr.opIndex, Instr.operandBits, decodeOperands, addressAt_append h, hv]
  | regBurstWrite a bytes =>
    simp only [Instr.wf, Bool.and_eq_true] at h
    obtain ⟨ha, -⟩ := h
    simp only [Instr.opIndex, Instr.operandBits, Instr.trailingBytes, decodeOperands, addressAt_append ha]
  | regPoll a m n =>
    simp only [Instr.wf, Bool.and_eq_true, decide_eq_true_eq] at h
    obtain ⟨ha, hn⟩ := h
    have hm := byteAt_append (pre := addressBits a) m (bitsOf 16 n) (bitsOf_length _ _)
    have hn : fieldAt (addressBits a ++ byteBits m ++ bitsOf 16 n) 15 16 = n :=
      fieldAt_last (by simp [addressBits, byteBits, bitsOf_length]) hn
    simp only [Instr.opIndex, Instr.operandBits, decodeOperands, hn]
    simp only [List.append_assoc, addressAt_append ha, hm]
  | radioSetMode m =>
    have hm : fieldAt (bitsOf 2 (modeField m)) 0 2 = modeField m := fieldAt_last (pre := []) rfl (modeField_lt m)
    simp only [Instr.opIndex, Instr.operandBits, decodeOperands, hm, modeOf_modeField]
  | radioInit f =>
    have hf : fieldAt (bitsOf 32 f) 0 32 = f := fieldAt_last (pre := []) rfl (of_decide_eq_true h)
    simp only [Instr.opIndex, Instr.operandBits, decodeOperands, hf]
  | radioSend payload l =>
    simp only [Instr.wf, Bool.and_eq_true, decide_eq_true_eq] at h
    obtain ⟨hlt, -⟩ := h
    have hl : fieldAt (bitsOf 16 l) 0 16 = l := fieldAt_last (pre := []) rfl hlt
    simp only [Instr.opIndex, Instr.operandBits, Instr.trailingBytes, decodeOperands, hl]
  | _ => rfl

/-- Settles O1: the word of a well-formed operation has its `op`, its row's width and its trailing bytes, and its
operand bits name the operation. -/
theorem decodeOfEncodeIsIdentity : Obligations.DecodeOfEncodeIsIdentity := by
  intro i h
  rw [decode_eq_ok_iff, numOf_take_encode, drop_encode]
  refine ⟨?_, (encodedWidth i).1, trailingBytes_length h, decodeOperands_operandBits h⟩
  simp [encode, bitsOf_length]

/-! ### The operation of a word -/

/-- The operation has these three parts as its word, and its operands fit their fields. -/
structure Instr.HasWord (i : Instr) (op : Nat) (operands : List Bool) (trailing : List Byte) : Prop where
  wf : i.wf = true
  opIndex : i.opIndex = op
  operandBits : i.operandBits = operands
  trailingBytes : i.trailingBytes = trailing

/-- What `decodeOperands` names, given its row's width and the trailing bytes the operands say, is an operation
whose word has these parts: no operand bit is dropped. -/
theorem hasWord_of_decodeOperands {op : Nat} {operands : List Bool} {trailing : List Byte} {i : Instr}
    (hw : operandWidth op = some operands.length) (ht : trailing.length = trailingCount op operands)
    (h : decodeOperands op operands trailing = .ok i) : i.HasWord op operands trailing := by
  unfold decodeOperands at h
  split at h
  case h_4 | h_9 => -- I2C_WRITE_BYTE, SPI_XFER: one byte
    cases h
    have hlen : 8 = operands.length := Option.some.inj hw
    refine ⟨rfl, rfl, ?_, (List.eq_nil_of_length_eq_zero ht).symm⟩
    exact (byteBits_byteAt hlen.le).trans (List.take_of_length_le hlen.ge)
  case h_5 => -- I2C_READ_BYTE
    cases h
    obtain ⟨k, rfl⟩ := List.length_eq_one_iff.1 (Option.some.inj hw).symm
    refine ⟨rfl, rfl, ?_, (List.eq_nil_of_length_eq_zero ht).symm⟩
    cases k <;> rfl
  case h_10 => -- REG_READ
    cases h
    have hlen : 7 = operands.length := Option.some.inj hw
    refine ⟨addressFits_addressAt _ _, rfl, ?_, (List.eq_nil_of_length_eq_zero ht).symm⟩
    exact (addressBits_addressAt hlen.le).trans (List.take_of_length_le hlen.ge)
  case h_11 => -- REG_WRITE
    cases h
    have hlen : 15 = operands.length := Option.some.inj hw
    refine ⟨addressFits_addressAt _ _, rfl, ?_, (List.eq_nil_of_length_eq_zero ht).symm⟩
    exact (addressBits_append_byteBits hlen.le).trans (List.take_of_length_le hlen.ge)
  case h_12 => -- REG_BURST_WRITE
    cases h
    have hlen : 23 = operands.length := Option.some.inj hw
    have hcount : trailing.length = fieldAt operands 7 16 := ht
    have hlt := fieldAt_lt operands 7 16
    refine ⟨?_, rfl, ?_, rfl⟩
    · simpa [Instr.wf, addressFits_addressAt, hcount] using hlt
    · rw [Instr.operandBits, addressBits_addressAt (by omega), hcount, bitsOf_fieldAt (by omega), List.drop_zero,
        ← List.take_add, List.take_of_length_le hlen.ge]
  case h_13 => -- REG_POLL
    cases h
    have hlen : 31 = operands.length := Option.some.inj hw
    have hlt := fieldAt_lt operands 15 16
    refine ⟨?_, rfl, ?_, (List.eq_nil_of_length_eq_zero ht).symm⟩
    · simpa [Instr.wf, addressFits_addressAt] using hlt
    · rw [Instr.operandBits, addressBits_append_byteBits (by omega), bitsOf_fieldAt (by omega), ← List.take_add,
        List.take_of_length_le hlen.ge]
  case h_16 => -- RADIO_SET_MODE
    split at h
    · next m hm =>
      cases h
      have hlen : 2 = operands.length := Option.some.inj hw
      refine ⟨rfl, rfl, ?_, (List.eq_nil_of_length_eq_zero ht).symm⟩
      rw [Instr.operandBits, modeField_of_modeOf hm, bitsOf_fieldAt hlen.le, List.drop_zero,
        List.take_of_length_le hlen.ge]
    · cases h
  case h_17 => -- RADIO_INIT
    cases h
    have hlen : 32 = operands.length := Option.some.inj hw
    refine ⟨decide_eq_true (fieldAt_lt operands 0 32), rfl, ?_, (List.eq_nil_of_length_eq_zero ht).symm⟩
    exact (bitsOf_fieldAt hlen.le).trans (List.take_of_length_le hlen.ge)
  case h_18 => -- RADIO_SEND
    cases h
    have hlen : 16 = operands.length := Option.some.inj hw
    have hcount : trailing.length = fieldAt operands 0 16 := ht
    have hlt := fieldAt_lt operands 0 16
    refine ⟨?_, rfl, ?_, rfl⟩
    · simpa [Instr.wf, hcount] using hlt
    · exact (bitsOf_fieldAt hlen.le).trans (List.take_of_length_le hlen.ge)
  case h_19 => cases h
  all_goals -- the rows without operands
    cases h
    exact ⟨rfl, rfl, (List.eq_nil_of_length_eq_zero (Option.some.inj hw).symm).symm,
      (List.eq_nil_of_length_eq_zero ht).symm⟩

/-- Settles O2: the parts of a word that decodes are those of the operation's own word. -/
theorem encodeOfDecodeIsIdentity : Obligations.EncodeOfDecodeIsIdentity := by
  intro w i h
  obtain ⟨hlen, hw, ht, hi⟩ := (decode_eq_ok_iff w i).1 h
  have hword := hasWord_of_decodeOperands hw ht hi
  exact ⟨hword.wf, encode_eq hlen hword.opIndex hword.operandBits hword.trailingBytes⟩

/-! ### Words written out and words that name nothing -/

/-- The mode field 11 names no mode (R82). -/
theorem decode_noSuchMode : decode ⟨[true, false, false, true, false, true, true], []⟩ = .error .noSuchMode := rfl

/-- Settles O3: each of these words but the last is, written out, its operation's own word. -/
theorem writtenOutWordsDecode : Obligations.WrittenOutWordsDecode :=
  ⟨decodeOfEncodeIsIdentity .i2cInit rfl, decodeOfEncodeIsIdentity (.i2cWriteByte 0x70#8) rfl,
    decodeOfEncodeIsIdentity (.i2cReadByte true) rfl, decodeOfEncodeIsIdentity (.regWrite 0x01#8 0x81#8) rfl,
    decodeOfEncodeIsIdentity (.regBurstWrite 0x00#8 [0x48#8, 0x69#8]) rfl, decodeOfEncodeIsIdentity .sensorInit rfl,
    decodeOfEncodeIsIdentity (.radioSetMode .standby) rfl, decode_noSuchMode⟩

/-- The step that meets a word that does not decode is refused under the decoder's name. -/
theorem step_undecodable {s : Machine.State} {w : OpWord} {rest : List OpWord} {e : DecodeError}
    (hh : s.hung = false) (hq : s.queue = w :: rest) (hd : decode w = .error e) :
    Machine.step s = .refused (.undecodable e) := by
  simp [Machine.step, hh, Machine.fetchOp, hq, hd]

/-- Settles O4: neither an `op` without a row nor the mode field 11 decodes. -/
theorem unassignedWordsAreRefused : Obligations.UnassignedWordsAreRefused := by
  intro s w rest hh hq
  constructor
  · rintro op hlen rfl hop
    exact step_undecodable hh hq (decode_noSuchOperation hlen (operandWidth_unassigned hop))
  · rintro rfl
    exact step_undecodable hh hq decode_noSuchMode

/-! ### The opcode table's numbering (log 10) -/

/-- A number that fits a row's width is read at that width only. -/
theorem candidateWidths_tableWidth {n v : Nat} (hn : n ∈ tableWidths) (hv : v < 2 ^ n) :
    candidateWidths n v = [n] := by
  simp [candidateWidths, hn, hv]

/-- An operation's word, where its trailing bytes are zero, is the table's word of its width and number. -/
theorem wordOfWidth_encode {i : Instr} (h : i.wf = true)
    (hzero : i.trailingBytes = List.replicate i.trailingBytes.length 0#8) :
    wordOfWidth (encode i).bits.length (numOf (encode i).bits) = encode i := by
  have htrailing : List.replicate (trailingCount i.opIndex i.operandBits) 0#8 = (encode i).trailing := by
    rw [← trailingBytes_length h, ← hzero, encode]
  rw [wordOfWidth, bitsOf_numOf, numOf_take_encode, drop_encode, htrailing]

/-- Settles O5: the operation's width is a row's and its number fits it, so the table's word is the operation's own. -/
theorem tableNumbersDecode : Obligations.TableNumbersDecode := by
  intro i h hzero
  have hdecode := decodeOfEncodeIsIdentity i h
  have hword : tableOpWord (encode i).bits.length (numOf (encode i).bits) = encode i := by
    simp [tableOpWord, candidateWidths_tableWidth (encodedWidth i).2 (numOf_lt _), wordOfWidth_encode h hzero,
      decodes, hdecode]
  rw [decodeTableWord, hword, hdecode]

end Sys2Proof

namespace Sys2Proof.Machine

/-! ### The line word and the control word (R71, R79) -/

/-- A one-bit field below the width fits the word. -/
theorem bit_shiftLeft_lt (b : Bool) {pos width : Nat} (h : pos < width) : b.toNat <<< pos < 2 ^ width := by
  calc b.toNat <<< pos ≤ 1 <<< pos := by rw [Nat.shiftLeft_eq, Nat.shiftLeft_eq]; gcongr; exact b.toNat_le
    _ < 2 ^ width := by rw [Nat.one_shiftLeft]; exact Nat.pow_lt_pow_right (by decide) h

/-- With its fields inside the width, the line word is their or: nothing is cut off. -/
theorem lwf_eq_or {p : Params} (hp : p.layoutWf = true) (a b c : Bool) :
    lwf p a b c = (a.toNat <<< p.sclBit) ||| (b.toNat <<< p.sdaBit) ||| (c.toNat <<< p.oeBit) := by
  obtain ⟨-, hscl, hsda, hoe, -⟩ := (Params_layoutWf_iff p).1 hp
  exact Nat.mod_eq_of_lt (Nat.or_lt_two_pow (Nat.or_lt_two_pow (bit_shiftLeft_lt a hscl) (bit_shiftLeft_lt b hsda))
    (bit_shiftLeft_lt c hoe))

/-- Settles O6, from the line word's bits. -/
theorem lineWordFormat : Obligations.LineWordFormat := by
  intro p a b c hp
  refine ⟨lwf_eq_or hp a b c, lwf_lt p a b c, lineField_lwf_scl hp a b c, lineField_lwf_sda hp a b c,
    lineField_lwf_oe hp a b c, ?_⟩
  intro i hscl hsda hoe
  simp [testBit_lwf, hscl, hsda, hoe]

/-- The parts of `Params.ctrlWf`, as propositions. -/
theorem Params_ctrlWf_iff (p : Params) : p.ctrlWf = true ↔
    8 < 2 ^ p.ctrlLenWidth ∧
      (p.ctrlStartBit < p.ctrlLenLsb ∨ p.ctrlLenLsb + p.ctrlLenWidth ≤ p.ctrlStartBit) := by
  rw [Params.ctrlWf, Bool.and_eq_true, Bool.or_eq_true, decide_eq_true_iff, decide_eq_true_iff, decide_eq_true_iff,
    Config.xferLen]

/-- Every bit of the control word: the start bit, and the bits of 8 in the length field. -/
theorem testBit_ctrlw (p : Params) (i : Nat) :
    (ctrlw p).testBit i =
      (decide (p.ctrlStartBit = i) || (decide (p.ctrlLenLsb ≤ i) && (8).testBit (i - p.ctrlLenLsb))) := by
  simp [ctrlw, Config.xferLen, Nat.one_shiftLeft, Nat.testBit_two_pow, Nat.testBit_shiftLeft]

/-- Settles O8: the start bit lies outside the length field, whose bits are those of 8. -/
theorem controlWordFormat : Obligations.ControlWordFormat := by
  intro p hp
  obtain ⟨hfits, hstart⟩ := (Params_ctrlWf_iff p).1 hp
  refine ⟨rfl, by simp [testBit_ctrlw], ?_⟩
  rw [← Nat.mod_eq_of_lt hfits]
  apply Nat.eq_of_testBit_eq
  intro i
  rw [Nat.testBit_mod_two_pow, Nat.testBit_mod_two_pow, Nat.testBit_shiftRight, testBit_ctrlw]
  by_cases hi : i < p.ctrlLenWidth
  · have hne : p.ctrlStartBit ≠ p.ctrlLenLsb + i := by omega
    simp [hi, hne]
  · simp [hi]

/-! ### The bytes of the serial link (R77, R80, R87) -/

/-- Every bit of a command byte. -/
theorem getLsbD_cmdb (w : Bool) (a : Addr7) (i : Nat) :
    (cmdb w a).getLsbD i = if i = 7 then w else a.getLsbD i :=
  BitVec.getLsbD_cons w a i

/-- The low seven bits of a command byte are its address. -/
theorem setWidth_cmdb (w : Bool) (a : Addr7) : (cmdb w a).setWidth 7 = a := by
  rw [cmdb, BitVec.setWidth_append, dif_pos (Nat.le_refl 7), BitVec.setWidth_eq]

/-- A read header is the operand with bit 7 cleared (R86, D16; log 14). -/
theorem cmdb_false_radioAddress (operand : Byte) : cmdb false (radioAddress operand) = operand &&& 0x7F#8 := by
  have hmask : ∀ i < 8, (0x7F#8).getLsbD i = decide (i ≠ 7) := by decide
  apply BitVec.eq_of_getLsbD_eq
  intro i hi
  rw [getLsbD_cmdb, radioAddress, BitVec.getLsbD_setWidth, BitVec.getLsbD_and, hmask i hi]
  by_cases h : i = 7
  · simp [h]
  · simp [h, show i < 7 by omega]

/-- A write header is the operand with bit 7 set. -/
theorem cmdb_true_radioAddress (operand : Byte) : cmdb true (radioAddress operand) = operand ||| 0x80#8 := by
  have hmask : ∀ i < 8, (0x80#8).getLsbD i = decide (i = 7) := by decide
  apply BitVec.eq_of_getLsbD_eq
  intro i hi
  rw [getLsbD_cmdb, radioAddress, BitVec.getLsbD_setWidth, BitVec.getLsbD_or, hmask i hi]
  by_cases h : i = 7
  · simp [h]
  · simp [h, show i < 7 by omega]

/-- Settles O7: bit 7 and the low seven bits of a command byte, and the headers of an operand of eight bits. -/
theorem commandByteFormat : Obligations.CommandByteFormat :=
  ⟨fun w a => ⟨getLsbD_cmdb w a 7, setWidth_cmdb w a⟩,
    fun operand => ⟨cmdb_false_radioAddress operand, cmdb_true_radioAddress operand⟩, rfl, rfl⟩

/-- A byte set beside a number's bits is added to the number shifted up. -/
theorem toNat_append_byte {n : Nat} (x : BitVec n) (b : Byte) : (x ++ b).toNat = x.toNat * 2 ^ 8 + b.toNat := by
  rw [BitVec.toNat_append, ← Nat.shiftLeft_add_eq_or_of_lt b.isLt, Nat.shiftLeft_eq]

/-- Settles O10: the three bytes are the digits of the value in base 256. -/
theorem frequencyTripleFormat : Obligations.FrequencyTripleFormat := by
  refine ⟨fun v hv => ?_, rfl⟩
  rw [toNat_append_byte, toNat_append_byte]
  simp only [frfMsb, frfMid, frfLsb, BitVec.toNat_ofNat, Nat.shiftRight_eq_div_pow]
  omega

/-- The parts of `Params.modesWf`, as propositions. -/
theorem Params_modesWf_iff (p : Params) : p.modesWf = true ↔
    (∃ i < 8, p.lrBit = 1#8 <<< i) ∧
      p.modeSleep ≠ p.modeStandby ∧ p.modeSleep ≠ p.modeTransmit ∧ p.modeStandby ≠ p.modeTransmit ∧
      p.modeSleep &&& p.lrBit = 0 ∧ p.modeStandby &&& p.lrBit = 0 ∧ p.modeTransmit &&& p.lrBit = 0 := by
  simp only [Params.modesWf, Bool.and_eq_true, decide_eq_true_eq, List.any_eq_true, List.mem_range, and_assoc]

/-- No mode code overlaps LR_BIT. -/
theorem modeCode_and_lrBit {p : Params} (hp : p.modesWf = true) (m : RadioMode) : modeCode p m &&& p.lrBit = 0 := by
  obtain ⟨-, -, -, -, hsleep, hstandby, htransmit⟩ := (Params_modesWf_iff p).1 hp
  cases m with
  | sleep => exact hsleep
  | standby => exact hstandby
  | transmit => exact htransmit

/-- The three mode codes are distinct. -/
theorem modeCode_injective {p : Params} (hp : p.modesWf = true) : Function.Injective (modeCode p) := by
  obtain ⟨-, hsleepStandby, hsleepTransmit, hstandbyTransmit, -⟩ := (Params_modesWf_iff p).1 hp
  intro m m' h
  match m, m', h with
  | .sleep, .sleep, _ | .standby, .standby, _ | .transmit, .transmit, _ => rfl
  | .sleep, .standby, h => exact absurd h hsleepStandby
  | .sleep, .transmit, h => exact absurd h hsleepTransmit
  | .standby, .transmit, h => exact absurd h hstandbyTransmit
  | .standby, .sleep, h => exact absurd h.symm hsleepStandby
  | .transmit, .sleep, h => exact absurd h.symm hsleepTransmit
  | .transmit, .standby, h => exact absurd h.symm hstandbyTransmit

/-- The operating-mode byte keeps LR_BIT. -/
theorem opmode_and_lrBit (p : Params) (m : RadioMode) : opmode p m &&& p.lrBit = p.lrBit := by
  rw [opmode]
  ext i hi
  cases hbit : p.lrBit[i] <;> simp [hbit]

/-- Beside LR_BIT, which it does not overlap, the operating-mode byte is the mode code. -/
theorem opmode_and_not_lrBit {p : Params} (hp : p.modesWf = true) (m : RadioMode) :
    opmode p m &&& ~~~p.lrBit = modeCode p m := by
  rw [opmode]
  ext i hi
  have hdisjoint : ((modeCode p m)[i] && p.lrBit[i]) = false := by
    simpa using congrArg (·[i]) (modeCode_and_lrBit hp m)
  cases hbit : p.lrBit[i] with
  | false => simp [hbit]
  | true =>
    have hcode : (modeCode p m)[i] = false := by simpa [hbit] using hdisjoint
    simp [hbit, hcode]

/-- Settles O11: the mode code is what stands beside the fixed bit, and the codes are distinct. -/
theorem operatingModeByte : Obligations.OperatingModeByte := by
  intro p
  refine ⟨rfl, rfl, rfl, fun hp m m' => ⟨opmode_and_lrBit p m, opmode_and_not_lrBit hp m, fun h => ?_⟩⟩
  apply modeCode_injective hp
  rw [← opmode_and_not_lrBit hp m, h, opmode_and_not_lrBit hp m']

/-! ### The sample (R72, R101, R58) -/

/-- Writing a bit inside the width keeps the word inside it. -/
theorem setBit_lt {w pos width : Nat} (hpos : pos < width) (hw : w < 2 ^ width) (b : Bool) :
    setBit w pos b < 2 ^ width := by
  apply Nat.lt_pow_two_of_testBit
  intro i hi
  rw [testBit_setBit, if_neg (by omega)]
  exact Nat.testBit_lt_two_pow (hw.trans_le (Nat.pow_le_pow_right (by decide) hi))

/-- The input bit of the word a sample reads is the data line. -/
theorem testBit_i2cRWord (s : State) :
    (i2cRWord s).testBit s.params.sdaInBit = sdaLine s (responderAnswer s).pull :=
  testBit_setBit_self _ _ _

/-- A sample is one read of I2C_R: its event, and the answer used. -/
theorem sample_eq (s : State) :
    sample s =
      ((i2cRWord s).testBit s.params.sdaInBit,
        { s with
          i2c := { s.i2c with i2cR := i2cRWord s }
          trace := s.trace ++ [.memRead .i2cR (i2cRWord s)]
          ustep := s.ustep + 1
          responder := s.responder.tail }) := rfl

/-- Settles O15: the input bit is the line, which floats high on a released line unless it is pulled low. -/
theorem sampleReadsTheLine : Obligations.SampleReadsTheLine := by
  intro s
  refine ⟨i2cRWord s, sample_eq s, fun hoe => ?_, fun hp => ?_⟩
  · have hreleased : s.i2c.i2cW.testBit s.params.oeBit = false := hoe
    rw [testBit_i2cRWord, sdaLine_eq, hreleased, sdaLevel_released, Bool.not_eq_false']
  · exact setBit_lt (of_decide_eq_true hp) (Nat.mod_lt _ (Nat.two_pow_pos _)) _

end Sys2Proof.Machine

/-! PROOF. The family of spec/40_i2c_master.md: the wire rules (R112), the words each operation of the I2C master
writes and the state it leaves (R100 to R110), and the successions it refuses (R111). -/

namespace Sys2Proof.Machine

/-- A written transaction of one byte: start, byte, stop. -/
theorem transactionEvents_single (p : Params) (w : Byte × ResponderAnswer) :
    transactionEvents p [w] =
      lineEvents p (startLevels true true) ++ writeEvents p false w.1 w.2 ++ lineEvents p (stopLevels false false) := by
  rw [transactionEvents, writtenEvents, writtenEvents, List.append_nil]

/-! ### The wire rules on levels (spec/40_i2c_master.md R112)

The rules of a trace are rules of the levels its writes put on the wires: a wire segment says so of the events that lead
from some levels to others, and segments compose. -/

/-- The level of one field. -/
def Levels.field (l : Levels) : LineField → Bool
  | .scl => l.scl
  | .sda => l.sda
  | .oe => l.oe

theorem lineField_word {p : Params} (hp : p.layoutWf) (f : LineField) (l : Levels) :
    lineField p f (l.word p) = l.field f := by
  cases f
  · exact lineField_lwf_scl hp _ _ _
  · exact lineField_lwf_sda hp _ _ _
  · exact lineField_lwf_oe hp _ _ _

/-- How many fields differ. -/
def Levels.fieldsApart (l m : Levels) : Nat :=
  [LineField.scl, .sda, .oe].countP fun f => l.field f != m.field f

theorem fieldsChanged_word {p : Params} (hp : p.layoutWf) (l m : Levels) :
    fieldsChanged p (l.word p) (m.word p) = l.fieldsApart m := by
  simp only [fieldsChanged, Levels.fieldsApart, lineField_word hp]

/-- The line change from `l` to `m` moves the data line, or its enable, while the clock is high. -/
def Levels.movesDataHigh (l m : Levels) : Bool := l.scl && m.scl && (l.sda != m.sda || l.oe != m.oe)

/-- A change of the data line, `n` line changes later. -/
def later (n : Nat) (x : Nat × Levels) : Nat × Levels := (n + x.1, x.2)

@[simp] theorem later_zero : later 0 = id := by
  funext x
  simp [later]

theorem later_later (m n : Nat) (x : Nat × Levels) : later m (later n x) = later (m + n) x := by
  simp [later, Nat.add_assoc]

/-- The changes of the data line while the clock is high, in line changes from the levels `l`. -/
def highMoves : Levels → List Levels → List (Nat × Levels)
  | _, [] => []
  | l, m :: ms => (if l.movesDataHigh m then [(1, ⟨true, m.sda, m.oe⟩)] else []) ++ (highMoves m ms).map (later 1)

/-- The events `es` lead from the levels `l` to the levels `m` by `n` line changes, change the data line while the clock
is high as `cs` says, sample only with the clock high and the line released, and change one field at a time. -/
structure WireSegment (p : Params) (l : Levels) (es : List Event) (m : Levels) (n : Nat)
    (cs : List (Nat × Levels)) : Prop where
  changes : ∀ k fs, changesWhileHigh p k (l.word p) (es ++ fs) =
    cs.map (later k) ++ changesWhileHigh p (k + n) (m.word p) fs
  samples : ∀ fs, samplesReleasedHigh p (l.word p) (es ++ fs) = samplesReleasedHigh p (m.word p) fs
  oneField : ∀ fs, oneFieldAtATime p (l.word p) (es ++ fs) = oneFieldAtATime p (m.word p) fs

namespace WireSegment

variable {p : Params} {l m k : Levels} {es fs : List Event} {n n' : Nat} {cs ds : List (Nat × Levels)}

/-- What a segment says of its own events. -/
theorem rules (h : WireSegment p l es m n cs) :
    changesWhileHigh p 0 (l.word p) es = cs ∧ samplesReleasedHigh p (l.word p) es = true ∧
      oneFieldAtATime p (l.word p) es = true := by
  refine ⟨?_, ?_, ?_⟩
  · simpa [changesWhileHigh] using h.changes 0 []
  · simpa [samplesReleasedHigh] using h.samples []
  · simpa [oneFieldAtATime] using h.oneField []

theorem nil (p : Params) (l : Levels) : WireSegment p l [] l 0 [] :=
  ⟨fun _ _ => rfl, fun _ => rfl, fun _ => rfl⟩

theorem append (h : WireSegment p l es m n cs) (h' : WireSegment p m fs k n' ds) :
    WireSegment p l (es ++ fs) k (n + n') (cs ++ ds.map (later n)) where
  changes j gs := by
    rw [List.append_assoc, h.changes, h'.changes]
    simp [later_later, Function.comp_def, Nat.add_assoc]
  samples gs := by rw [List.append_assoc, h.samples, h'.samples]
  oneField gs := by rw [List.append_assoc, h.oneField, h'.oneField]

/-- Segments that leave the data line alone while the clock is high compose to one that does. -/
theorem append_quiet (h : WireSegment p l es m n []) (h' : WireSegment p m fs k n' []) :
    WireSegment p l (es ++ fs) k (n + n') [] :=
  h.append h'

/-- One line change of at most one field. -/
theorem line (hp : p.layoutWf) (hone : l.fieldsApart m ≤ 1) :
    WireSegment p l (lineEvents p [m]) m 1 (if l.movesDataHigh m then [(1, ⟨true, m.sda, m.oe⟩)] else []) where
  changes j gs := by
    have hwrite : changesWhileHigh p j (l.word p) (lineEvents p [m] ++ gs) =
        if l.movesDataHigh m then (j + 1, ⟨true, m.sda, m.oe⟩) :: changesWhileHigh p (j + 1) (m.word p) gs
        else changesWhileHigh p (j + 1) (m.word p) gs := by
      simp [changesWhileHigh, lineField_word hp, Levels.field, Levels.movesDataHigh]
    rw [hwrite]
    split <;> rfl
  samples gs := rfl
  oneField gs := by
    simp [oneFieldAtATime, fieldsChanged_word hp, hone]

/-- Line changes, each of at most one field. -/
theorem lines (hp : p.layoutWf) {ls : List Levels} (hone : (l :: ls).IsChain fun a b => a.fieldsApart b ≤ 1) :
    WireSegment p l (lineEvents p ls) (ls.getLastD l) ls.length (highMoves l ls) := by
  induction ls generalizing l with
  | nil => exact .nil p l
  | cons m ms ih =>
    obtain ⟨hfirst, hrest⟩ := List.isChain_cons_cons.1 hone
    rw [List.getLastD_cons, List.length_cons, Nat.add_comm]
    exact (line hp hfirst).append (ih hrest)

/-- A sample with the clock high and the line released. -/
theorem sample (hp : p.layoutWf) (sda : Bool) (v : HostWord) :
    WireSegment p ⟨true, sda, false⟩ [.memRead .i2cR v] ⟨true, sda, false⟩ 0 [] where
  changes _ _ := rfl
  samples fs := by simp [samplesReleasedHigh, lineField_word hp, Levels.field]
  oneField _ := rfl

/-- A loop: segments that end at the levels they start from, one for each element of a list. -/
theorem loop {α : Type} {f : α → List Event} (xs : List α) (h : ∀ x ∈ xs, WireSegment p l (f x) l n cs) :
    WireSegment p l (xs.flatMap f) l (n * xs.length)
      ((List.range xs.length).flatMap fun j => cs.map (later (n * j))) := by
  induction xs with
  | nil => exact .nil p l
  | cons x xs ih =>
    have hrest := (h x List.mem_cons_self).append (ih fun y hy => h y (List.mem_cons_of_mem x hy))
    convert hrest using 1
    · rw [List.flatMap_cons]
    · rw [List.length_cons, Nat.mul_succ, Nat.add_comm]
    · simp [List.length_cons, List.range_succ_eq_map, List.map_flatMap, List.flatMap_map, later_later,
        Function.comp_def, Nat.mul_succ, Nat.add_comm]

/-- A loop whose segments leave the data line alone while the clock is high. -/
theorem loop_quiet {α : Type} {f : α → List Event} (xs : List α) (h : ∀ x ∈ xs, WireSegment p l (f x) l n []) :
    WireSegment p l (xs.flatMap f) l (n * xs.length) [] := by
  have hall := loop xs h
  have hnone : ((List.range xs.length).flatMap fun j => ([] : List (Nat × Levels)).map (later (n * j))) = [] :=
    List.flatMap_eq_nil_iff.2 fun _ _ => rfl
  rwa [hnone] at hall

/-! ### The segments of the operations -/

/-- The start, from the idle levels or with the clock low: the data line falls at the fourth line change (R103). -/
theorem start (hp : p.layoutWf) (hl : l = .idle ∨ l.scl = false) :
    WireSegment p l (lineEvents p (startLevels l.scl l.oe)) ⟨false, false, true⟩ 5 [(4, ⟨true, false, true⟩)] := by
  obtain ⟨scl, sda, oe⟩ := l
  obtain h | h := hl
  · cases h
    exact lines hp (by decide)
  · cases h
    cases sda <;> cases oe <;> exact lines hp (by decide)

/-- The stop, with the clock low: the data line rises at the fourth line change (R104). -/
theorem stop (hp : p.layoutWf) (hl : l.scl = false) :
    WireSegment p l (lineEvents p (stopLevels l.scl l.oe)) .idle 4 [(4, ⟨true, true, true⟩)] := by
  obtain ⟨scl, sda, oe⟩ := l
  cases hl
  cases sda <;> cases oe <;> exact lines hp (by decide)

/-- One data bit of a written byte (R105). -/
theorem sentBit (hp : p.layoutWf) (sda b : Bool) :
    WireSegment p ⟨false, sda, true⟩ (lineEvents p (sentBitLevels b)) ⟨false, b, true⟩ 3 [] := by
  cases sda <;> cases b <;> exact lines hp (by decide)

/-- The data bits of a written byte, in any order. -/
theorem sentBits (hp : p.layoutWf) (value : Byte) (is : List Nat) (sda : Bool) :
    WireSegment p ⟨false, sda, true⟩ (lineEvents p (is.flatMap fun i => sentBitLevels (value.getLsbD i)))
      ⟨false, (is.map value.getLsbD).getLastD sda, true⟩ (3 * is.length) [] := by
  induction is generalizing sda with
  | nil => exact .nil p _
  | cons i is ih =>
    rw [List.flatMap_cons, lineEvents_append, List.map_cons, List.getLastD_cons, List.length_cons, Nat.mul_succ,
      Nat.add_comm]
    exact (sentBit hp sda _).append_quiet (ih _)

/-- One data bit of a read byte: the sample lies in its clock pulse (R106). -/
theorem readBit (hp : p.layoutWf) (sda : Bool) (a : ResponderAnswer) :
    WireSegment p ⟨false, sda, false⟩ (readBitEvents p sda a) ⟨false, sda, false⟩ 2 [] := by
  have hhigh : WireSegment p ⟨false, sda, false⟩ (lineEvents p [⟨true, sda, false⟩]) ⟨true, sda, false⟩ 1 [] := by
    cases sda <;> exact lines hp (by decide)
  have hlow : WireSegment p ⟨true, sda, false⟩ (lineEvents p [⟨false, sda, false⟩]) ⟨false, sda, false⟩ 1 [] := by
    cases sda <;> exact lines hp (by decide)
  exact (hhigh.append_quiet (sample hp _ _)).append_quiet hlow

/-- A written byte: the data line moves only while the clock is low; its sample is taken as a read bit's is
(R105). -/
theorem write (hp : p.layoutWf) (hl : l.scl = false) (value : Byte) (a : ResponderAnswer) :
    WireSegment p l (writeEvents p l.sda value a) ⟨false, value.getLsbD 0, false⟩ 28 [] := by
  obtain ⟨scl, sda, oe⟩ := l
  cases hl
  have hdrive : WireSegment p ⟨false, sda, oe⟩ (lineEvents p [⟨false, sda, true⟩]) ⟨false, sda, true⟩ 1 [] := by
    cases sda <;> cases oe <;> exact lines hp (by decide)
  have hrelease : ∀ b : Bool, WireSegment p ⟨false, b, true⟩ (lineEvents p [⟨false, b, false⟩])
      ⟨false, b, false⟩ 1 [] := by
    intro b
    cases b <;> exact lines hp (by decide)
  have hsplit : writeEvents p sda value a =
      lineEvents p [⟨false, sda, true⟩] ++ lineEvents p (bitOrder.flatMap fun i => sentBitLevels (value.getLsbD i)) ++
        lineEvents p [⟨false, value.getLsbD 0, false⟩] ++ readBitEvents p (value.getLsbD 0) a := by
    simp [writeEvents, writeLevels, readBitEvents, bitOrder]
  rw [hsplit]
  exact ((hdrive.append_quiet (sentBits hp value bitOrder sda)).append_quiet (hrelease _)).append_quiet
    (readBit hp _ a)

/-- The acknowledge period of a read byte (R106). -/
theorem ack (hp : p.layoutWf) (sda sendAck : Bool) :
    WireSegment p ⟨false, sda, false⟩ (lineEvents p (ackLevels sendAck)) (readPost sendAck)
      (ackLevels sendAck).length [] := by
  cases sda <;> cases sendAck <;> exact lines hp (by decide)

/-- A read byte: the data line moves only while the clock is low (R106). -/
theorem read (hp : p.layoutWf) (hl : l.scl = false) (sendAck : Bool) (as : List ResponderAnswer) :
    WireSegment p l (readEvents p l.sda sendAck as) (readPost sendAck)
      (1 + 2 * as.length + (ackLevels sendAck).length) [] := by
  obtain ⟨scl, sda, oe⟩ := l
  cases hl
  have hrelease : WireSegment p ⟨false, sda, oe⟩ (lineEvents p [⟨false, sda, false⟩]) ⟨false, sda, false⟩ 1 [] := by
    cases sda <;> cases oe <;> exact lines hp (by decide)
  exact (hrelease.append_quiet (loop_quiet as fun a _ => readBit hp sda a)).append_quiet (ack hp sda sendAck)

/-- A probe of the scan: the start's change and the stop's (R85). -/
theorem probe (hp : p.layoutWf) (w : Byte × ResponderAnswer) :
    WireSegment p .idle (transactionEvents p [w]) .idle 37 [(4, ⟨true, false, true⟩), (37, ⟨true, true, true⟩)] := by
  have hstart := start (l := .idle) hp (.inl rfl)
  have hwrite := write (l := ⟨false, false, true⟩) hp rfl w.1 w.2
  have hstop := stop (l := ⟨false, w.1.getLsbD 0, false⟩) hp rfl
  rw [transactionEvents_single]
  exact (hstart.append hwrite).append hstop

end WireSegment

/-- On the idle bus I2C_W holds the idle word (R102, R21). -/
theorem LineInv.idle_word {s : State} (hI : LineInv s) (hq : s.i2c.phase = .idle) :
    s.i2c.i2cW = Levels.idle.word s.params := by
  have hready : s.i2c.ready = true := hI.readyIff.2 (by rw [hq]; nofun)
  have hline := hI.line
  rw [hq] at hline
  exact (hI.flushed hready).trans hline

/-- I2C_INIT on the idle bus writes the word that is there (R102). -/
theorem rewriteIdle_rules (p : Params) :
    changesWhileHigh p 0 (Levels.idle.word p) [.memWrite .i2cW (Levels.idle.word p), .delay .init] = [] ∧
      samplesReleasedHigh p (Levels.idle.word p) [.memWrite .i2cW (Levels.idle.word p), .delay .init] = true := by
  simp [changesWhileHigh, samplesReleasedHigh]

/-- The master pulls the data line low only by driving it (R23, R112). -/
theorem oe_of_sdaLine_low {u : State} (h : sdaLine u false = false) : lineField u.params .oe u.i2c.i2cW = true := by
  cases hoe : lineField u.params .oe u.i2c.i2cW with
  | true => rfl
  | false =>
    rw [sdaLine, hoe, sdaLevel_released] at h
    exact absurd h nofun

/-- With a line word of low clock in I2C_W the clock wire is low (R23). -/
theorem sclLine_low {p : Params} {t : State} {l : Levels} (hp : p.layoutWf) (ht : t.params = p)
    (hword : t.i2c.i2cW = l.word p) (hl : l.scl = false) : sclLine t = false := by
  rw [sclLine, hword, ht, lineField_word hp]
  exact hl

/-- Settles O27: each operation's events are a wire segment from the levels of the line invariant. -/
theorem wireRules : Obligations.WireRules := by
  refine ⟨fun u => oe_of_sdaLine_low, ?_⟩
  intro i s t hp hI h hi
  obtain ⟨rfl, hq⟩ | hi := hi
  · obtain ⟨-, rfl⟩ := execI2cInit_next h
    obtain ⟨hc, hs⟩ := rewriteIdle_rules s.params
    rw [hI.idle_word hq]
    exact ⟨_, initLines_trace _, hc, hs, nofun, nofun⟩
  have hside : onSpiSide i = false ∧ i ≠ .i2cInit := by
    obtain rfl | rfl | ⟨v, rfl⟩ | ⟨k, rfl⟩ | rfl := hi <;> exact ⟨rfl, nofun⟩
  obtain ⟨l, -, hword, hcase⟩ := exec_i2c_cases hp hI h hside.1 hside.2
  rw [hword]
  obtain rfl | rfl | ⟨v, rfl⟩ | ⟨k, rfl⟩ | rfl := hi
  · obtain ⟨hl, rfl⟩ := hcase
    obtain ⟨hc, hs, ho⟩ := (WireSegment.start hp (hl.imp And.right id)).rules
    exact ⟨_, rfl, hc, hs, fun _ => ho, fun _ _ _ => sclLine_low hp rfl rfl rfl⟩
  · obtain ⟨hl, rfl⟩ := hcase
    obtain ⟨hc, hs, ho⟩ := (WireSegment.stop hp hl).rules
    exact ⟨_, rfl, hc, hs, fun _ => ho, fun _ hn => absurd rfl hn⟩
  · obtain ⟨hl, a, rfl⟩ := hcase
    obtain ⟨hc, hs, ho⟩ := (WireSegment.write hp hl v a).rules
    exact ⟨_, rfl, hc, hs, fun _ => ho, fun _ _ _ => sclLine_low hp rfl rfl rfl⟩
  · obtain ⟨hl, as, -, rfl⟩ := hcase
    obtain ⟨hc, hs, ho⟩ := (WireSegment.read hp hl k as).rules
    exact ⟨_, rfl, hc, hs, fun _ => ho, fun _ _ _ => sclLine_low hp rfl rfl (by cases k <;> rfl)⟩
  · obtain ⟨-, rfl, as, r, hlen, rfl⟩ := hcase
    have hprobes : (scanAddresses.zip as).length = 127 := by simp [scanAddresses_eq, hlen]
    obtain ⟨hc, hs, ho⟩ := (WireSegment.loop (scanAddresses.zip as) fun x _ =>
      WireSegment.probe hp (addrb x.1 s.params.scanDir, x.2)).rules
    refine ⟨_, rfl, ?_, hs, fun _ => ho, fun _ _ hn => absurd rfl hn⟩
    rw [hc, hprobes]
    rfl

/-! ### A line change (spec/40_i2c_master.md R100, R108) -/

/-- In a well-formed layout the three fields have their own positions. -/
theorem linePos_injective {p : Params} (hp : p.layoutWf) {f g : LineField} (h : linePos p f = linePos p g) :
    f = g := by
  obtain ⟨-, -, -, -, hab, hac, hbc⟩ := (Params_layoutWf_iff p).1 hp
  cases f <;> cases g
  case scl.scl | sda.sda | oe.oe => rfl
  all_goals
    simp only [linePos] at h
    omega

/-- A line change: two events, and the word in LW and in I2C_W (R100). -/
theorem setLine_effect (f : LineField) (b : Bool) (s : State) :
    setLine f b s =
      { s with
        i2c := { s.i2c with
          lw := setBit s.i2c.lw (linePos s.params f) b
          i2cW := setBit s.i2c.lw (linePos s.params f) b }
        trace := s.trace ++ [.memWrite .i2cW (setBit s.i2c.lw (linePos s.params f) b), .delay .settle]
        ustep := s.ustep + 2 } := by
  apply State.ext <;> simp

/-- Settles O14: the word written is the line word with the field's own bit set. -/
theorem lineChange : Obligations.LineChange := by
  intro s f b hp
  refine ⟨setBit s.i2c.lw (linePos s.params f) b, setLine_effect f b s, testBit_setBit_self _ _ _, ?_, ?_⟩
  · intro g hg
    exact (testBit_setBit _ _ _ _).trans (if_neg fun h => hg (linePos_injective hp h))
  · intro i hi
    exact (testBit_setBit _ _ _ _).trans (if_neg hi)

/-! ### The operations that run (spec/40_i2c_master.md R103 to R107) -/

theorem startAllowed_iff (ph : I2cPhase) :
    startAllowed ph = true ↔ ph ≠ .powerOn ∧ ph ≠ .started ∧ ph ≠ .readAcked := by
  cases ph <;> simp [startAllowed]

theorem stopAllowed_iff (ph : I2cPhase) :
    stopAllowed ph = true ↔ ph ≠ .powerOn ∧ ph ≠ .idle ∧ ph ≠ .started := by
  cases ph <;> simp [stopAllowed]

theorem writeAllowed_iff (ph : I2cPhase) :
    writeAllowed ph = true ↔ ph = .started ∨ (∃ r, ph = .addressed r) ∨ ph = .written := by
  cases ph <;> simp [writeAllowed]

theorem readAllowed_iff (ph : I2cPhase) :
    readAllowed ph = true ↔ ph = .addressed true ∨ ph = .readAcked := by
  cases ph <;> simp [readAllowed]

theorem idleOnly_iff (ph : I2cPhase) : idleOnly ph = true ↔ ph = .idle := by
  cases ph <;> simp [idleOnly]

theorem phaseAfterWrite_eq (before : I2cPhase) (value : Byte) :
    phaseAfterWrite before value = if before = .started then .addressed (value.getLsbD 0) else .written := by
  cases before <;> rfl

section
variable {s : State}

theorem exec_i2cStart_of (hr : s.i2c.ready = true) (ha : startAllowed s.i2c.phase = true) :
    exec .i2cStart s = .next (setPhase .started (startCondition (startOp s))) := by
  rw [exec, execI2cStart, issueI2c_of hr ha]

theorem exec_i2cStop_of (hr : s.i2c.ready = true) (ha : stopAllowed s.i2c.phase = true) :
    exec .i2cStop s = .next (setPhase .idle (stopCondition (startOp s))) := by
  rw [exec, execI2cStop, issueI2c_of hr ha]

theorem exec_i2cWriteByte_of (hr : s.i2c.ready = true) (ha : writeAllowed s.i2c.phase = true) (value : Byte) :
    exec (.i2cWriteByte value) s =
      .next (returnOp (.acknowledged (writeByte value (startOp s)).1)
        (setPhase (phaseAfterWrite s.i2c.phase value) (writeByte value (startOp s)).2)) := by
  rw [exec, execI2cWriteByte, issueI2c_of hr ha, startOp_i2c]

theorem exec_i2cReadByte_of (hr : s.i2c.ready = true) (ha : readAllowed s.i2c.phase = true) (sendAck : Bool) :
    exec (.i2cReadByte sendAck) s =
      .next (returnOp (.byte (readByte sendAck (startOp s)).1)
        (setPhase (phaseAfterRead sendAck) (readByte sendAck (startOp s)).2)) := by
  rw [exec, execI2cReadByte, issueI2c_of hr ha]

theorem exec_i2cScan_of (hr : s.i2c.ready = true) (ha : idleOnly s.i2c.phase = true) :
    exec .i2cScan s =
      .next (returnOp (.found (scanFrom scanAddresses (startOp s)).1) (scanFrom scanAddresses (startOp s)).2) := by
  rw [exec, execI2cScan, issueI2c_of hr ha]

end

/-- Settles O17, by the start's micro-sequence from known levels. -/
theorem i2cStartWords : Obligations.I2cStartWords := by
  intro s l hp hready hpower hstarted hacked hlw
  rw [exec_i2cStart_of hready ((startAllowed_iff _).2 ⟨hpower, hstarted, hacked⟩),
    startCondition_reached (s := startOp s) hp hlw]
  rfl

/-- The stop's micro-sequence, field by field (R104). -/
theorem stopCondition_words {s : State} {l : Levels} (hp : s.params.layoutWf) (h : s.i2c.lw = l.word s.params) :
    stopCondition s = { s with
      i2c := { s.i2c with lw := Levels.idle.word s.params, i2cW := Levels.idle.word s.params }
      ustep := s.ustep + 8
      trace := s.trace ++ lineEvents s.params (stopLevels l.scl l.oe) } := by
  rw [stopCondition_reached hp h]
  apply State.ext <;> simp [reached, stopLevels]

/-- Settles O18, by the stop's micro-sequence from known levels. -/
theorem i2cStopWords : Obligations.I2cStopWords := by
  refine ⟨fun s l hp hlw => stopCondition_words hp hlw, ?_⟩
  intro s l hp hready hpower hidle hstarted hlw
  rw [exec_i2cStop_of hready ((stopAllowed_iff _).2 ⟨hpower, hidle, hstarted⟩),
    stopCondition_words (s := startOp s) hp hlw]
  rfl

/-- Settles O19, by the micro-sequence of a written byte from a low clock. -/
theorem i2cWriteByteWordsAndAcknowledge : Obligations.I2cWriteByteWordsAndAcknowledge := by
  intro s value sda oe hp hready hphase hlw
  refine ⟨writeAnswer sda value s, rfl, ?_⟩
  rw [← phaseAfterWrite_eq, exec_i2cWriteByte_of hready ((writeAllowed_iff _).2 hphase),
    writeByte_eq (s := startOp s) hp hlw rfl value, afterWrite_eq, writeEvents, ← List.append_assoc,
    ← List.append_assoc]
  rfl

/-- Settles O20, by the micro-sequence of a read byte from a low clock. -/
theorem i2cReadByteValueAndAcknowledge : Obligations.I2cReadByteValueAndAcknowledge := by
  intro s sendAck sda oe hp hready hphase hlw
  obtain ⟨as, hlen, hlisted, hbyte⟩ := readByte_eq (s := startOp s) hp hlw rfl sendAck
  refine ⟨as, sampledByte as, hlen, hlisted, ?_, ?_⟩
  · intro i hi
    rw [sampledByte_bit hlen i hi, List.getElem?_eq_getElem (by omega)]
    rfl
  · rw [exec_i2cReadByte_of hready ((readAllowed_iff _).2 hphase), hbyte, readEvents, ← List.append_assoc,
      ← List.append_assoc]
    cases sendAck <;> rfl

/-- The events of the scan's probes (R107). -/
theorem probeEvents_eq (p : Params) (xs : List (Addr7 × ResponderAnswer)) :
    xs.flatMap (fun x => transactionEvents p [(addrb x.1 p.scanDir, x.2)]) =
      xs.flatMap fun x => lineEvents p (startLevels true true) ++ writeEvents p false (addrb x.1 p.scanDir) x.2 ++
        lineEvents p (stopLevels false false) := by
  simp only [transactionEvents_single]

theorem probeEvents_length (p : Params) (xs : List (Addr7 × ResponderAnswer)) :
    (xs.flatMap fun x => transactionEvents p [(addrb x.1 p.scanDir, x.2)]).length = 75 * xs.length := by
  simp [List.length_flatMap, transactionEvents_length, Nat.mul_comm]

/-- Settles O21, by the scan over its 127 addresses from the idle bus. -/
theorem i2cScanFindsTheAcknowledging : Obligations.I2cScanFindsTheAcknowledging := by
  intro s hp hready hphase hlw
  obtain ⟨as, hlen, hlisted, hscan⟩ :=
    scanFrom_reached scanAddresses (s := startOp s) (es₀ := []) hp (usesListed_nil _)
  rw [← scan_start (s := startOp s) hp hlw] at hscan
  have haddresses : scanAddresses.length = 127 := by simp [scanAddresses_eq]
  have hanswers : as.length = 127 := hlen.trans haddresses
  have hevents := probeEvents_length s.params (scanAddresses.zip as)
  rw [List.length_zip, haddresses, hanswers] at hevents
  refine ⟨as, hanswers, by simpa [usesListed, hanswers] using hlisted, ?_⟩
  rw [exec_i2cScan_of hready ((idleOnly_iff _).2 hphase), hscan, ← probeEvents_eq, ← scanAddresses_eq]
  congr 1
  apply State.ext <;> simp [returnOp, reached, startOp, hanswers, hevents, hlw]

/-! ### The operations that are refused (spec/40_i2c_master.md R111) -/

/-- The phases in which the succession table lets an operation run; those of the SPI side are not in it. -/
def successionAllowed : Instr → I2cPhase → Bool
  | .i2cInit => initAllowed
  | .i2cStart => startAllowed
  | .i2cStop => stopAllowed
  | .i2cWriteByte _ => writeAllowed
  | .i2cReadByte _ => readAllowed
  | .i2cScan | .sensorInit | .sensorMeasure => idleOnly
  | _ => fun _ => true

theorem initAllowed_iff (ph : I2cPhase) : initAllowed ph = true ↔ ph = .powerOn ∨ ph = .idle := by
  cases ph <;> simp [initAllowed]

theorem issueI2c_refused {allowed : I2cPhase → Bool} {run : State → State} {s : State} (hr : s.i2c.ready = true)
    (ha : allowed s.i2c.phase = false) : issueI2c allowed run s = .refused .i2cSuccession := by
  simp [issueI2c, hr, ha]

/-- After I2C_INIT an operation outside the succession table is refused by name. -/
theorem exec_refused_of_succession {i : Instr} {s : State} (hr : s.i2c.ready = true)
    (ha : successionAllowed i s.i2c.phase = false) : exec i s = .refused .i2cSuccession := by
  cases i <;> simp only [successionAllowed, Bool.true_eq_false] at ha
  case i2cInit => simp [exec, execI2cInit, hr, ha]
  all_goals
    simp only [exec, execI2cStart, execI2cStop, execI2cWriteByte, execI2cReadByte, execI2cScan, execSensorInit,
      execSensorMeasure, issueI2c_refused hr ha]

/-- Settles O23: each clause names operations and a phase in which the table does not allow them. -/
theorem illFormedSuccessionsAreRefused : Obligations.IllFormedSuccessionsAreRefused := by
  intro s hready
  have refused : ∀ {ph : I2cPhase} (i : Instr), s.i2c.phase = ph → successionAllowed i ph = false →
      exec i s = .refused .i2cSuccession := by
    rintro ph i rfl ha
    exact exec_refused_of_succession hready ha
  refine ⟨?_, ?_, ?_, ?_, ?_, ?_, ?_⟩
  · intro hph v k
    exact ⟨refused _ hph rfl, refused _ hph rfl, refused _ hph rfl⟩
  · intro hpower hidle
    exact refused _ rfl (Bool.eq_false_iff.2 fun ha => ((initAllowed_iff _).1 ha).elim hpower hidle)
  · intro hph k
    exact ⟨refused _ hph rfl, refused _ hph rfl, refused _ hph rfl⟩
  · rintro (hph | hph) k <;> exact refused _ hph rfl
  · intro hph v
    exact ⟨refused _ hph rfl, refused _ hph rfl⟩
  · intro hph v k
    exact ⟨refused _ hph rfl, refused _ hph rfl⟩
  · intro hidle
    have hbusy : idleOnly s.i2c.phase = false := Bool.eq_false_iff.2 fun ha => hidle ((idleOnly_iff _).1 ha)
    exact ⟨refused .i2cScan rfl hbusy, refused .sensorInit rfl hbusy, refused .sensorMeasure rfl hbusy⟩

end Sys2Proof.Machine

/-! PROOF. The family of spec/41_spi_register_access.md: select, deselect and transfer (R140 to R142), the register
accesses and the poll (R143 to R146), and the frame discipline they keep (R147). -/

namespace Sys2Proof.Machine

/-! ### Refused uses (R147) -/

theorem issueOutsideFrame_refused {run : State → State} {s : State} (hopen : s.spi.inFrame = true) :
    issueOutsideFrame run s = .refused .frameOpen := if_pos hopen

theorem issueInsideFrame_refused {run : State → State} {s : State} (hclosed : s.spi.inFrame = false) :
    issueInsideFrame run s = .refused .frameClosed := if_pos hclosed

/-! ### Select, deselect, transfer (R140 to R142) -/

/-- Settles O29: SPI_SELECT is issued outside a frame only, and is there the micro-sequence of a select. -/
theorem spiSelectOpensTheFrame : Obligations.SpiSelectOpensTheFrame := by
  refine ⟨decodeOfEncodeIsIdentity .spiSelect rfl, fun s => ⟨fun hclosed => ?_, issueOutsideFrame_refused⟩⟩
  rw [exec, execSpiSelect, issueOutsideFrame_of hclosed]
  congr 1
  apply State.ext <;> simp

/-- Settles O30: SPI_DESELECT is issued inside a frame only, and is there the micro-sequence of a deselect. -/
theorem spiDeselectClosesTheFrame : Obligations.SpiDeselectClosesTheFrame := by
  refine ⟨decodeOfEncodeIsIdentity .spiDeselect rfl, fun s => ⟨fun hopen => ?_, issueInsideFrame_refused⟩⟩
  rw [exec, execSpiDeselect, issueInsideFrame_of hopen]
  congr 1
  apply State.ext <;> simp

/-- The done-poll reads the busy words and the first with the done bit, and none of those after it. -/
theorem polledWords_done {p : Params} {busy : List HostWord} {last : HostWord} (more : List HostWord)
    (hbusy : ∀ w ∈ busy, doneOf p w = false) (hlast : doneOf p last = true) :
    polledWords p (busy ++ last :: more) = busy ++ [last] := by
  induction busy with
  | nil => simp [polledWords, hlast]
  | cons w ws ih =>
    obtain ⟨hw, hws⟩ := List.forall_mem_cons.1 hbusy
    simp [polledWords, hw, ih hws]

/-- Settles O31: the answer completes, and its done-poll ends at the first word with the done bit. -/
theorem spiXferExchangesOneByte : Obligations.SpiXferExchangesOneByte := by
  intro s out busy last more miso rest hopen hengine hbusy hlast
  have hwords : polledWords s.params (busy ++ last :: more) = busy ++ [last] := polledWords_done more hbusy hlast
  have hdone : completes s.params ⟨busy ++ last :: more, miso⟩ = true :=
    List.any_eq_true.2 ⟨last, by simp, hlast⟩
  rw [exec, execSpiXfer, issueInsideFrame_of hopen, transferByte_listed (s := startOp s) out hengine hdone]
  congr 1
  apply State.ext <;>
    simp [returnOp, afterExchange, SpiLayer.exchanged, exchangeEvents, startedEvents, hwords, hengine, wordToByte]

/-! ### Register accesses: one frame (R143 to R145) -/

theorem exec_regRead_of {s : State} (hclosed : s.spi.inFrame = false) (address : Byte) :
    exec (.regRead address) s =
      .next ((regRead (radioAddress address) (startOp s)).bind fun v s => .returned (.byte v) s).settle := by
  rw [exec, execRegRead, issueOutsideFrame_of hclosed]

theorem exec_regWrite_of {s : State} (hclosed : s.spi.inFrame = false) (address value : Byte) :
    exec (.regWrite address value) s =
      .next ((regWrite (radioAddress address) value (startOp s)).bind fun _ s => .returned .none s).settle := by
  rw [exec, execRegWrite, issueOutsideFrame_of hclosed]

theorem exec_regBurstWrite_of {s : State} (hclosed : s.spi.inFrame = false) (startAddress : Byte)
    (bytes : List Byte) :
    exec (.regBurstWrite startAddress bytes) s =
      .next ((burstWrite (radioAddress startAddress) bytes (startOp s)).bind fun _ s => .returned .none s).settle := by
  rw [exec, execRegBurstWrite, issueOutsideFrame_of hclosed]

theorem exec_regPoll_of {s : State} (hclosed : s.spi.inFrame = false) (address mask : Byte) (budget : Nat) :
    exec (.regPoll address mask budget) s =
      .next ((regPoll (radioAddress address) mask budget (startOp s)).bind fun r s =>
        .returned (.polled r.1 r.2) s).settle := by
  rw [exec, execRegPoll, issueOutsideFrame_of hclosed]

/-- The state an operation of one completed frame leaves, field by field. -/
theorem returnOp_afterFrame (r : Result) (sent : List (Byte × EngineAnswer)) (s : State) :
    returnOp r (afterFrame sent (startOp s)) =
      { s with
        spi := s.spi.framed s.params sent
        ustep := (frameEvents s.params sent).length
        result := r
        engine := s.engine.drop sent.length
        trace := s.trace ++ frameEvents s.params sent } := by
  apply State.ext <;> simp [returnOp, afterFrame, frameEvents_length]

/-- The bytes of FRAME-R for an operand of eight bits, each with its answer (R77, R86). -/
theorem readFrame_zip (address : Byte) (a b : EngineAnswer) :
    (readFrame (radioAddress address)).zip [a, b] = [(address &&& 0x7F#8, a), (0x00#8, b)] := by
  rw [readFrame, cmdb_false_radioAddress]; rfl

theorem writeFrame_zip (address value : Byte) (a b : EngineAnswer) :
    (writeFrame (radioAddress address) value).zip [a, b] = [(address ||| 0x80#8, a), (value, b)] := by
  rw [writeFrame, cmdb_true_radioAddress]; rfl

/-- Settles O33: both answers complete, so REG_READ is one frame. -/
theorem regReadFrame : Obligations.RegReadFrame := by
  intro s address a b rest hclosed hengine ha hb
  rw [exec_regRead_of hclosed, regRead_listed (s := startOp s) _ hengine ha hb, Ran.bind_returned,
    Ran.settle_returned, returnOp_afterFrame, readFrame_zip, hengine]
  rfl

/-- Settles O34: both answers complete, so REG_WRITE is one frame. -/
theorem regWriteFrame : Obligations.RegWriteFrame := by
  intro s address value a b rest hclosed hengine ha hb
  rw [exec_regWrite_of hclosed, regWrite_listed (s := startOp s) _ _ hengine ha hb, Ran.bind_returned,
    Ran.settle_returned, returnOp_afterFrame, writeFrame_zip, hengine]
  rfl

/-- Settles O35: the header's answer and as many as there are bytes complete, so REG_BURST_WRITE is one frame. -/
theorem regBurstWriteFrame : Obligations.RegBurstWriteFrame := by
  intro s startAddress bytes as rest hclosed hengine hlength hcomplete
  obtain ⟨a, as, rfl⟩ := List.exists_cons_of_length_pos (l := as) (by omega)
  have hbytes : as.length = bytes.length := by simpa [Nat.add_comm 1] using hlength
  rw [exec_regBurstWrite_of hclosed, burstWrite_listed (s := startOp s) _ _ hengine hbytes hcomplete,
    Ran.bind_returned, Ran.settle_returned, returnOp_afterFrame, cmdb_true_radioAddress, hengine]
  simp [hbytes]

/-! ### Polls (R146) -/

/-- An operation starts where its answers are listed, with no event of its own. -/
theorem startOp_eq_advanced {s : State} {answers : List EngineAnswer} (hengine : s.engine = answers) :
    startOp s = advanced s.spi [] answers (startOp s) := by
  subst hengine
  exact (advanced_self (startOp s)).symm

/-- The state an operation of a sequence of frames leaves when no poll runs any more, field by field. -/
theorem returnOp_advanced (r : Result) (l : SpiLayer) (es : List Event) (rest : List EngineAnswer) (s : State) :
    returnOp r (advanced l es rest { startOp s with remaining := none }) =
      { s with
        spi := l
        ustep := es.length
        remaining := none
        result := r
        engine := rest
        trace := s.trace ++ es } := by
  apply State.ext <;> simp [returnOp, advanced]

/-- Settles O36: the polls before the hit miss within the budget, so the loop comes to the hit and ends there. -/
theorem regPollFinds : Obligations.RegPollFinds := by
  intro s address mask budget missed hit rest hclosed hengine hlt hcomplete hmissed hhit
  rw [exec_regPoll_of hclosed, startOp_eq_advanced hengine,
    regPoll_finds (s := startOp s) _ _ hlt hcomplete hmissed hhit, Ran.bind_returned, Ran.settle_returned,
    returnOp_advanced, List.nil_append, List.append_assoc]
  rfl

/-- Settles O37: every poll of the budget misses, so the loop runs out of it. -/
theorem regPollTimesOut : Obligations.RegPollTimesOut := by
  intro s address mask polls rest hclosed hengine hpolls
  rw [exec_regPoll_of hclosed, startOp_eq_advanced hengine,
    regPoll_times_out (s := startOp s) _ _ (fun a ha => (hpolls a ha).1) (fun a ha => (hpolls a ha).2),
    Ran.bind_returned, Ran.settle_returned, returnOp_advanced, List.nil_append]
  rfl

/-! ### Frame discipline, whatever the engine answers (R147) -/

/-- An operation that opens its own frame and leaves no poll unfinished was issued outside a frame, and its sequence
returned. -/
theorem issueOutsideFrame_returned {α : Type} {run : State → Ran α} (f : α → Result) {s t : State}
    (hhung : t.hung = false)
    (h : issueOutsideFrame (fun s => ((run s).bind fun a s => .returned (f a) s).settle) s = .next t) :
    s.spi.inFrame = false ∧ ∃ a u, run (startOp s) = .returned a u ∧ t = returnOp (f a) u := by
  obtain ⟨hclosed, rfl⟩ := issueOutsideFrame_next h
  refine ⟨hclosed, ?_⟩
  cases hrun : run (startOp s) with
  | returned a u => exact ⟨a, u, rfl, rfl⟩
  | hung u => simp [hrun] at hhung

/-- REG_POLL that returned is its loop that returned, the counter no longer live (R33). -/
theorem regPoll_returned {addr : Addr7} {mask : Byte} {budget : Nat} {s t : State} {r : Bool × Byte}
    (h : regPoll addr mask budget s = .returned r t) :
    ∃ u, pollLoop addr mask budget 0x00#8 { s with remaining := some budget } = .returned r u ∧
      t = { u with remaining := none } := by
  rw [regPoll] at h
  cases hloop : pollLoop addr mask budget 0x00#8 { s with remaining := some budget } with
  | returned r' u =>
    rw [hloop] at h
    cases h
    exact ⟨u, rfl, rfl⟩
  | hung u => rw [hloop] at h; cases h

/-- Completed frames leave no frame open, a sequence of none where none was open. -/
theorem framedAll_inFrame {p : Params} (fs : List (List (Byte × EngineAnswer))) {l : SpiLayer}
    (hclosed : l.inFrame = false) : (l.framedAll p fs).inFrame = false := by
  induction fs generalizing l with
  | nil => exact hclosed
  | cons f fs ih => exact ih (l := l.framed p f) rfl

/-- Settles O38: an access that returned was issued outside a frame, and it did what its sequence does when it
returns. -/
theorem frameDiscipline : Obligations.FrameDiscipline := by
  intro s
  refine ⟨fun t _ hhung => ⟨fun address h => ?_, fun address value h => ?_, fun address bytes h => ?_,
    fun address mask budget h => ?_⟩, ?_, ?_⟩
  · obtain ⟨-, v, u, hrun, rfl⟩ := issueOutsideFrame_returned (run := regRead (radioAddress address)) .byte hhung h
    obtain ⟨a, b, hlisted, ha, hb, rfl, rfl⟩ := regRead_returned hrun
    refine ⟨rfl, a, b, hlisted, ha, hb, ?_⟩
    rw [returnOp_afterFrame, readFrame_zip]
    rfl
  · obtain ⟨-, _, u, hrun, rfl⟩ :=
      issueOutsideFrame_returned (run := regWrite (radioAddress address) value) (fun _ => .none) hhung h
    obtain ⟨a, b, hlisted, ha, hb, rfl⟩ := regWrite_returned hrun
    refine ⟨rfl, a, b, hlisted, ha, hb, ?_⟩
    rw [returnOp_afterFrame, writeFrame_zip]
    rfl
  · obtain ⟨-, _, u, hrun, rfl⟩ :=
      issueOutsideFrame_returned (run := burstWrite (radioAddress address) bytes) (fun _ => .none) hhung h
    obtain ⟨as, hlength, hlisted, hcomplete, rfl⟩ := burstWrite_returned hrun
    refine ⟨rfl, as, hlength, hlisted, hcomplete, ?_⟩
    rw [returnOp_afterFrame, cmdb_true_radioAddress]
    simp [hlength, Nat.add_comm 1]
  · obtain ⟨hclosed, r, u, hrun, rfl⟩ :=
      issueOutsideFrame_returned (run := regPoll (radioAddress address) mask budget) (fun r => .polled r.1 r.2) hhung h
    obtain ⟨v, hloop, rfl⟩ := regPoll_returned hrun
    obtain ⟨missed, hit, left, hmissed, hhit, hnone, hlisted, rfl, rfl⟩ := pollLoop_returned _ mask budget hloop
    refine ⟨framedAll_inFrame _ hclosed, missed, hit, hmissed, hhit, hnone, hlisted, ?_⟩
    rw [List.append_assoc]
    exact returnOp_advanced _ _ _ _ s
  · rintro hopen i (rfl | ⟨_, rfl⟩ | ⟨_, _, rfl⟩ | ⟨_, _, rfl⟩ | ⟨_, _, _, rfl⟩) <;>
      simp only [exec, execSpiSelect, execRegRead, execRegWrite, execRegBurstWrite, execRegPoll,
        issueOutsideFrame_refused hopen]
  · rintro hclosed i (rfl | ⟨_, rfl⟩) <;>
      simp only [exec, execSpiDeselect, execSpiXfer, issueInsideFrame_refused hclosed]

end Sys2Proof.Machine

/-! PROOF. The family of spec/42_client_sequences.md: the frequency value (R180), the sensor's conversion and sequences
(R172 to R174), the radio operations' domain and their sequences of frames (R177 to R183). -/

namespace Sys2Proof.Machine

/-! ### The frequency value (R180) -/

theorem frf_eq (f : Nat) : frf f = (f * 524288 + 16000000) / 32000000 := rfl

/-- The quotient is never half-way between two integers: twice its numerator has more factors of 2 than its
denominator. -/
theorem frf_no_tie (f n : Nat) : f * 524288 + 16000000 ≠ n * 32000000 := by omega

theorem exec_radioInit_outOfRange (s : State) {f : Nat} (hf : 1023999969 < f) :
    exec (.radioInit f) s = .refused .frequencyOutOfRange := if_pos hf

/-- Settles O9: rounding half up is rounding to nearest, for there is no tie. -/
theorem frequencyValueRoundsToNearest : Obligations.FrequencyValueRoundsToNearest := by
  refine ⟨fun f => ?_, fun s f => exec_radioInit_outOfRange s, by decide, by decide, by decide, by decide⟩
  have hround := frf_eq f
  have htie := frf_no_tie f (frf f)
  refine ⟨hround, ?_, ?_, ?_⟩ <;> omega

/-! ### The sensor's conversion (R174) -/

/-- A value of 16 bits is unchanged by the truncation. -/
theorem toInt_trunc16 {v : Int} (hlow : -32768 ≤ v) (hhigh : v < 32768) : (trunc16 v).toInt = v := by
  rw [trunc16, BitVec.toInt_ofInt, Int.bmod_eq_of_le] <;> norm_num <;> omega

/-- The number of a bit vector above another is the first, shifted up, plus the second. -/
theorem toNat_append_eq_add {n m : Nat} (x : BitVec n) (y : BitVec m) :
    (x ++ y).toNat = x.toNat * 2 ^ m + y.toNat := by
  rw [BitVec.toNat_append, ← Nat.shiftLeft_add_eq_or_of_lt y.isLt, Nat.shiftLeft_eq]

/-- The fields of the humidity: two bytes and the high half of the third (GK5, log 20). -/
theorem toNat_humRaw (b1 b2 b3 : Byte) :
    (humRaw b1 b2 b3).toNat = b1.toNat * 4096 + b2.toNat * 16 + b3.toNat / 16 := by
  have hb3 := b3.isLt
  rw [humRaw, toNat_append_eq_add, toNat_append_byte, BitVec.extractLsb'_toNat, Nat.shiftRight_eq_div_pow]
  omega

/-- The fields of the temperature: the low half of the third byte and two more (GK5, log 20). -/
theorem toNat_tempRaw (b3 b4 b5 : Byte) :
    (tempRaw b3 b4 b5).toNat = b3.toNat % 16 * 65536 + b4.toNat * 256 + b5.toNat := by
  rw [tempRaw, toNat_append_byte, toNat_append_byte, BitVec.extractLsb'_toNat, Nat.shiftRight_zero]
  omega

/-- The humidity of a raw value of 20 bits is a percentage in hundredths. -/
theorem humidityScale_range {raw : Nat} (hraw : raw < 2 ^ 20) :
    0 ≤ humidityScale raw ∧ humidityScale raw ≤ 9999 := by
  rw [humidityScale]; omega

/-- The temperature of a raw value of 20 bits is from -50 to 150 degrees, in hundredths. -/
theorem temperatureScale_range {raw : Nat} (hraw : raw < 2 ^ 20) :
    -5000 ≤ temperatureScale raw ∧ temperatureScale raw ≤ 14999 := by
  rw [temperatureScale]; omega

/-- Settles O12: the scaled values of 20-bit fields lie in the device's range, so within 16 bits. -/
theorem sensorConversion : Obligations.SensorConversion := by
  refine ⟨fun b1 b2 b3 b4 b5 => ?_, rfl, rfl, rfl⟩
  obtain ⟨tlow, thigh⟩ := temperatureScale_range (tempRaw b3 b4 b5).isLt
  obtain ⟨hlow, hhigh⟩ := humidityScale_range (humRaw b1 b2 b3).isLt
  have ht := toInt_trunc16 (v := temperatureScale (tempRaw b3 b4 b5).toNat) (by omega) (by omega)
  have hh := toInt_trunc16 (v := humidityScale (humRaw b1 b2 b3).toNat) (by omega) (by omega)
  refine ⟨_, _, rfl, ?_, ?_, tlow.trans_eq ht.symm, ht.trans_le thigh, hlow.trans_eq hh.symm, hh.trans_le hhigh⟩
  · rw [ht, temperatureScale, toNat_tempRaw]
    rfl
  · rw [hh, humidityScale, toNat_humRaw]
    rfl

/-! ### The sensor's sequences (R172, R173) -/

theorem sensorWriteAddress_eq : sensorWriteAddress = 0x70#8 := rfl

theorem sensorReadAddress_eq : sensorReadAddress = 0x71#8 := rfl

theorem exec_sensorInit_of {s : State} (hr : s.i2c.ready = true) (hph : s.i2c.phase = .idle) :
    exec .sensorInit s = .next (sensorInit (startOp s)) := by
  rw [exec, execSensorInit, issueI2c_of hr ((idleOnly_iff _).2 hph)]

theorem exec_sensorMeasure_of {s : State} (hr : s.i2c.ready = true) (hph : s.i2c.phase = .idle) :
    exec .sensorMeasure s = .next (sensorMeasure (startOp s)) := by
  rw [exec, execSensorMeasure, issueI2c_of hr ((idleOnly_iff _).2 hph)]

/-- The state an operation leaves that started and ended on the idle bus, field by field. -/
theorem returnOp_reached_idle {s : State} (hlw : s.i2c.lw = Levels.idle.word s.params) (r : Result)
    (as : List ResponderAnswer) (es : List Event) :
    returnOp r (reached as es .idle (startOp s)) =
      { s with
        i2c := { s.i2c with
          i2cW := Levels.idle.word s.params
          i2cR := (as.getLast?.map (releasedWord s.params)).getD s.i2c.i2cR }
        ustep := es.length
        result := r
        responder := s.responder.drop as.length
        trace := s.trace ++ es } := by
  apply State.ext <;> simp [reached, hlw]

/-- SENSOR_INIT's sequence from the idle bus (R172). -/
theorem sensorInit_reached {s : State} (hp : s.params.layoutWf) (hlw : s.i2c.lw = Levels.idle.word s.params) :
    ∃ as : List ResponderAnswer, answersUpToNack [0x70#8, 0xE1#8, 0x08#8, 0x00#8] as = true ∧ usesListed as s ∧
      sensorInit s =
        returnOp (if as.all (·.pull) then .success else .failed .ackFail)
          (reached as (transactionEvents s.params ([0x70#8, 0xE1#8, 0x08#8, 0x00#8].zip as) ++
            (if as.all (·.pull) then [.delay .sensorSettle] else [])) .idle s) := by
  obtain ⟨as, hnack, hlisted, hwrite⟩ :=
    writeTransaction_reached (s := s) 0x70#8 Config.sensorInitCommand hp hlw
  refine ⟨as, hnack, hlisted, ?_⟩
  rw [sensorInit, sensorWriteAddress_eq, hwrite]
  cases as.all (·.pull) with
  | true => simp [delay_reached, Config.sensorInitCommand]
  | false => simp [failOp, Config.sensorInitCommand]

/-- Settles O42: the written transaction, then the settle delay if every byte was acknowledged. -/
theorem sensorInitOutcome : Obligations.SensorInitOutcome := by
  intro s hp hready hphase hlw
  obtain ⟨as, hnack, hlisted, hinit⟩ := sensorInit_reached (s := startOp s) hp hlw
  refine ⟨as, _, hnack, hlisted, rfl, ?_⟩
  rw [exec_sensorInit_of hready hphase, hinit, returnOp_reached_idle hlw]
  rfl

/-- The second part of SENSOR_MEASURE, after the conversion: the read address, and the response if the sensor
acknowledges it (R173). -/
def measureRead (s : State) : State :=
  let a := writeByte sensorReadAddress (startCondition s)
  if a.1 then readResponse a.2 else failOp .ackFail (stopCondition a.2)

theorem sensorMeasure_eq (s : State) :
    sensorMeasure s =
      let r := writeTransaction (sensorWriteAddress :: Config.sensorTriggerCommand) s
      if r.1 then measureRead (delay .sensorConv r.2) else failOp .ackFail r.2 := rfl

/-- What the second part of SENSOR_MEASURE can come to: the answers used, the events, the result (R173). -/
inductive MeasureReadOutcome (p : Params) : List ResponderAnswer → List Event → Result → Prop
  /-- The read address is not acknowledged. -/
  | nack (n : ResponderAnswer) (hn : n.pull = false) :
    MeasureReadOutcome p [n] (transactionEvents p [(0x71#8, n)]) (.failed .ackFail)
  /-- The six bytes of the response are read. -/
  | response (k : ResponderAnswer) (c0 c1 c2 c3 c4 c5 : List ResponderAnswer) (hk : k.pull = true)
    (hc : ∀ c ∈ [c0, c1, c2, c3, c4, c5], c.length = 8) :
    MeasureReadOutcome p (k :: (c0 ++ c1 ++ c2 ++ c3 ++ c4 ++ c5))
      (lineEvents p (startLevels true true) ++ writeEvents p false 0x71#8 k ++
        (readEvents p true true c0 ++ readEvents p false true c1 ++ readEvents p false true c2 ++
          readEvents p false true c3 ++ readEvents p false true c4 ++ readEvents p false false c5 ++
          lineEvents p (stopLevels false false)))
      (if busyOf (sampledByte c0) then .failed .sensorBusy
        else convert (sampledByte c1) (sampledByte c2) (sampledByte c3) (sampledByte c4) (sampledByte c5))

/-- The second part of SENSOR_MEASURE, from a state reached on the idle bus. -/
theorem measureRead_reached {s : State} {as : List ResponderAnswer} {es : List Event} (hp : s.params.layoutWf)
    (hu : usesListed as s) :
    ∃ bs fs r, MeasureReadOutcome s.params bs fs r ∧ usesListed (as ++ bs) s ∧
      measureRead (reached as es .idle s) = returnOp r (reached (as ++ bs) (es ++ fs) .idle s) := by
  have hstart : startCondition (reached as es .idle s) =
      reached as (es ++ lineEvents s.params (startLevels true true)) ⟨false, false, true⟩ s := by
    rw [startCondition_reached (by exact hp) (reached_lw _ _ _ _), reached_reached, List.append_nil]
    rfl
  obtain ⟨k, hk, hwrite⟩ := writeByte_reached
    (s := reached as (es ++ lineEvents s.params (startLevels true true)) ⟨false, false, true⟩ s) hp
    (reached_lw _ _ _ _) rfl 0x71#8
  have hlisted : usesListed (as ++ [k]) s := usesListed_append hu rfl hk
  rw [measureRead, hstart, sensorReadAddress_eq, hwrite, reached_reached]
  cases hpull : k.pull with
  | false =>
    refine ⟨_, _, _, .nack k hpull, hlisted, ?_⟩
    dsimp only
    rw [if_neg Bool.false_ne_true, stopCondition_reached (by exact hp) (reached_lw _ _ _ _), reached_reached]
    simp [failOp, transactionEvents, writtenEvents]
  | true =>
    obtain ⟨c0, c1, c2, c3, c4, c5, hc, hread, hresponse⟩ := readResponse_reached
      (es₀ := es ++ lineEvents s.params (startLevels true true) ++ writeEvents s.params false 0x71#8 k) hp hlisted
    refine ⟨_, _, _, .response k c0 c1 c2 c3 c4 c5 hpull hc, by simpa using hread, ?_⟩
    refine hresponse.trans ?_
    simp

/-- SENSOR_MEASURE's sequence from the idle bus: the trigger, and the second part if every byte of it was acknowledged
(R173). -/
theorem sensorMeasure_reached {s : State} (hp : s.params.layoutWf) (hlw : s.i2c.lw = Levels.idle.word s.params) :
    ∃ as : List ResponderAnswer, answersUpToNack [0x70#8, 0xAC#8, 0x33#8, 0x00#8] as = true ∧
      ((as.all (·.pull) = false ∧ usesListed as s ∧
        sensorMeasure s = returnOp (.failed .ackFail)
          (reached as (transactionEvents s.params ([0x70#8, 0xAC#8, 0x33#8, 0x00#8].zip as)) .idle s)) ∨
      (as.all (·.pull) = true ∧ ∃ bs fs r, MeasureReadOutcome s.params bs fs r ∧ usesListed (as ++ bs) s ∧
        sensorMeasure s = returnOp r
          (reached (as ++ bs) (transactionEvents s.params ([0x70#8, 0xAC#8, 0x33#8, 0x00#8].zip as) ++
            [.delay .sensorConv] ++ fs) .idle s))) := by
  obtain ⟨as, hnack, hlisted, hwrite⟩ :=
    writeTransaction_reached (s := s) 0x70#8 Config.sensorTriggerCommand hp hlw
  refine ⟨as, hnack, ?_⟩
  rw [sensorMeasure_eq, sensorWriteAddress_eq, hwrite]
  cases as.all (·.pull) with
  | false => exact .inl ⟨rfl, hlisted, rfl⟩
  | true =>
    obtain ⟨bs, fs, r, hout, hread, hmeasure⟩ := measureRead_reached hp hlisted
    refine .inr ⟨rfl, bs, fs, r, hout, hread, ?_⟩
    rw [← hmeasure, ← delay_reached]
    rfl

/-- Every bit of a byte that was read is the level of its sample. -/
theorem getMsbD_sampledByte {samples : List ResponderAnswer} (hlen : samples.length = 8) (i : Nat) (hi : i < 8) :
    (sampledByte samples).getMsbD i = !((samples[i]?.map (·.pull)).getD true) := by
  rw [sampledByte_bit hlen i hi, List.getElem?_eq_getElem (by omega)]
  rfl

/-- Settles O43: the trigger alone, or with the second part, whose outcomes are the two of its clause. -/
theorem sensorMeasureOutcome : Obligations.SensorMeasureOutcome := by
  intro s hp hready hphase hlw
  obtain ⟨as, hnack, ⟨hall, hlisted, hmeasure⟩ | ⟨hall, bs, fs, r, hout, hlisted, hmeasure⟩⟩ :=
    sensorMeasure_reached (s := startOp s) hp hlw
  · refine ⟨as, [], _, _, hnack, by rwa [List.append_nil], fun _ => ⟨rfl, rfl, rfl⟩, fun h => ?_, ?_⟩
    · rw [hall] at h
      cases h
    · rw [exec_sensorMeasure_of hready hphase, hmeasure, returnOp_reached_idle hlw, List.append_nil]
      rfl
  · refine ⟨as, bs, transactionEvents s.params ([0x70#8, 0xAC#8, 0x33#8, 0x00#8].zip as) ++
      [.delay .sensorConv] ++ fs, r, hnack, hlisted, fun h => ?_, fun _ => ?_, ?_⟩
    · rw [hall] at h
      cases h
    · cases hout with
      | nack n hn => exact .inl ⟨n, hn, rfl, rfl, rfl⟩
      | response k c0 c1 c2 c3 c4 c5 hk hc =>
        refine .inr ⟨k, c0, c1, c2, c3, c4, c5, sampledByte c0, sampledByte c1, sampledByte c2, sampledByte c3,
          sampledByte c4, sampledByte c5, hk, rfl, fun x hx => ?_, rfl, by simp⟩
        obtain ⟨c, hmem, rfl⟩ :=
          List.mem_map.1 (show x ∈ [c0, c1, c2, c3, c4, c5].map fun c => (c, sampledByte c) from hx)
        exact ⟨hc c hmem, getMsbD_sampledByte (hc c hmem)⟩
    · rw [exec_sensorMeasure_of hready hphase, hmeasure, returnOp_reached_idle hlw]
      rfl

/-! ### The radio operations' domain (R147, R180, R183) -/

theorem lengthLegal_iff (length : Nat) : lengthLegal length = true ↔ 1 ≤ length ∧ length ≤ 255 := by
  rw [lengthLegal, Bool.and_eq_true, decide_eq_true_iff, decide_eq_true_iff, Config.lenMin, Config.lenMax]

/-- RADIO_INIT of a frequency in its domain opens its own frames. -/
theorem exec_radioInit_inRange (s : State) {f : Nat} (hf : f ≤ 1023999969) :
    exec (.radioInit f) s = issueOutsideFrame (fun s => (radioInit f s).settle) s := if_neg (Nat.not_lt.2 hf)

theorem exec_radioSend_tooShort (s : State) {payload : List Byte} {length : Nat} (hlegal : lengthLegal length = true)
    (hshort : payload.length < length) : exec (.radioSend payload length) s = .refused .payloadTooShort := by
  rw [exec, execRadioSend, if_neg (by simp [hlegal]), if_pos hshort]

/-- RADIO_SEND of a payload in its domain opens its own frames. -/
theorem exec_radioSend_inDomain (s : State) {payload : List Byte} {length : Nat} (hlegal : lengthLegal length = true)
    (hlen : length ≤ payload.length) :
    exec (.radioSend payload length) s =
      issueOutsideFrame (fun s => (radioSend (payload.take length) s).settle) s := by
  rw [exec, execRadioSend, if_neg (by simp [hlegal]), if_neg (Nat.not_lt.2 hlen)]

/-- Settles O50: the operands are checked before the frame, which a radio operation finds closed or is refused. -/
theorem radioDomainIsChecked : Obligations.RadioDomainIsChecked := by
  intro s
  refine ⟨fun f => exec_radioInit_outOfRange s, fun payload length hmin hmax => ?_,
    fun hopen => ⟨fun m => ?_, ?_, ?_⟩⟩
  · exact exec_radioSend_tooShort s ((lengthLegal_iff _).2 ⟨hmin, hmax⟩)
  · rw [exec, execRadioSetMode, issueOutsideFrame_refused hopen]
  · intro f hf
    rw [exec_radioInit_inRange s hf, issueOutsideFrame_refused hopen]
  · intro payload length hmin hmax hlen
    rw [exec_radioSend_inDomain s ((lengthLegal_iff _).2 ⟨hmin, hmax⟩) hlen, issueOutsideFrame_refused hopen]

/-! ### Sequences of frames (R177, R179, R181)

The radio operations are sequences of register accesses whose operands are parameters. `Sends` says which frames such a
sequence sends; it composes as the sequences do. -/

/-- Under parameters `p`, if the engine's listed answers complete, the run `f` sends the frames `fs`, performs then the
events `es`, and returns `a`. -/
structure Sends {α : Type} (p : Params) (fs : List (List Byte)) (es : List Event) (a : α) (f : State → Ran α) :
    Prop where
  runs : ∀ {s : State} {l : SpiLayer} {es₀ : List Event} {as rest : List EngineAnswer}, s.params = p →
    as.length = fs.flatten.length → as.all (completes p) = true →
    f (advanced l es₀ (as ++ rest) s) =
      .returned a (advanced (l.framedAll p (dealt fs as)) (es₀ ++ (framesEvents p (dealt fs as) ++ es)) rest s)

theorem Sends.returned {α : Type} (p : Params) (a : α) : Sends p [] [] a (Ran.returned a) where
  runs {s l es₀ as rest} _ hlen _ := by
    obtain rfl : as = [] := List.length_eq_zero_iff.1 hlen
    simp [dealt, framesEvents, SpiLayer.framedAll]

/-- A delay, then the result. -/
theorem Sends.delay {α : Type} (p : Params) (t : Duration) (a : α) :
    Sends p [] [.delay t] a (fun s => .returned a (Machine.delay t s)) where
  runs {s l es₀ as rest} _ hlen _ := by
    obtain rfl : as = [] := List.length_eq_zero_iff.1 hlen
    simp [dealt, framesEvents, SpiLayer.framedAll, delay_advanced]

/-- Sequencing: the frames of the first part, then those of the second. -/
theorem Sends.bind {α β : Type} {p : Params} {fs gs : List (List Byte)} {es : List Event} {a : α} {b : β}
    {f : State → Ran α} {k : α → State → Ran β} (hf : Sends p fs [] a f) (hk : Sends p gs es b (k a)) :
    Sends p (fs ++ gs) es b (fun s => (f s).bind k) where
  runs {s l es₀ as rest} hp hlen hc := by
    rw [List.flatten_append, List.length_append] at hlen
    obtain ⟨xs, ys, rfl, hxs⟩ : ∃ xs ys, as = xs ++ ys ∧ xs.length = fs.flatten.length :=
      ⟨as.take fs.flatten.length, as.drop fs.flatten.length, by simp,
        List.length_take_of_le (by omega)⟩
    have hys : ys.length = gs.flatten.length := by rw [List.length_append] at hlen; omega
    rw [List.all_append, Bool.and_eq_true] at hc
    simp only [List.append_assoc]
    rw [hf.runs hp hxs hc.1, Ran.bind_returned, hk.runs hp hys hc.2, dealt_append _ _ _ _ hxs,
      framedAll_append, framesEvents_append]
    simp only [List.append_nil, List.append_assoc]

/-- A run whose operands are parameters. -/
theorem Sends.ofParams {α : Type} {p : Params} {fs : List (List Byte)} {es : List Event} {a : α}
    {f : Params → State → Ran α} (h : Sends p fs es a (f p)) : Sends p fs es a (fun s => f s.params s) where
  runs {s l es₀ as rest} hp hlen hc := by
    subst hp
    exact h.runs rfl hlen hc

theorem Sends.regWrites (p : Params) (ws : List (Addr7 × Byte)) :
    Sends p (ws.map fun w => writeFrame w.1 w.2) [] () (Machine.regWrites ws) where
  runs {s l es₀ as rest} hp hlen hc := by
    subst hp
    rw [List.append_nil]
    refine regWrites_advanced ws ?_ hc
    rw [hlen]
    simp [List.length_flatten, Function.comp_def, writeFrame, Nat.mul_comm]

theorem Sends.regWrite (p : Params) (addr : Addr7) (v : Byte) :
    Sends p [writeFrame addr v] [] () (Machine.regWrite addr v) where
  runs {s l es₀ as rest} hp hlen hc := by
    subst hp
    obtain ⟨x, y, rfl⟩ := List.length_eq_two.1 hlen
    obtain ⟨hx, hy⟩ : completes s.params x = true ∧ completes s.params y = true := by simpa using hc
    exact (regWrite_advanced addr v hx hy).trans (by simp [dealt, framesEvents, SpiLayer.framedAll])

theorem Sends.burstWrite (p : Params) (addr : Addr7) (bytes : List Byte) :
    Sends p [cmdb true addr :: bytes] [] () (Machine.burstWrite addr bytes) where
  runs {s l es₀ as rest} hp hlen hc := by
    subst hp
    obtain ⟨x, as, rfl⟩ := List.exists_cons_of_length_pos (l := as) (by simp [hlen])
    exact (burstWrite_advanced addr bytes (by simpa using hlen) hc).trans
      (by simp [dealt, framesEvents, SpiLayer.framedAll])

/-- RADIO_SET_MODE's sequence is one write of the operating-mode byte (R177, R87). -/
theorem Sends.setMode (p : Params) (m : RadioMode) :
    Sends p [writeFrame p.regOpMode (opmode p m)] [] () (Machine.setMode m) :=
  .ofParams (f := fun p => Machine.regWrite p.regOpMode (opmode p m)) (.regWrite p _ _)

/-- The state a radio operation leaves whose sequence did not poll, field by field. -/
theorem returnOp_advanced_startOp (r : Result) (l : SpiLayer) (es : List Event) (rest : List EngineAnswer)
    (s : State) :
    returnOp r (advanced l es rest (startOp s)) =
      { s with spi := l, ustep := es.length, result := r, engine := rest, trace := s.trace ++ es } := by
  apply State.ext <;> simp [returnOp, advanced]

theorem exec_radioSetMode_of {s : State} (hclosed : s.spi.inFrame = false) (m : RadioMode) :
    exec (.radioSetMode m) s =
      .next ((setMode m (startOp s)).bind fun _ s => .returned .none s).settle := by
  rw [exec, execRadioSetMode, issueOutsideFrame_of hclosed]

/-- Settles O44: both answers complete, so RADIO_SET_MODE is one frame. -/
theorem radioSetModeFrame : Obligations.RadioSetModeFrame := by
  intro s m a b rest hclosed hengine ha hb
  rw [exec_radioSetMode_of hclosed, setMode, regWrite_listed (s := startOp s) _ _ hengine ha hb, Ran.bind_returned,
    Ran.settle_returned, returnOp_afterFrame, hengine]
  rfl

/-! ### RADIO_INIT (R179, R186) -/

theorem exec_radioInit_of {s : State} {f : Nat} (hf : f ≤ 1023999969) (hclosed : s.spi.inFrame = false) :
    exec (.radioInit f) s = .next (radioInit f (startOp s)).settle := by
  rw [exec_radioInit_inRange s hf, issueOutsideFrame_of hclosed]

/-- The reset pulse, if there is a reset line (R186). -/
theorem radioResetPulse_advanced (l : SpiLayer) (es : List Event) (rest : List EngineAnswer) (s : State) :
    (if (advanced l es rest s).params.hasReset then radioResetPulse (advanced l es rest s) else advanced l es rest s) =
      advanced (l.pulsed s.params) (es ++ resetPulseEvents s.params) rest s := by
  cases hreset : s.params.hasReset with
  | true =>
    apply State.ext <;>
      simp [radioResetPulse, SpiLayer.pulsed, resetPulseEvents, hreset, advanced, Nat.add_assoc]
  | false => simp [SpiLayer.pulsed, resetPulseEvents, hreset]

/-- RADIO_INIT up to its identification, and what the identification decides (R179). -/
theorem radioInit_identified {s : State} {l : SpiLayer} {es : List Event} {a b : EngineAnswer}
    {rest : List EngineAnswer} (f : Nat) (ha : completes s.params a) (hb : completes s.params b) :
    radioInit f (advanced l es (a :: b :: rest) s) =
      if wordToByte b.miso = Config.radioIdExpected then
        radioConfigure f (advanced
          ((l.pulsed s.params).framed s.params ((readFrame s.params.regVersion).zip [a, b]))
          (es ++ resetPulseEvents s.params ++ frameEvents s.params ((readFrame s.params.regVersion).zip [a, b]))
          rest s)
      else .returned (.failed .idMismatch) (advanced
          ((l.pulsed s.params).framed s.params ((readFrame s.params.regVersion).zip [a, b]))
          (es ++ resetPulseEvents s.params ++ frameEvents s.params ((readFrame s.params.regVersion).zip [a, b]))
          rest s) := by
  simp only [radioInit]
  rw [radioResetPulse_advanced, advanced_params, regRead_advanced _ ha hb, Ran.bind_returned]

/-- Settles O45: the identification decides that nothing follows it. -/
theorem radioInitMismatch : Obligations.RadioInitMismatch := by
  intro s f a b rest hf hclosed hengine ha hb hid
  rw [exec_radioInit_of hf hclosed, startOp_eq_advanced hengine,
    radioInit_identified (s := startOp s) f ha hb, if_neg (by exact hid), Ran.settle_returned,
    returnOp_advanced_startOp, List.nil_append, List.append_assoc]
  rfl

/-- The frames of RADIO_INIT after its identification (R179). -/
def radioConfigureFrames (p : Params) (f : Nat) : List (List Byte) :=
  [writeFrame p.regOpMode (opmode p .sleep)] ++
    ((frequencyWrites p f).map (fun w => writeFrame w.1 w.2) ++
      (p.configBlock.map (fun w => writeFrame w.1 w.2) ++
        ([writeFrame p.regIrqFlags p.irqClearAll] ++
          ([writeFrame p.regOpMode (opmode p .standby)] ++ []))))

theorem radioInitFrames_eq (p : Params) (f : Nat) :
    radioInitFrames p f = readFrame p.regVersion :: radioConfigureFrames p f := by
  simp [radioInitFrames, radioConfigureFrames, frequencyWrites, opmode, modeCode]

theorem Sends.radioConfigure (p : Params) (f : Nat) :
    Sends p (radioConfigureFrames p f) [.delay .radioSettle] .success (Machine.radioConfigure f) :=
  (setMode p .sleep).bind <|
    (ofParams (f := fun p => Machine.regWrites (frequencyWrites p f)) (regWrites p _)).bind <|
      (ofParams (f := fun p => Machine.regWrites p.configBlock) (regWrites p _)).bind <|
        (ofParams (f := fun p => Machine.regWrite p.regIrqFlags p.irqClearAll) (regWrite p _ _)).bind <|
          (setMode p .standby).bind (delay p .radioSettle Result.success)

/-- Settles O46: the identification decides that the configuration's frames follow it. -/
theorem radioInitConfigures : Obligations.RadioInitConfigures := by
  intro s f as rest hf hclosed hengine hlen hc hid
  obtain ⟨a, b, cs, rfl, hid⟩ := hid
  rw [radioInitFrames_eq] at hlen ⊢
  have hcs : cs.length = (radioConfigureFrames s.params f).flatten.length := by
    simpa [readFrame, Nat.add_comm 2] using hlen
  simp only [List.all_cons, Bool.and_eq_true] at hc
  obtain ⟨ha, hb, hc⟩ := hc
  rw [exec_radioInit_of hf hclosed, startOp_eq_advanced hengine]
  rw [List.cons_append, List.cons_append, radioInit_identified (s := startOp s) f ha hb, if_pos (by exact hid),
    (Sends.radioConfigure s.params f).runs (s := startOp s) rfl hcs hc, Ran.settle_returned, returnOp_advanced_startOp]
  simp [dealt, readFrame, SpiLayer.framedAll, framesEvents]

/-! ### RADIO_SEND (R181, R183) -/

theorem exec_radioSend_of {s : State} {payload : List Byte} {length : Nat} (hmin : 1 ≤ length) (hmax : length ≤ 255)
    (hlen : length ≤ payload.length) (hclosed : s.spi.inFrame = false) :
    exec (.radioSend payload length) s = .next (radioSend (payload.take length) (startOp s)).settle := by
  rw [exec_radioSend_inDomain s ((lengthLegal_iff _).2 ⟨hmin, hmax⟩) hlen, issueOutsideFrame_of hclosed]

theorem Sends.sendSetup (p : Params) (payload : List Byte) :
    Sends p (sendSetupFrames p payload) [] () (Machine.sendSetup payload) :=
  (setMode p .standby).bind <|
    (ofParams (f := fun p => Machine.regWrite p.regFifoAddrPtr p.txBase) (regWrite p _ _)).bind <|
      (ofParams (f := fun p => Machine.burstWrite p.regFifo payload) (burstWrite p _ _)).bind <|
        (ofParams (f := fun p => Machine.regWrite p.regPayloadLength (BitVec.ofNat 8 payload.length))
          (regWrite p _ _)).bind <|
          (ofParams (f := fun p => Machine.regWrite p.regIrqFlags p.irqClearAll) (regWrite p _ _)).bind <|
            (ofParams (f := fun p => Machine.regWrite p.regDioMapping p.dioTxDoneMap) (regWrite p _ _)).bind <|
              setMode p .transmit

theorem Sends.sendFinish (p : Params) (found : Bool) :
    Sends p (sendFinishFrames p found) [] (if found then .success else .failed .txTimeout)
      (Machine.sendFinish found) := by
  cases found with
  | true =>
    exact (ofParams (f := fun p => Machine.regWrite p.regIrqFlags p.irqClearTxDone) (regWrite p _ _)).bind <|
      (setMode p .standby).bind (returned p Result.success)
  | false => exact (setMode p .standby).bind (returned p (Result.failed .txTimeout))

/-- RADIO_SEND's polls, issued from `s` and answered `polls`, perform the events `ps` and end with `found` (R146). -/
def PollsEnd (s : State) (polls : List PollAnswer) (ps : List Event) (found : Bool) : Prop :=
  ∃ flags : Byte, ∀ (l : SpiLayer) (es : List Event) (rest : List EngineAnswer),
    regPoll s.params.regIrqFlags s.params.txDoneMask s.params.nPoll (advanced l es (pollAnswers polls ++ rest) s) =
      .returned (found, flags)
        (advanced (l.framedAll s.params (pollFrames s.params.regIrqFlags polls)) (es ++ ps) rest
          { s with remaining := none })

theorem PollsEnd.finds {s : State} {missed : List PollAnswer} {hit : PollAnswer}
    (hlt : missed.length < s.params.nPoll)
    (hcomplete : ∀ a ∈ missed ++ [hit], PollAnswer.complete s.params a = true)
    (hmissed : ∀ a ∈ missed, PollAnswer.flags a &&& s.params.txDoneMask = 0#8)
    (hhit : PollAnswer.flags hit &&& s.params.txDoneMask ≠ 0#8) :
    PollsEnd s (missed ++ [hit])
      (missedEvents s.params (pollFrames s.params.regIrqFlags missed) ++
        framesEvents s.params (pollFrames s.params.regIrqFlags [hit])) true :=
  ⟨_, fun l es rest => by rw [regPoll_finds _ _ hlt hcomplete hmissed hhit, List.append_assoc]⟩

theorem PollsEnd.times_out {s : State} {polls : List PollAnswer} (hcount : polls.length = s.params.nPoll)
    (hcomplete : ∀ a ∈ polls, PollAnswer.complete s.params a = true)
    (hmissed : ∀ a ∈ polls, PollAnswer.flags a &&& s.params.txDoneMask = 0#8) :
    PollsEnd s polls (missedEvents s.params (pollFrames s.params.regIrqFlags polls)) false :=
  ⟨_, fun l es rest => by rw [← hcount, regPoll_times_out _ _ hcomplete hmissed]⟩

/-- RADIO_SEND whose polls are known: its set-up, the polls, and the end that their outcome calls for (R181). -/
theorem radioSend_polled {s : State} {payload : List Byte} {as zs : List EngineAnswer} {polls : List PollAnswer}
    {ps : List Event} {found : Bool} (has : as.length = (sendSetupFrames s.params payload).flatten.length)
    (hpolls : PollsEnd s polls ps found)
    (hzs : zs.length = (sendFinishFrames s.params found).flatten.length)
    (hc : (as ++ zs).all (completes s.params) = true) (l : SpiLayer) (es : List Event) (rest : List EngineAnswer) :
    radioSend payload (advanced l es (as ++ pollAnswers polls ++ zs ++ rest) s) =
      .returned (if found then .success else .failed .txTimeout)
        (advanced
          (l.framedAll s.params (dealt (sendSetupFrames s.params payload) as ++
            pollFrames s.params.regIrqFlags polls ++ dealt (sendFinishFrames s.params found) zs))
          (es ++ (framesEvents s.params (dealt (sendSetupFrames s.params payload) as) ++ ps ++
            framesEvents s.params (dealt (sendFinishFrames s.params found) zs)))
          rest { s with remaining := none }) := by
  rw [List.all_append, Bool.and_eq_true] at hc
  obtain ⟨hcas, hczs⟩ := hc
  obtain ⟨flags, hpoll⟩ := hpolls
  rw [radioSend, List.append_assoc, List.append_assoc, (Sends.sendSetup s.params payload).runs rfl has hcas,
    Ran.bind_returned, advanced_params, hpoll, Ran.bind_returned,
    (Sends.sendFinish s.params found).runs (s := { s with remaining := none }) rfl hzs hczs]
  simp only [framedAll_append, List.append_nil, List.append_assoc]

/-- Settles O48: the polls before the hit miss within N_POLL, so the polls find the bit. -/
theorem radioSendSucceeds : Obligations.RadioSendSucceeds := by
  intro s payload length as missed hit zs rest hmin hmax hlen hclosed hengine has hzs hc hlt hcomplete hmissed hhit
  have hpolls := PollsEnd.finds (s := startOp s) hlt hcomplete hmissed hhit
  refine ⟨_, rfl, ?_⟩
  rw [exec_radioSend_of hmin hmax hlen hclosed, startOp_eq_advanced hengine,
    radioSend_polled (s := startOp s) has hpolls hzs hc, Ran.settle_returned, returnOp_advanced, List.nil_append,
    ← List.append_assoc (framesEvents _ _)]
  rfl

/-- Settles O49: all N_POLL polls miss, so the polls run out. -/
theorem radioSendTimesOut : Obligations.RadioSendTimesOut := by
  intro s payload length as polls zs rest hmin hmax hlen hclosed hengine has hzs hc hcount hpolls
  have hend := PollsEnd.times_out (s := startOp s) hcount (fun a ha => (hpolls a ha).1) fun a ha => (hpolls a ha).2
  refine ⟨_, rfl, ?_⟩
  rw [exec_radioSend_of hmin hmax hlen hclosed, startOp_eq_advanced hengine,
    radioSend_polled (s := startOp s) has hend hzs hc, Ran.settle_returned, returnOp_advanced, List.nil_append]
  rfl

end Sys2Proof.Machine

/-! PROOF. The family of spec/60_exceptions.md: each side leaves the other alone (R214), the illegal length that fails
with no event (R206, R208), and what one step runs (R214, R220, spec/70_reset_and_hazards.md R243). -/

namespace Sys2Proof.Machine

/-! ### Each side leaves the other alone (R214) -/

/-- Settles O24: I2C_INIT writes the line and waits; the law of the I2C side speaks of every other operation. -/
theorem i2cSideLeavesTheSpiSideAlone : Obligations.I2cSideLeavesTheSpiSideAlone := by
  intro i s t hi h
  have hside : onSpiSide i = false := by
    rcases hi with rfl | rfl | rfl | ⟨_, rfl⟩ | ⟨_, rfl⟩ | rfl | rfl | rfl <;> rfl
  by_cases hn : i = .i2cInit
  · subst hn
    obtain ⟨-, rfl⟩ := execI2cInit_next h
    exact ⟨rfl, rfl, rfl, rfl, rfl, rfl⟩
  · have hf := exec_i2cOnly hside hn h
    exact ⟨hf.spi, hf.params, hf.engine, hf.queue, hf.remaining, hf.hung⟩

/-- Settles O39: these are the operations of the SPI side, and the law of that side speaks of all of them. -/
theorem spiSideLeavesTheI2cSideAlone : Obligations.SpiSideLeavesTheI2cSideAlone := by
  intro i s t hi h
  have hside : onSpiSide i = true := by
    rcases hi with rfl | rfl | ⟨_, rfl⟩ | ⟨_, rfl⟩ | ⟨_, _, rfl⟩ | ⟨_, _, rfl⟩ | ⟨_, _, _, rfl⟩ | ⟨_, rfl⟩ | ⟨_, rfl⟩ |
      ⟨_, _, rfl⟩ <;> rfl
  have hf := exec_spiFrame hside h
  exact ⟨hf.i2c, hf.params, hf.responder, hf.queue⟩

/-! ### The illegal length (R206, R208) -/

theorem lengthLegal_eq_false_iff (length : Nat) : lengthLegal length = false ↔ length = 0 ∨ 255 < length := by
  rw [← Bool.not_eq_true, lengthLegal_iff]
  omega

/-- RADIO_SEND looks at the length before the payload and before the frame. -/
theorem exec_radioSend_illegalLength (s : State) (payload : List Byte) {length : Nat}
    (hillegal : lengthLegal length = false) :
    exec (.radioSend payload length) s = .next (failOp .invalidLength (startOp s)) := if_pos hillegal

/-- Settles O47: the failure is the operation's start and end with nothing between them. -/
theorem radioSendRejectsIllegalLength : Obligations.RadioSendRejectsIllegalLength :=
  fun s payload length hlength => exec_radioSend_illegalLength s payload ((lengthLegal_eq_false_iff length).2 hlength)

/-! ### What one step runs (R214, R220, spec/70_reset_and_hazards.md R243) -/

/-- Settles O51: no poll is unfinished, the queue's first word is fetched, and it decodes. -/
theorem stepRunsTheDecodedOperation : Obligations.StepRunsTheDecodedOperation := by
  intro s w rest i hh hq hd
  simp only [step, hh, Bool.false_eq_true, if_false, fetchOp, hq, hd]

/-- A step with a poll unfinished is one more read of it. -/
theorem step_hung {s : State} (hh : s.hung = true) : step s = .next (hungRead s) := if_pos hh

/-- Settles O52: the wait, and the status word of an unfinished poll, whose done bit is cleared. -/
theorem stepWaitsOrPolls : Obligations.StepWaitsOrPolls :=
  ⟨fun _ => step_waiting, fun _ hh => ⟨_, testBit_setBit_self _ _ _, step_hung hh⟩⟩

end Sys2Proof.Machine

/-! PROOF. The family of spec/70_reset_and_hazards.md: the transfer that never ends (R243, R244), the I2C master before
and after I2C_INIT (R231, R252), the event counts (R250), and chip-select after a launch (R236). -/

namespace Sys2Proof.Machine

/-! ### A poll that never ends (R243) -/

/-- A run goes on from the state its first step answers. -/
theorem run_succ_of_next {M : Host.Core} {s s' : M.State} (h : M.step s = .next s') (k : Nat) :
    M.run (k + 1) s = M.run k s' := by
  rw [Host.Core.run, h]

/-- However many steps follow, a machine with a poll unfinished only reads the status, each time with the done bit 0. -/
theorem run_hung (k : Nat) : ∀ {s : State}, s.hung = true →
    ∃ polls : List HostWord, polls.length = k ∧ (∀ w ∈ polls, w.testBit s.params.statusDoneBit = false) ∧
      core.run k s = .next (afterReads polls s) := by
  induction k with
  | zero => exact fun {s} _ => ⟨[], rfl, nofun, by simp [Host.Core.run, afterReads]⟩
  | succ k ih =>
    intro s hh
    obtain ⟨polls, hlen, hbusy, hrun⟩ := ih (s := hungRead s) hh
    refine ⟨setBit (Config.hungStatus s.trace) s.params.statusDoneBit false :: polls, by simp [hlen],
      List.forall_mem_cons.2 ⟨testBit_setBit_self _ _ _, hbusy⟩, ?_⟩
    rw [← afterReads_cons]
    exact (run_succ_of_next (M := core) (step_hung hh) k).trans hrun

/-- An operation that leaves a poll unfinished and no result never returns. -/
theorem NeverReturns.of_hung {i : Instr} {s t : State} (h : exec i s = .next t) (hh : t.hung = true)
    (hr : t.result = .none) : NeverReturns i s := by
  refine ⟨t, h, hh, hr, fun k => ?_⟩
  obtain ⟨polls, -, -, hrun⟩ := run_hung k hh
  exact ⟨_, hrun, hh, hr, rfl⟩

/-- A done-poll that never sees the done bit reads every word. -/
theorem polledWords_busy {p : Params} {words : List HostWord} (h : ∀ w ∈ words, doneOf p w = false) :
    polledWords p words = words := by
  induction words with
  | nil => rfl
  | cons w ws ih =>
    obtain ⟨hw, hws⟩ := List.forall_mem_cons.1 h
    simp [polledWords, hw, ih hws]

/-- SPI_XFER inside a frame is the exchange of its byte (R142). -/
theorem exec_spiXfer_of {s : State} (hopen : s.spi.inFrame = true) (out : Byte) :
    exec (.spiXfer out) s =
      .next ((transferByte out (startOp s)).bind fun v s => .returned (.byte v) s).settle := by
  rw [exec, execSpiXfer, issueInsideFrame_of hopen]

/-- An exchange whose listed answer does not complete hangs in its done-poll. -/
theorem transferByte_listed_hung {s : State} {a : EngineAnswer} {rest : List EngineAnswer} (out : Byte)
    (he : s.engine = a :: rest) (hc : completes s.params a = false) :
    transferByte out s = .hung (afterStart out a s) := by
  have hanswer : exchangeAnswer out s = a := by simp [exchangeAnswer, he]
  rw [transferByte_eq, hanswer, if_neg (by simp [hc])]

/-- Settles O32: the exchange hangs having read every word, and each later step reads one more. -/
theorem spiXferHangsForever : Obligations.SpiXferHangsForever := by
  intro s out words miso rest hopen hengine hbusy
  have hnever : completes s.params ⟨words, miso⟩ = false :=
    List.any_eq_false.2 fun w hw => by simp [doneOf, hbusy w hw]
  refine ⟨{ afterStart out ⟨words, miso⟩ (startOp s) with hung := true }, ?_, rfl, rfl, ?_, fun k => ?_⟩
  · rw [exec_spiXfer_of hopen, transferByte_listed_hung (s := startOp s) out hengine hnever]
    rfl
  · simp [afterStart, startedEvents, polledWords_busy hbusy]
  · obtain ⟨polls, hlen, hdone, hrun⟩ :=
      run_hung k (s := { afterStart out ⟨words, miso⟩ (startOp s) with hung := true }) rfl
    exact ⟨_, polls, hrun, hlen, hdone, by rw [← hlen]; rfl⟩

/-! ### The sequence of each operation of the SPI side

An operation of the SPI side is a sequence of micro-steps that returns a result or hangs, run from its start. What holds
of all of them is said of `spiSequence`. -/

/-- The sequence of micro-steps of an operation of the SPI side; operations of the I2C side have none. -/
def spiSequence : Instr → State → Ran Result
  | .spiSelect => fun s => .returned .none (selectDevice s)
  | .spiDeselect => fun s => .returned .none (deselectDevice s)
  | .spiXfer out => fun s => (transferByte out s).bind fun v s => .returned (.byte v) s
  | .regRead address => fun s => (regRead (radioAddress address) s).bind fun v s => .returned (.byte v) s
  | .regWrite address value => fun s =>
    (regWrite (radioAddress address) value s).bind fun _ s => .returned .none s
  | .regBurstWrite startAddress bytes => fun s =>
    (burstWrite (radioAddress startAddress) bytes s).bind fun _ s => .returned .none s
  | .regPoll address mask budget => fun s =>
    (regPoll (radioAddress address) mask budget s).bind fun r s => .returned (.polled r.1 r.2) s
  | .radioSetMode mode => fun s => (setMode mode s).bind fun _ s => .returned .none s
  | .radioInit f => radioInit f
  | .radioSend payload length =>
    if lengthLegal length = false then .returned (.failed .invalidLength) else radioSend (payload.take length)
  | _ => .returned .none

/-- An operation of the SPI side that runs is its sequence, and is so from every state with the same frame
bookkeeping (R147). -/
theorem exec_spiSequence {i : Instr} {s t : State} (hi : onSpiSide i = true) (h : exec i s = .next t) :
    ∀ u : State, u.spi.inFrame = s.spi.inFrame → exec i u = .next (spiSequence i (startOp u)).settle := by
  intro u hu
  have closed : ∀ {run : State → State}, issueOutsideFrame run s = .next t → u.spi.inFrame = false :=
    fun h => hu.trans (issueOutsideFrame_next h).1
  have opened : ∀ {run : State → State}, issueInsideFrame run s = .next t → u.spi.inFrame = true :=
    fun h => hu.trans (issueInsideFrame_next h).1
  cases i <;> simp only [onSpiSide, Bool.false_eq_true] at hi
  case spiSelect =>
    simp only [exec, execSpiSelect] at h
    exact issueOutsideFrame_of (closed h)
  case spiDeselect =>
    simp only [exec, execSpiDeselect] at h
    exact issueInsideFrame_of (opened h)
  case spiXfer out =>
    simp only [exec, execSpiXfer] at h
    exact exec_spiXfer_of (opened h) out
  case regRead address =>
    simp only [exec, execRegRead] at h
    exact exec_regRead_of (closed h) address
  case regWrite address value =>
    simp only [exec, execRegWrite] at h
    exact exec_regWrite_of (closed h) address value
  case regBurstWrite address bytes =>
    simp only [exec, execRegBurstWrite] at h
    exact exec_regBurstWrite_of (closed h) address bytes
  case regPoll address mask budget =>
    simp only [exec, execRegPoll] at h
    exact exec_regPoll_of (closed h) address mask budget
  case radioSetMode mode =>
    simp only [exec, execRadioSetMode] at h
    exact exec_radioSetMode_of (closed h) mode
  case radioInit f =>
    by_cases hf : f ≤ 1023999969
    · rw [exec_radioInit_inRange s hf] at h
      exact exec_radioInit_of hf (closed h)
    · rw [exec_radioInit_outOfRange s (Nat.lt_of_not_le hf)] at h
      cases h
  case radioSend payload length =>
    cases hlegal : lengthLegal length with
    | false =>
      rw [exec_radioSend_illegalLength u payload hlegal, spiSequence, if_pos hlegal]
      rfl
    | true =>
      by_cases hlen : length ≤ payload.length
      · rw [exec_radioSend_inDomain s hlegal hlen] at h
        rw [exec_radioSend_inDomain u hlegal hlen, issueOutsideFrame_of (closed h), spiSequence,
          if_neg (by simp [hlegal])]
      · rw [exec_radioSend_tooShort s hlegal (Nat.lt_of_not_le hlen)] at h
        cases h

/-- A property of states that every part of the SPI side's sequences keeps, an exchange also when it hangs. -/
structure SpiPartsKeep (P : State → Prop) : Prop where
  select     : ∀ {s}, P s → P (selectDevice s)
  deselect   : ∀ {s}, P s → P (deselectDevice s)
  exchange   : ∀ {s} (out : Byte), P s → P (transferByte out s).state
  delay      : ∀ {s} (t : Duration), P s → P (delay t s)
  setCounter : ∀ {s} (c : Option Nat), P s → P { s with remaining := c }
  resetPulse : ∀ {s}, P s → P (radioResetPulse s)

theorem Ran.state_bind {α β : Type} {P : State → Prop} {r : Ran α} {k : α → State → Ran β} (h : P r.state)
    (hk : ∀ a t, P t → P (k a t).state) : P (r.bind k).state := by
  cases r with
  | returned a t => exact hk a t h
  | hung t => exact h

section
variable {P : State → Prop} {s : State}

theorem SpiPartsKeep.regRead (h : SpiPartsKeep P) (hs : P s) (a : Addr7) : P (Machine.regRead a s).state :=
  Ran.state_bind (h.exchange _ (h.select hs)) fun _ _ ht => Ran.state_bind (h.exchange _ ht) fun _ _ hu => h.deselect hu

theorem SpiPartsKeep.regWrite (h : SpiPartsKeep P) (hs : P s) (a : Addr7) (v : Byte) :
    P (Machine.regWrite a v s).state :=
  Ran.state_bind (h.exchange _ (h.select hs)) fun _ _ ht => Ran.state_bind (h.exchange _ ht) fun _ _ hu => h.deselect hu

theorem SpiPartsKeep.transferAll (h : SpiPartsKeep P) (hs : P s) (bytes : List Byte) :
    P (Machine.transferAll bytes s).state := by
  induction bytes generalizing s with
  | nil => exact hs
  | cons b bs ih => exact Ran.state_bind (h.exchange b hs) fun _ _ ht => ih ht

theorem SpiPartsKeep.burstWrite (h : SpiPartsKeep P) (hs : P s) (a : Addr7) (bytes : List Byte) :
    P (Machine.burstWrite a bytes s).state :=
  Ran.state_bind (h.exchange _ (h.select hs)) fun _ _ ht =>
    Ran.state_bind (h.transferAll ht bytes) fun _ _ hu => h.deselect hu

theorem SpiPartsKeep.pollLoop (h : SpiPartsKeep P) (hs : P s) (a : Addr7) (mask : Byte) (n : Nat) (flags : Byte) :
    P (Machine.pollLoop a mask n flags s).state := by
  induction n generalizing s flags with
  | zero => exact hs
  | succ n ih =>
    refine Ran.state_bind (h.regRead hs a) fun f t ht => ?_
    dsimp only
    split
    · exact ht
    · exact ih (h.setCounter (some n) (h.delay .poll ht)) f

theorem SpiPartsKeep.regPoll (h : SpiPartsKeep P) (hs : P s) (a : Addr7) (mask : Byte) (n : Nat) :
    P (Machine.regPoll a mask n s).state :=
  Ran.state_bind (h.pollLoop (h.setCounter (some n) hs) a mask n _) fun _ _ ht => h.setCounter none ht

theorem SpiPartsKeep.setMode (h : SpiPartsKeep P) (hs : P s) (m : RadioMode) : P (Machine.setMode m s).state :=
  h.regWrite hs _ _

theorem SpiPartsKeep.regWrites (h : SpiPartsKeep P) (hs : P s) (ws : List (Addr7 × Byte)) :
    P (Machine.regWrites ws s).state := by
  induction ws generalizing s with
  | nil => exact hs
  | cons w ws ih => exact Ran.state_bind (h.regWrite hs _ _) fun _ _ ht => ih ht

theorem SpiPartsKeep.radioConfigure (h : SpiPartsKeep P) (hs : P s) (f : Nat) :
    P (Machine.radioConfigure f s).state :=
  Ran.state_bind (h.setMode hs _) fun _ _ hs => Ran.state_bind (h.regWrites hs _) fun _ _ hs =>
    Ran.state_bind (h.regWrites hs _) fun _ _ hs => Ran.state_bind (h.regWrite hs _ _) fun _ _ hs =>
      Ran.state_bind (h.setMode hs _) fun _ _ hs => h.delay _ hs

theorem SpiPartsKeep.radioInit (h : SpiPartsKeep P) (hs : P s) (f : Nat) : P (Machine.radioInit f s).state := by
  have hpulse : P (if s.params.hasReset then Machine.radioResetPulse s else s) := by
    split
    · exact h.resetPulse hs
    · exact hs
  refine Ran.state_bind (h.regRead hpulse _) fun id t ht => ?_
  split
  · exact h.radioConfigure ht f
  · exact ht

theorem SpiPartsKeep.sendSetup (h : SpiPartsKeep P) (hs : P s) (payload : List Byte) :
    P (Machine.sendSetup payload s).state :=
  Ran.state_bind (h.setMode hs _) fun _ _ hs => Ran.state_bind (h.regWrite hs _ _) fun _ _ hs =>
    Ran.state_bind (h.burstWrite hs _ _) fun _ _ hs => Ran.state_bind (h.regWrite hs _ _) fun _ _ hs =>
      Ran.state_bind (h.regWrite hs _ _) fun _ _ hs => Ran.state_bind (h.regWrite hs _ _) fun _ _ hs => h.setMode hs _

theorem SpiPartsKeep.sendFinish (h : SpiPartsKeep P) (hs : P s) (found : Bool) :
    P (Machine.sendFinish found s).state := by
  cases found
  · exact Ran.state_bind (h.setMode hs _) fun _ _ ht => ht
  · exact Ran.state_bind (h.regWrite hs _ _) fun _ _ ht => Ran.state_bind (h.setMode ht _) fun _ _ hu => hu

theorem SpiPartsKeep.radioSend (h : SpiPartsKeep P) (hs : P s) (payload : List Byte) :
    P (Machine.radioSend payload s).state :=
  Ran.state_bind (h.sendSetup hs payload) fun _ _ hs => Ran.state_bind (h.regPoll hs _ _ _) fun r _ hs =>
    h.sendFinish hs r.1

/-- What the parts keep, the sequence of every operation keeps, however it ends. -/
theorem SpiPartsKeep.spiSequence (h : SpiPartsKeep P) (hs : P s) (i : Instr) :
    P (Machine.spiSequence i s).state := by
  cases i with
  | spiSelect => exact h.select hs
  | spiDeselect => exact h.deselect hs
  | spiXfer => exact Ran.state_bind (h.exchange _ hs) fun _ _ ht => ht
  | regRead => exact Ran.state_bind (h.regRead hs _) fun _ _ ht => ht
  | regWrite => exact Ran.state_bind (h.regWrite hs _ _) fun _ _ ht => ht
  | regBurstWrite => exact Ran.state_bind (h.burstWrite hs _ _) fun _ _ ht => ht
  | regPoll => exact Ran.state_bind (h.regPoll hs _ _ _) fun _ _ ht => ht
  | radioSetMode => exact Ran.state_bind (h.setMode hs _) fun _ _ ht => ht
  | radioInit => exact h.radioInit hs _
  | radioSend =>
    simp only [Machine.spiSequence]
    split
    · exact hs
    · exact h.radioSend hs _
  | _ => exact hs

end

/-- The sequence of an operation of the SPI side works on the SPI half alone. -/
theorem SpiOnly.spiSequence (i : Instr) (s : State) : SpiOnly s (Machine.spiSequence i s).state :=
  SpiPartsKeep.spiSequence (P := SpiOnly s)
    { select := fun h => h.trans (.select _)
      deselect := fun h => h.trans (.deselect _)
      exchange := fun _ h => h.trans (.transferByte _ _)
      delay := fun _ h => h.trans (.delay _ _)
      setCounter := fun _ h => h.trans (.remaining _ _)
      resetPulse := fun h => h.trans (.radioResetPulse _) } (.refl s) i

/-! ### Every run is the run of listed answers (R59, R243) -/

/-- The sequence of an operation of the SPI side is the run of some listed answers. -/
theorem Listable.spiSequence (i : Instr) (s : State) : Listable (Machine.spiSequence i) s := by
  cases i with
  | spiSelect => exact (returned Result.none _).after (g := selectDevice) rfl rfl fun _ => rfl
  | spiDeselect => exact deselect _ s
  | spiXfer out => exact (transferByte out s).bind fun v t => returned (Result.byte v) t
  | regRead a => exact (regRead _ s).bind fun v t => returned (Result.byte v) t
  | regWrite a v => exact (regWrite _ v s).bind fun _ t => returned Result.none t
  | regBurstWrite a bytes => exact (burstWrite _ bytes s).bind fun _ t => returned Result.none t
  | regPoll a mask n => exact (regPoll _ mask n s).bind fun r t => returned (Result.polled r.1 r.2) t
  | radioSetMode m => exact (setMode m s).bind fun _ t => returned Result.none t
  | radioInit f => exact radioInit f s
  | radioSend payload length =>
    simp only [Machine.spiSequence]
    split
    · exact returned _ s
    · exact radioSend _ s
  | _ => exact returned Result.none s

theorem Ran.settle_engine (r : Ran Result) : r.settle.engine = r.state.engine := by cases r <;> rfl

theorem Ran.settle_withEngine (answers : List EngineAnswer) (r : Ran Result) :
    (r.withEngine answers).settle = Machine.withEngine answers r.settle := by cases r <;> rfl

/-- An operation whose sequence hangs never returns (R243). -/
theorem NeverReturns.of_sequence {i : Instr} {s u : State} (h : exec i s = .next (spiSequence i (startOp s)).settle)
    (hu : spiSequence i (startOp s) = .hung u) : NeverReturns i s := by
  have honly := SpiOnly.spiSequence i (startOp s)
  rw [hu] at h honly
  exact .of_hung h rfl honly.result

/-- Settles O57: the operation's sequence is the run of some listed answers; how it ends says whether all of them
complete, and the one that hangs never returns. -/
theorem spiOperationReturnsExactlyIfItsTransfersComplete :
    Obligations.SpiOperationReturnsExactlyIfItsTransfersComplete := by
  intro i s t hi hh h
  have hside : onSpiSide i = true := by
    rcases hi with rfl | rfl | ⟨_, rfl⟩ | ⟨_, rfl⟩ | ⟨_, _, rfl⟩ | ⟨_, _, rfl⟩ | ⟨_, _, _, rfl⟩ | ⟨_, rfl⟩ |
      ⟨_, rfl⟩ | ⟨_, _, rfl⟩ <;> rfl
  have hruns := exec_spiSequence hside h
  have hexec := hruns s rfl
  obtain rfl : t = (spiSequence i (startOp s)).settle := by
    rw [h] at hexec
    injection hexec
  have honly := SpiOnly.spiSequence i (startOp s)
  obtain ⟨as, -, hlisted, hleft, hsame, hends⟩ := Listable.spiSequence i (startOp s)
  refine ⟨as, hlisted, (Ran.settle_engine _).trans hleft, fun rest => ?_, fun hret => ?_, fun hhung => ?_⟩
  · have hlistedRun := congrArg Ran.settle (hsame rest)
    rw [Ran.settle_withEngine] at hlistedRun
    exact (hruns (withEngine (as ++ rest) s) rfl).trans (congrArg Host.Outcome.next hlistedRun)
  · cases hseq : spiSequence i (startOp s) with
    | returned a u => rwa [hseq] at hends
    | hung u => simp [hseq] at hret
  · cases hseq : spiSequence i (startOp s) with
    | returned a u =>
      rw [hseq] at hhung honly
      exact absurd (hhung.symm.trans (honly.hung.trans hh)) nofun
    | hung u =>
      rw [hseq] at hends
      exact ⟨hends, .of_sequence hexec hseq⟩

/-! ### Accesses and sequences whose exchange does not complete (R243, R244) -/

/-- An operation never returns whose run hangs before it hands over its value. -/
theorem NeverReturns.of_bind_hung {α : Type} {r : Ran α} {k : α → State → Ran Result} {i : Instr} {s : State}
    (h : exec i s = .next (r.bind k).settle) (hseq : spiSequence i (startOp s) = r.bind k) (hr : ∃ u, r = .hung u) :
    NeverReturns i s := by
  obtain ⟨u, rfl⟩ := hr
  exact .of_sequence (hseq ▸ h) hseq

/-- Settles O58: each access takes a fixed number of exchanges, and a poll hangs in its loop. -/
theorem accessesHangWithTheirExchanges : Obligations.AccessesHangWithTheirExchanges := by
  intro s missed as bad rest hclosed hengine hc hb
  refine ⟨?_, ?_, ?_⟩
  · rintro rfl hlen
    have hangs : ∀ {α : Type} {f : State → Ran α}, Takes f s.params 2 → ∃ u, f (startOp s) = .hung u :=
      fun hf => hf.hangs rfl hengine hlen hc hb
    exact ⟨fun address => .of_bind_hung (exec_regRead_of hclosed address) rfl (hangs (.regRead _ _)),
      fun address value => .of_bind_hung (exec_regWrite_of hclosed address value) rfl (hangs (.regWrite _ _ _)),
      fun mode => .of_bind_hung (exec_radioSetMode_of hclosed mode) rfl (hangs (.setMode _ _))⟩
  · rintro address bytes rfl hlen
    exact .of_bind_hung (exec_regBurstWrite_of hclosed address bytes) rfl
      ((Takes.burstWrite _ bytes s.params).hangs rfl hengine hlen hc hb)
  · intro address mask budget hbudget hlen hmissed
    exact .of_bind_hung (exec_regPoll_of hclosed address mask budget) rfl
      (regPoll_hangs _ mask (s := startOp s) hengine hbudget hlen hmissed hc hb)

/-- A run of a fixed number of exchanges, from a state reached by a sequence of frames. -/
theorem Takes.hangs_advanced {α : Type} {f : State → Ran α} {s : State} {n : Nat} {as : List EngineAnswer}
    {bad : EngineAnswer} (h : Takes f s.params n) (hlen : as.length < n) (hc : as.all (completes s.params) = true)
    (hb : completes s.params bad = false) (l : SpiLayer) (es : List Event) (rest : List EngineAnswer) :
    ∃ u, f (advanced l es (as ++ bad :: rest) s) = .hung u :=
  h.hangs rfl rfl hlen hc hb

theorem radioConfigureFrames_length (p : Params) (f : Nat) :
    (radioConfigureFrames p f).flatten.length = 2 + (6 + (2 * p.configBlock.length + (2 + (2 + 0)))) := by
  simp [radioConfigureFrames, frequencyWrites, writeFrame, List.length_flatten, Function.comp_def, Nat.mul_comm]
  omega

theorem sendSetupFrames_length (p : Params) (payload : List Byte) :
    (sendSetupFrames p payload).flatten.length = 2 + (2 + ((1 + payload.length) + (2 + (2 + (2 + 2))))) := by
  simp [sendSetupFrames, writeFrame]
  omega

/-- RADIO_INIT hangs at the first exchange that does not complete, in its identification or, that being 0x12, in its
configuration (R179, R243). -/
theorem radioInit_hangs {s : State} {f : Nat} {as : List EngineAnswer} {bad : EngineAnswer}
    {rest : List EngineAnswer} (he : s.engine = as ++ bad :: rest)
    (hlen : as.length < (radioInitFrames s.params f).flatten.length)
    (hid : ∀ a b cs, as = a :: b :: cs → wordToByte b.miso = Config.radioIdExpected)
    (hc : as.all (completes s.params) = true) (hb : completes s.params bad = false) :
    ∃ u, radioInit f s = .hung u := by
  rw [← advanced_self s, he]
  by_cases hshort : as.length < 2
  · simp only [radioInit]
    rw [radioResetPulse_advanced]
    obtain ⟨u, hu⟩ := (Takes.regRead s.params.regVersion s.params).hangs_advanced hshort hc hb
      (s.spi.pulsed s.params) ([] ++ resetPulseEvents s.params) rest
    exact ⟨u, by rw [advanced_params, hu, Ran.bind_hung]⟩
  · obtain ⟨a, b, cs, rfl, hcs⟩ := split_two (as := as) (n := as.length - 2) (by omega)
    rw [radioInitFrames_eq, List.flatten_cons, List.length_append, radioConfigureFrames_length] at hlen
    have hconf : cs.length < 2 + (6 + (2 * s.params.configBlock.length + (2 + (2 + 0)))) := by
      simp [readFrame] at hlen
      omega
    simp only [List.all_cons, Bool.and_eq_true] at hc
    obtain ⟨ha, hb', hc⟩ := hc
    rw [List.cons_append, List.cons_append, radioInit_identified f ha hb', if_pos (hid a b cs rfl)]
    exact (Takes.radioConfigure f s.params).hangs_advanced hconf hc hb _ _ _

/-- RADIO_SEND whose set-up has returned and whose polls are known hangs at the first exchange of its end that does not
complete (R181, R243). -/
theorem radioSend_hangs_in_finish {s t : State} {payload : List Byte} {polls : List PollAnswer} {ps : List Event}
    {found : Bool} {as : List EngineAnswer} {bad : EngineAnswer} {rest : List EngineAnswer}
    (hsetup : sendSetup payload s = .returned () t) (hpolls : PollsEnd t polls ps found)
    (he : t.engine = pollAnswers polls ++ (as ++ bad :: rest)) (hlen : as.length < if found then 4 else 2)
    (hc : as.all (completes t.params) = true) (hb : completes t.params bad = false) :
    ∃ u, radioSend payload s = .hung u := by
  obtain ⟨flags, hpoll⟩ := hpolls
  have hrun := hpoll t.spi [] (as ++ bad :: rest)
  rw [← he, advanced_self] at hrun
  rw [radioSend, hsetup, Ran.bind_returned, hrun, Ran.bind_returned]
  exact (Takes.sendFinish found t.params).hangs_advanced (s := { t with remaining := none }) hlen hc hb _ _ _

/-- RADIO_SEND's set-up whose answers complete (R181). -/
theorem sendSetup_returns {s : State} {payload : List Byte} {setup more : List EngineAnswer}
    (he : s.engine = setup ++ more) (hlen : setup.length = (sendSetupFrames s.params payload).flatten.length)
    (hc : setup.all (completes s.params) = true) :
    ∃ t, sendSetup payload s = .returned () t ∧ t.params = s.params ∧ t.engine = more := by
  obtain ⟨_, ht⟩ :=
    (Takes.sendSetup payload s.params).returns rfl he (hlen.trans (sendSetupFrames_length _ _)) hc
  exact ht

theorem NeverReturns.radioSend {s : State} {payload : List Byte} {length : Nat} (hmin : 1 ≤ length)
    (hmax : length ≤ 255) (hlen : length ≤ payload.length) (hclosed : s.spi.inFrame = false)
    (h : ∃ u, Machine.radioSend (payload.take length) (startOp s) = .hung u) :
    NeverReturns (.radioSend payload length) s := by
  obtain ⟨u, hu⟩ := h
  have hlegal : lengthLegal length = true := (lengthLegal_iff _).2 ⟨hmin, hmax⟩
  have hseq : spiSequence (.radioSend payload length) = Machine.radioSend (payload.take length) :=
    if_neg (by simp [hlegal])
  refine .of_sequence ?_ ((congrFun hseq _).trans hu)
  rw [hseq]
  exact exec_radioSend_of hmin hmax hlen hclosed

/-- Settles O59: the set-up and the end take fixed numbers of exchanges, and the polls between them hang in their loop
or come to a known end. -/
theorem radioSequencesHangWithTheirExchanges : Obligations.RadioSequencesHangWithTheirExchanges := by
  intro s as bad rest hclosed hc hb
  refine ⟨fun f hf he hlen hid => ?_, fun payload length hmin hmax hlength => ⟨fun he hlen => ?_, ?_⟩⟩
  · obtain ⟨u, hu⟩ := radioInit_hangs (s := startOp s) he hlen hid hc hb
    exact .of_sequence (exec_radioInit_of hf hclosed) hu
  · refine .radioSend hmin hmax hlength hclosed ?_
    rw [sendSetupFrames_length] at hlen
    obtain ⟨u, hu⟩ := (Takes.sendSetup (payload.take length) s.params).hangs (s := startOp s) rfl he hlen hc hb
    exact ⟨u, by rw [radioSend, hu, Ran.bind_hung]⟩
  · intro setup missed hsetupLen hsetup hmissed
    refine ⟨fun he hcount hlen => .radioSend hmin hmax hlength hclosed ?_,
      fun hit he hcount hcomplete hhit hlen => .radioSend hmin hmax hlength hclosed ?_⟩
    · simp only [List.append_assoc] at he
      obtain ⟨t, ht, hp, hte⟩ := sendSetup_returns (s := startOp s) he hsetupLen hsetup
      rw [← startOp_params, ← hp] at hc hb hmissed hcount
      rcases Nat.lt_or_eq_of_le hcount with hlt | hall
      · obtain ⟨u, hu⟩ := regPoll_hangs t.params.regIrqFlags t.params.txDoneMask (by rw [hte, List.append_assoc])
          hlt hlen hmissed hc hb
        exact ⟨u, by rw [radioSend, ht, Ran.bind_returned, hu, Ran.bind_hung]⟩
      · exact radioSend_hangs_in_finish ht
          (.times_out hall (fun a ha => (hmissed a ha).1) fun a ha => (hmissed a ha).2) hte hlen hc hb
    · simp only [List.append_assoc] at he
      obtain ⟨t, ht, hp, hte⟩ := sendSetup_returns (s := startOp s) he hsetupLen hsetup
      rw [← startOp_params, ← hp] at hc hb hmissed hcount hcomplete hhit
      have hall : ∀ a ∈ missed ++ [hit], PollAnswer.complete t.params a = true :=
        List.forall_mem_append.2 ⟨fun a ha => (hmissed a ha).1, List.forall_mem_singleton.2 hcomplete⟩
      exact radioSend_hangs_in_finish ht (.finds hcount hall (fun a ha => (hmissed a ha).2) hhit) hte hlen hc hb

/-! ### Chip-select after a launch (R236) -/

/-- The property speaks of the SPI half and the parameters only. -/
theorem ChipSelectReleased.congr {s t : State} (h : ChipSelectReleased s) (hs : t.spi = s.spi)
    (hp : t.params = s.params) : ChipSelectReleased t := by
  rwa [ChipSelectReleased, hs, hp]

/-- Inside a frame there is nothing to say. -/
theorem ChipSelectReleased.of_inFrame {s : State} (h : s.spi.inFrame = true) : ChipSelectReleased s :=
  fun hclosed => absurd (h.symm.trans hclosed) nofun

/-- An exchange writes neither SPI_CS nor the frame bookkeeping. -/
theorem ChipSelectReleased.transferByte {s : State} (h : ChipSelectReleased s) (out : Byte) :
    ChipSelectReleased (Machine.transferByte out s).state := by
  rw [transferByte_eq]
  split <;> exact h

/-- A select opens a frame, a deselect closes it with the deselect value, and no other part writes SPI_CS (R140,
R141). -/
theorem chipSelectReleased_spiPartsKeep : SpiPartsKeep ChipSelectReleased where
  select _ := .of_inFrame rfl
  deselect _ _ := rfl
  exchange out h := h.transferByte out
  delay _ h := h.congr rfl rfl
  setCounter _ h := h.congr rfl rfl
  resetPulse h := h

/-- Every operation keeps chip-select released outside frames, also when it hangs. -/
theorem exec_chipSelectReleased {i : Instr} {s t : State} (hs : ChipSelectReleased s) (h : exec i s = .next t) :
    ChipSelectReleased t := by
  cases hi : onSpiSide i with
  | true =>
    have hseq := chipSelectReleased_spiPartsKeep.spiSequence (s := startOp s) (hs.congr rfl rfl) i
    rw [exec_spiSequence hi h s rfl] at h
    injection h with h
    subst h
    cases hrun : spiSequence i (startOp s) with
    | returned a u => rw [hrun] at hseq; exact hseq.congr rfl rfl
    | hung u => rw [hrun] at hseq; exact hseq.congr rfl rfl
  | false =>
    by_cases hn : i = .i2cInit
    · subst hn
      obtain ⟨-, rfl⟩ := execI2cInit_next h
      exact hs.congr rfl rfl
    · have hf := exec_i2cOnly hi hn h
      exact hs.congr hf.spi hf.params

/-- The launch premises start the SPI side between frames, with chip-select released (R236). -/
theorem LaunchPremises.betweenFrames {s : State} (h : LaunchPremises s) : BetweenFrames none s :=
  ⟨h.released.1, h.engineIdle.1, h.engineIdle.2⟩

/-- Settles O60: the premises are the released state, and the endless poll, the wait and every operation keep it. -/
theorem chipSelectStaysReleasedAfterLaunch : Obligations.ChipSelectStaysReleasedAfterLaunch := by
  refine ⟨fun s h => ⟨fun _ => h.released.2, h.betweenFrames.frameInv, fun hoe => ?_⟩, fun s t _ hs h => ?_⟩
  · rw [sdaLine, hoe]
    exact h.pullUps _ _
  · obtain ⟨-, rfl⟩ | ⟨-, -, rfl⟩ | ⟨-, w, rest, i, -, -, hx⟩ := step_next_cases h
    · exact hs
    · exact hs
    · exact exec_chipSelectReleased (s := { s with queue := rest }) (hs.congr rfl rfl) hx

/-! ### I2C_INIT, and the uses before it (R231, R252) -/

/-- The micro-sequence of I2C_INIT, field by field (R102). -/
theorem initLines_effect (s : State) :
    initLines s = { s with
      i2c := { s.i2c with
        lw := Levels.idle.word s.params
        i2cW := Levels.idle.word s.params
        ready := true }
      ustep := s.ustep + 2
      trace := s.trace ++ [.memWrite .i2cW (Levels.idle.word s.params), .delay .init] } := by
  apply State.ext <;> simp [Levels.word, Levels.idle]

/-- A line word has no bits beside its three fields (R71). -/
theorem testBit_word_of_ne {p : Params} (l : Levels) {i : Nat} (hscl : i ≠ p.sclBit) (hsda : i ≠ p.sdaBit)
    (hoe : i ≠ p.oeBit) : (l.word p).testBit i = false := by
  simp [Levels.word, testBit_lwf, hscl, hsda, hoe]

/-- With the idle word in I2C_W both wires are high where nobody pulls (R23, R102). -/
theorem lines_high_of_idle {t : State} (hp : t.params.layoutWf = true) (hw : t.i2c.i2cW = Levels.idle.word t.params) :
    sclLine t = true ∧ sdaLine t false = true := by
  refine ⟨?_, ?_⟩
  · rw [sclLine, hw, lineField_word hp]
    rfl
  · rw [sdaLine, hw, lineField_word hp, lineField_word hp]
    rfl

/-- Settles O16: I2C_INIT runs its micro-sequence there, and the fields of the idle word are the wires' levels. -/
theorem i2cInitResetsTheMaster : Obligations.I2cInitResetsTheMaster := by
  refine ⟨initLines_effect, fun s hallowed => ⟨_, ?_, rfl, fun hp => ?_⟩⟩
  · rw [exec, execI2cInit_of (hallowed.imp_right (initAllowed_iff _).2), initLines_effect]
    rfl
  · obtain ⟨hscl, hsda⟩ := lines_high_of_idle (t := setPhase .idle (initLines (startOp s))) hp rfl
    refine ⟨lineField_word hp .scl .idle, lineField_word hp .sda .idle, lineField_word hp .oe .idle,
      fun i => testBit_word_of_ne .idle, hscl, hsda, fun hpull => ?_⟩
    rw [testBit_i2cRWord, hpull]
    exact hsda

theorem issueI2c_notReady {allowed : I2cPhase → Bool} {run : State → State} {s : State} (hr : s.i2c.ready = false) :
    issueI2c allowed run s = .refused .i2cNotReady := if_pos hr

/-- Settles O22: each of these operations looks at i2c_ready first, and I2C_INIT runs while it is false. -/
theorem i2cBeforeInitIsRefused : Obligations.I2cBeforeInitIsRefused := by
  refine fun s hr => ⟨?_, _, execI2cInit_of (.inl hr)⟩
  rintro i (rfl | rfl | ⟨_, rfl⟩ | ⟨_, rfl⟩ | rfl | rfl | rfl) <;>
    simp only [exec, execI2cStart, execI2cStop, execI2cWriteByte, execI2cReadByte, execI2cScan, execSensorInit,
      execSensorMeasure, issueI2c_notReady hr]

/-! ### Event counts (R250) -/

/-- The events `es` hold `changed` line changes and `sampled` samples, and wait, beside the settle delay of each line
change, `waited` nanoseconds. -/
structure Counts (p : Params) (es : List Event) (changed sampled waited : Nat) : Prop where
  lineChanges : lineChanges es = changed
  samples     : samples es = sampled
  delayTotal  : delayTotal p es = changed * p.tSettle + waited

section
variable {p : Params} {es fs : List Event}

theorem Counts.nil : Counts p [] 0 0 0 := ⟨rfl, rfl, by simp [Machine.delayTotal]⟩

theorem Counts.of_eq {c n d c' n' d' : Nat} (h : Counts p es c n d) (hc : c = c') (hn : n = n') (hd : d = d') :
    Counts p es c' n' d' := by
  subst hc hn hd
  exact h

theorem Counts.append {c n d c' n' d' : Nat} (h : Counts p es c n d) (k : Counts p fs c' n' d') :
    Counts p (es ++ fs) (c + c') (n + n') (d + d') where
  lineChanges := by rw [← h.lineChanges, ← k.lineChanges]; exact List.countP_append
  samples := by rw [← h.samples, ← k.samples]; exact List.countP_append
  delayTotal := by
    have hsum : Machine.delayTotal p (es ++ fs) = Machine.delayTotal p es + Machine.delayTotal p fs := by
      simp [Machine.delayTotal]
    rw [hsum, h.delayTotal, k.delayTotal]
    ring

/-- A loop each of whose rounds counts the same. -/
theorem Counts.loop {α : Type} {f : α → List Event} {c n d : Nat} (h : ∀ x, Counts p (f x) c n d) (xs : List α) :
    Counts p (xs.flatMap f) (xs.length * c) (xs.length * n) (xs.length * d) := by
  induction xs with
  | nil => simpa using Counts.nil
  | cons x xs ih => simpa [Nat.succ_mul, Nat.add_comm] using (h x).append ih

/-- Line changes, each a write and a settle delay (R100). -/
theorem Counts.lines (ls : List Levels) : Counts p (lineEvents p ls) ls.length 0 0 := by
  have hone : ∀ l : Levels, Counts p [.memWrite .i2cW (l.word p), .delay .settle] 1 0 0 := fun l =>
    ⟨rfl, rfl, by simp [Machine.delayTotal, Params.nanoseconds]⟩
  exact (loop hone ls).of_eq (Nat.mul_one _) rfl rfl

theorem Counts.sample (w : HostWord) : Counts p [.memRead .i2cR w] 0 1 0 :=
  ⟨rfl, rfl, by simp [Machine.delayTotal]⟩

/-- A delay that is not a line change's. -/
theorem Counts.delay {t : Duration} (ht : t ≠ .settle) : Counts p [.delay t] 0 0 (p.nanoseconds t) where
  lineChanges := by simp [Machine.lineChanges, ht]
  samples := rfl
  delayTotal := by simp [Machine.delayTotal]

/-- A written byte: 27 line changes, its sample, one more (R105). -/
theorem Counts.write (sda : Bool) (v : Byte) (a : ResponderAnswer) : Counts p (writeEvents p sda v a) 28 1 0 :=
  ((lines (writeLevels sda v)).append (sample _)).append (lines [_])

/-- A read byte: the release, eight bits of two line changes and a sample each, the acknowledge period (R106). -/
theorem Counts.read (sda k : Bool) {as : List ResponderAnswer} (has : as.length = 8) :
    Counts p (readEvents p sda k as) (if k then 21 else 20) 8 0 := by
  have hbit : ∀ a, Counts p (readBitEvents p sda a) 2 1 0 := fun a =>
    ((lines [_]).append (sample _)).append (lines [_])
  have h := ((lines (p := p) [⟨false, sda, false⟩]).append (loop hbit as)).append (lines (ackLevels k))
  rw [has] at h
  cases k <;> exact h

theorem Counts.written (sda : Bool) (ws : List (Byte × ResponderAnswer)) :
    Counts p (writtenEvents p sda ws) (28 * ws.length) ws.length 0 := by
  induction ws generalizing sda with
  | nil => exact nil
  | cons w ws ih => exact ((write sda w.1 w.2).append (ih _)).of_eq (by simp; omega) (by simp; omega) rfl

/-- A written transaction: a start, the bytes, a stop (R76). -/
theorem Counts.transaction (ws : List (Byte × ResponderAnswer)) :
    Counts p (transactionEvents p ws) (9 + 28 * ws.length) ws.length 0 := by
  have h := ((lines (p := p) (startLevels true true)).append (written false ws)).append (lines (stopLevels false false))
  exact h.of_eq (by simp [startLevels, stopLevels]; omega) (by omega) rfl

end

/-- The counts of an operation of the I2C side, a sensor sequence being successful (R250). -/
def I2cCounts (p : Params) (es : List Event) (r : Result) : Instr → Prop
  | .i2cInit => Counts p es 0 0 p.tInit
  | .i2cStart => Counts p es 5 0 0
  | .i2cStop => Counts p es 4 0 0
  | .i2cWriteByte _ => Counts p es 28 1 0
  | .i2cReadByte k => Counts p es (if k then 21 else 20) 8 0
  | .i2cScan => Counts p es 4699 127 0
  | .sensorInit => r = .success → Counts p es 121 4 100000000
  | .sensorMeasure => (∃ a b, r = .reading a b) → Counts p es 283 53 80000000
  | _ => True

/-- The events of the scan's 127 probes (R107). -/
theorem Counts.scan {p : Params} {as : List ResponderAnswer} (has : as.length = 127) :
    Counts p ((scanAddresses.zip as).flatMap fun x => transactionEvents p [(addrb x.1 p.scanDir, x.2)]) 4699 127 0 := by
  have hlen : (scanAddresses.zip as).length = 127 := by simp [scanAddresses_eq, has]
  have h := Counts.loop (p := p) (fun x : Addr7 × ResponderAnswer => transaction [(addrb x.1 p.scanDir, x.2)])
    (scanAddresses.zip as)
  exact h.of_eq (by simp [hlen]) (by simp [hlen]) (by simp)

/-- The events of a measurement that reads the response: the trigger's four bytes, the conversion delay, the read
address, six bytes read (R173). -/
theorem Counts.measure {p : Params} {ws : List (Byte × ResponderAnswer)} {k : ResponderAnswer}
    {c0 c1 c2 c3 c4 c5 : List ResponderAnswer} (hws : ws.length = 4)
    (hc : ∀ c ∈ [c0, c1, c2, c3, c4, c5], c.length = 8) :
    Counts p (transactionEvents p ws ++
      ([.delay .sensorConv] ++ lineEvents p (startLevels true true) ++ writeEvents p false 0x71#8 k ++
        (readEvents p true true c0 ++ readEvents p false true c1 ++ readEvents p false true c2 ++
          readEvents p false true c3 ++ readEvents p false true c4 ++ readEvents p false false c5 ++
          lineEvents p (stopLevels false false)))) 283 53 80000000 := by
  simp only [List.forall_mem_cons] at hc
  obtain ⟨h0, h1, h2, h3, h4, h5, -⟩ := hc
  have htrigger := transaction (p := p) ws
  rw [hws] at htrigger
  have haddress := ((delay (p := p) (t := .sensorConv) nofun).append (lines (startLevels true true))).append
    (write false 0x71#8 k)
  have hread := ((((((read (p := p) true true h0).append (read false true h1)).append (read false true h2)).append
    (read false true h3)).append (read false true h4)).append (read false false h5)).append
    (lines (stopLevels false false))
  exact (htrigger.append (haddress.append hread)).of_eq (by simp [startLevels, stopLevels]) rfl
    (by simp [Params.nanoseconds])

/-- What an operation of the I2C side counts, from a state that meets the line invariant. -/
theorem exec_i2c_counts {i : Instr} {s t : State} (hp : s.params.layoutWf) (hI : LineInv s)
    (hi : onSpiSide i = false) (h : exec i s = .next t) :
    ∃ es, t.trace = s.trace ++ es ∧ t.ustep = es.length ∧ I2cCounts s.params es t.result i := by
  by_cases hn : i = .i2cInit
  · subst hn
    obtain ⟨-, rfl⟩ := execI2cInit_next h
    exact ⟨_, initLines_trace _, rfl, rfl, rfl, by simp [delayTotal, Params.nanoseconds]⟩
  obtain ⟨l, -, -, hcase⟩ := exec_i2c_cases hp hI h hi hn
  cases i <;> simp only [onSpiSide, Bool.true_eq_false] at hi
  case i2cInit => exact absurd rfl hn
  case i2cStart =>
    obtain ⟨-, rfl⟩ := hcase
    exact ⟨_, rfl, Nat.zero_add _, .lines _⟩
  case i2cStop =>
    obtain ⟨-, rfl⟩ := hcase
    exact ⟨_, rfl, Nat.zero_add _, .lines _⟩
  case i2cWriteByte v =>
    obtain ⟨-, a, rfl⟩ := hcase
    exact ⟨_, rfl, Nat.zero_add _, .write _ _ _⟩
  case i2cReadByte k =>
    obtain ⟨-, as, has, rfl⟩ := hcase
    exact ⟨_, rfl, Nat.zero_add _, .read _ _ has⟩
  case i2cScan =>
    obtain ⟨-, -, as, r, has, rfl⟩ := hcase
    exact ⟨_, rfl, Nat.zero_add _, .scan has⟩
  case sensorInit =>
    obtain ⟨-, as, es, r, rfl, -, hsuccess⟩ := hcase
    refine ⟨es, rfl, Nat.zero_add _, fun hr => ?_⟩
    obtain ⟨has, rfl⟩ := hsuccess hr
    have h := Counts.transaction (p := s.params) ([0x70#8, 0xE1#8, 0x08#8, 0x00#8].zip as)
    rw [List.length_zip, has] at h
    exact (h.append (.delay (t := .sensorSettle) nofun)).of_eq rfl rfl (by simp [Params.nanoseconds])
  case sensorMeasure =>
    obtain ⟨-, as, es, r, rfl, -, hreading⟩ := hcase
    refine ⟨es, rfl, Nat.zero_add _, fun hr => ?_⟩
    obtain ⟨bs, k, c0, c1, c2, c3, c4, c5, hbs, hc, rfl⟩ := hreading hr
    exact .measure (by simp [hbs]) hc

/-- The counts with the settle delay of 5 microseconds. -/
theorem Counts.at_5us {p : Params} {es : List Event} {c n d : Nat} (h : Counts p es c n d) (hp : p.tSettle = 5000) :
    Machine.lineChanges es = c ∧ Machine.samples es = n ∧ Machine.delayTotal p es = c * 5000 + d :=
  ⟨h.lineChanges, h.samples, hp ▸ h.delayTotal⟩

/-- Settles O28: the counts of each operation, with 5 microseconds for each line change. -/
theorem i2cEventCounts : Obligations.I2cEventCounts := by
  intro i s t hp hI hsettle h
  have hcounts : ∃ es, t.trace = s.trace ++ es ∧ t.ustep = es.length ∧
      (onSpiSide i = false → I2cCounts s.params es t.result i) := by
    cases hi : onSpiSide i with
    | true =>
      obtain ⟨es, htrace, hustep⟩ := (exec_spiFrame hi h).trace
      exact ⟨es, htrace, hustep, nofun⟩
    | false =>
      obtain ⟨es, htrace, hustep, hcount⟩ := exec_i2c_counts hp hI hi h
      exact ⟨es, htrace, hustep, fun _ => hcount⟩
  obtain ⟨es, htrace, hustep, hcount⟩ := hcounts
  refine ⟨es, htrace, hustep, ?_, ?_, ?_, ?_, ?_, ?_, ?_, ?_, ?_⟩
  · rintro rfl; simpa using (hcount rfl).at_5us hsettle
  · rintro rfl; exact (hcount rfl).at_5us hsettle
  · rintro rfl; exact (hcount rfl).at_5us hsettle
  · rintro v rfl; exact (hcount rfl).at_5us hsettle
  · rintro rfl; exact (hcount rfl).at_5us hsettle
  · rintro rfl; exact (hcount rfl).at_5us hsettle
  · rintro rfl; exact (hcount rfl).at_5us hsettle
  · rintro rfl hr; exact (hcount rfl hr).at_5us hsettle
  · rintro rfl hr; exact (hcount rfl hr).at_5us hsettle

end Sys2Proof.Machine
